-- ==== Sys2Proof/Word.lean ====
section
/-! DEFINITION. The word type of ASCORE: every register, buffer word and port word that holds a real value
or a host datum is 32 bits wide (00_scope R12, R13; 20_memory R79). -/

namespace Sys2Proof

/-- A 32-bit word; where it stands for a real value it is a binary32 bit pattern (R13). -/
abbrev Word := BitVec 32

end Sys2Proof
end

