-- ==== Sys2Proof/Config.lean ====
section
/-! DEFINITION. What an implementation of ASCORE fixes (the OPEN parameters of 00_scope R8) and the values the spec
leaves open (93_implementation_defined U1, U5, U12). Every one is opaque: no proof can learn its value. -/

namespace Sys2Proof

/-- The index of one free value: which operation of the run draws (`serial`), for which element of its walk,
and at which place of its formula. Distinct indices are independent draws (U1: "a draw per operation"). -/
structure Draw where
  serial : Nat
  elem : Nat
  slot : Nat
  deriving DecidableEq, Repr

/-- The five private buffers (20_memory R70 to R75). -/
inductive BufId where
  | xbuf | re | im | win | ftab
  deriving DecidableEq, Repr

/-- The 32-bit registers whose reset value the spec leaves unspecified (10_state R55). -/
inductive ResetReg where
  | a0 | a1 | b0 | b1 | b2 | acc | pkPow | pkIdx | resFreq | resAmp | resRms
  deriving DecidableEq, Repr

/-- The order in which a byte stream is packed into sample words (20_memory R77). -/
inductive ByteOrder where
  | little | big
  deriving DecidableEq, Repr

namespace Config

/-- `CUTOFF`: the filter's cutoff frequency in Hz, binary32, OPEN (R8, D6). -/
opaque cutoff : Word

/-- By how much `MAXLOG2` stays below its upper bound 24 (R8: `1 <= MAXLOG2 <= 24`). -/
opaque maxLog2Slack : Fin 24

/-- `MAXLOG2`: log2 of the depth of every buffer, OPEN, any number from 1 to 24 (R8, D8). -/
def maxLog2 : Nat := 24 - maxLog2Slack.val

theorem one_le_maxLog2 : 1 ≤ maxLog2 := by
  have := maxLog2Slack.isLt
  unfold maxLog2
  omega

theorem maxLog2_le : maxLog2 ≤ 24 := by
  unfold maxLog2
  omega

/-- One less than `CTXW`. -/
opaque ctxwPred : Nat

/-- `CTXW`: the width of the backend's context handle, OPEN, at least 1 (R8, D25). -/
def ctxw : Nat := ctxwPred + 1

/-- `BYTE_ORDER`: little-endian, the value R8 gives; `packSample` takes any order as its argument. -/
def byteOrder : ByteOrder := .little

/-- `NUM.cos`: a total function on binary32 that depends on its operand alone (R17). -/
opaque cos : Word → Word

/-- `NUM.sin`: a total function on binary32 that depends on its operand alone (R17). -/
opaque sin : Word → Word

/-- `NUM.fft(l, re, im, inv)`, one bin at a time: the real and the imaginary output word `k` (R18). It depends on
`(l, re, im, inv)` alone: `P-FFT-PURE`, an assumption about the backend (R218 (c)). -/
opaque fftBin : (l : Nat) → (re im : List Word) → (inverse : Bool) → (k : Nat) → Word × Word

/-- The sign of the NaN that an operation yields: a free value (U1). -/
opaque nanSign : Draw → Bool

/-- The fraction field of the NaN that an operation yields, less one: a free value; every non-zero
23-bit fraction is possible (U1: "constrained only to `e = 255, f != 0`"). -/
opaque nanFracPred : Draw → Fin 8388607

/-- What an unspecified 32-bit register holds after reset number `epoch`: a free value (R55, U5). -/
opaque resetWord : (epoch : Nat) → ResetReg → Word

/-- What `CTX` holds after reset number `epoch`: a free value (R38, R55, U5). -/
opaque resetCtx : (epoch : Nat) → BitVec ctxw

/-- What word `i` of a buffer holds from reset number `epoch` until an operation writes it: a free value,
"fixed once drawn until overwritten" (R55, R232, U3). -/
opaque unwritten : (epoch : Nat) → BufId → (i : Nat) → Word

/-- `fft_ctx_out` as the backend drives it with its answer: a free value (R109, U12). -/
opaque ctxAnswer : (draw : Nat) → BitVec ctxw

end Config

/-- `IDX`, `WPTR`, `PKIDX`: unsigned integers of `MAXLOG2 + 1` bits (00_scope R12, R21). -/
abbrev Index := BitVec (Config.maxLog2 + 1)

/-- The backend's opaque handle, `CTXW` bits (10_state R38). -/
abbrev Ctx := BitVec Config.ctxw

end Sys2Proof
end

