-- ==== Sys2Proof/Machine/Binary32.lean ====
section
/-! DEFINITION. The binary32 arithmetic of ASCORE (00_scope R13 to R16, R19), IEEE 754 round-to-nearest, ties-to-even.
Every finite binary32 value is a whole number of units of 2^-149, so exact results are integers or quotients of
integers in that unit, and each operation rounds once at its end. -/

namespace Sys2Proof.Machine

/-! Fields and classes (R13). -/

/-- Bit 31: 1 for a negative sign. -/
def signBit (w : Word) : Bool := w.extractLsb' 31 1 == 1#1

/-- Bits 30:23, the biased exponent. -/
def expField (w : Word) : Nat := (w.extractLsb' 23 8).toNat

/-- Bits 22:0, the fraction. -/
def fracField (w : Word) : Nat := (w.extractLsb' 0 23).toNat

def isNaN (w : Word) : Bool := expField w == 255 && fracField w != 0

def isInf (w : Word) : Bool := expField w == 255 && fracField w == 0

def isZero (w : Word) : Bool := expField w == 0 && fracField w == 0

/-- Neither a NaN nor an infinity. -/
def isFinite (w : Word) : Bool := expField w != 255

/-- The magnitude of a finite value in units of 2^-149. On an infinity the same formula gives 2^277, above every
finite magnitude. -/
def magUnits (w : Word) : Nat :=
  if expField w = 0 then fracField w else (2 ^ 23 + fracField w) * 2 ^ (expField w - 1)

/-- The signed value in units of 2^-149. -/
def valUnits (w : Word) : Int := if signBit w then -(magUnits w : Int) else (magUnits w : Int)

/-- The word of a sign and a 31-bit magnitude pattern. -/
def packWord (neg : Bool) (magnitude : Nat) : Word := BitVec.ofBool neg ++ BitVec.ofNat 31 magnitude

/-- The magnitude pattern of infinity. -/
def infBits : Nat := 0x7F800000

def infWord (neg : Bool) : Word := packWord neg infBits

def zeroWord (neg : Bool) : Word := packWord neg 0

/-- The NaN an operation yields: any NaN pattern, chosen by no one (U1). -/
def nanWord (d : Draw) : Word :=
  BitVec.ofBool (Config.nanSign d) ++ 0xFF#8 ++ BitVec.ofNat 23 ((Config.nanFracPred d).val + 1)

/-- A parameter function's result: its value, with the pattern of a NaN drawn anew (U1 names `NUM.cos`, `NUM.sin`
and `NUM.fft` among the draws; log 5). -/
def settleNaN (d : Draw) (w : Word) : Word := if isNaN w then nanWord d else w

/-! Rounding (R14). -/

/-- Round half to even: the quotient's floor `q`, moved up when twice the remainder `r` exceeds the divisor `ulp`, or
equals it and `q` is odd. -/
def roundHalfEven (q r ulp : Nat) : Nat := if ulp < 2 * r ∨ (2 * r = ulp ∧ q % 2 = 1) then q + 1 else q

/-- The exponent step of a magnitude whose floor in units is `n`: representable values near it are `2 ^ step n`
units apart. -/
def step23 (n : Nat) : Nat := Nat.log2 n - 23

/-- The magnitude pattern of the representable value nearest to `num / den` units, ties to the even fraction, infinity
when the rounded magnitude is 2^128 or more. A carry out of the fraction moves into the exponent field. -/
def roundUnits (num den : Nat) : Nat :=
  let b := step23 (num / den)
  let ulp := den * 2 ^ b
  min (b * 2 ^ 23 + roundHalfEven (num / ulp) (num % ulp) ulp) infBits

/-- The largest `r` whose square is at most `x`, sought in the `k` low bits above `acc`. -/
def sqrtBits (x : Nat) : (k : Nat) → (acc : Nat) → Nat
  | 0, acc => acc
  | k + 1, acc =>
    let c := acc + 2 ^ k
    sqrtBits x k (if c * c ≤ x then c else acc)

/-- The magnitude pattern of the representable value nearest to the square root of `z` units: that root is
`sqrt (z * 2^149)` units, compared with the midpoint between two neighbours by squares. -/
def roundSqrtUnits (z : Nat) : Nat :=
  let x := z * 2 ^ 149
  let b := Nat.log2 x / 2 - 23
  let q := sqrtBits (x / 4 ^ b) 24 0
  let mid := (2 * q + 1) * (2 * q + 1) * 4 ^ b
  b * 2 ^ 23 + (if mid < 4 * x ∨ (mid = 4 * x ∧ q % 2 = 1) then q + 1 else q)

/-! The operations (R14 to R16). `d` indexes the NaN pattern, should the result be a NaN. -/

def fadd (d : Draw) (a b : Word) : Word :=
  if isNaN a || isNaN b then nanWord d
  else if isInf a then (if isInf b && (signBit a != signBit b) then nanWord d else a)
  else if isInf b then b
  else
    let z := valUnits a + valUnits b
    if z = 0 then zeroWord (signBit a && signBit b)
    else packWord (decide (z < 0)) (roundUnits z.natAbs 1)

/-- Sign reversal, exact. -/
def fneg (a : Word) : Word := a ^^^ 0x80000000#32

/-- `a - b` is `a + (-b)`; R14's zero rules for differences are those of the sum. -/
def fsub (d : Draw) (a b : Word) : Word := fadd d a (fneg b)

def fmul (d : Draw) (a b : Word) : Word :=
  let neg := signBit a != signBit b
  if isNaN a || isNaN b then nanWord d
  else if isInf a || isInf b then (if isZero a || isZero b then nanWord d else infWord neg)
  else packWord neg (roundUnits (magUnits a * magUnits b) (2 ^ 149))

def fdiv (d : Draw) (a b : Word) : Word :=
  let neg := signBit a != signBit b
  if isNaN a || isNaN b then nanWord d
  else if isInf a then (if isInf b then nanWord d else infWord neg)
  else if isInf b then zeroWord neg
  else if isZero b then (if isZero a then nanWord d else infWord neg)
  else packWord neg (roundUnits (magUnits a * 2 ^ 149) (magUnits b))

def fsqrt (d : Draw) (a : Word) : Word :=
  if isNaN a then nanWord d
  else if isZero a then a
  else if signBit a then nanWord d
  else if isInf a then a
  else packWord false (roundSqrtUnits (magUnits a))

/-- The strict comparison `>`: false on a NaN, equal on the two zeros (R15). -/
def fgt (a b : Word) : Bool := !isNaN a && !isNaN b && decide (valUnits b < valUnits a)

/-- A signed integer to the nearest binary32 value, ties to even (R16). -/
def i2f (n : Int) : Word := packWord (decide (n < 0)) (roundUnits (n.natAbs * 2 ^ 149) 1)

/-- `NUM.cos` (R17). -/
def fcos (d : Draw) (a : Word) : Word := settleNaN d (Config.cos a)

/-- `NUM.sin` (R17). -/
def fsin (d : Draw) (a : Word) : Word := settleNaN d (Config.sin a)

/-! Constants (R19). -/

def fZero : Word := 0x00000000#32
def fHalf : Word := 0x3F000000#32
def fOne : Word := 0x3F800000#32
def fTwo : Word := 0x40000000#32
def fNegTwo : Word := 0xC0000000#32
def fTwoPi : Word := 0x40C90FDB#32
def fSqrt2 : Word := 0x3FB504F3#32

end Sys2Proof.Machine
end

