-- ==== Sys2Proof/Syntax.lean ====
section
/-! DEFINITION. The operations of ASCORE and the environment's moves, one constructor per row of
spec/opcode_table.json (30_encoding R104), and the words they are written as, by format (R100). -/

namespace Sys2Proof

/-- One constructor per row of the table. The bits a format ignores are no operands. -/
inductive Instr where
  -- format P: the phase operations, without operand field (R101, R102)
  | idle
  | validate
  | coef
  | wingen
  | ftgen
  | fftinit
  | check
  | load
  | rms
  | bq1
  | bq2
  | window
  | fft
  | peak
  | emit
  | stopping
  | stopped
  | fatal
  -- format H: the host operations (R103)
  | start
  | stop
  | wr (addr : BitVec 4) (data : Word)
  | rd (addr : BitVec 4)
  -- format I: the input beats (R107)
  | sample (data : Word)
  | short
  -- format O: the output beats (R108)
  | freq (data : Word)
  | amp (data : Word)
  | rmsv (data : Word)
  | eol
  -- format B: the backend requests FFT.INIT, FFT.APPLY, FFT.DESTROY (R109)
  | reqInit (log2n : BitVec 5)
  | reqApply (log2n : BitVec 5) (ctx : Ctx)
  | reqDestroy (ctx : Ctx)
  -- the pin events (R110)
  | stopreq
  | reset
  deriving DecidableEq, Repr

/-- A word as it stands at its place: the value of `PHASE`, or what a port or pin carries. The format is given by
the place, so no decoder has to find it (R100). A format-B word is its upper 8 bits and its `fft_ctx` tail. -/
inductive Raw where
  | phase (code : BitVec 5)
  | host (w : BitVec 37)
  | input (w : BitVec 33)
  | output (w : BitVec 34)
  | backend (hdr : BitVec 8) (ctx : Ctx)
  | stopPin (level : BitVec 1)
  | rstPin (level : BitVec 1)
  deriving DecidableEq, Repr

/-- The formats of R100; the two pins have one each. -/
inductive Format where
  | p | h | i | o | b | stopPin | rstPin
  deriving DecidableEq, Repr

/-- The format a word is written in. -/
def Raw.format : Raw → Format
  | .phase _ => .p
  | .host _ => .h
  | .input _ => .i
  | .output _ => .o
  | .backend _ _ => .b
  | .stopPin _ => .stopPin
  | .rstPin _ => .rstPin

/-- The format of an instruction's row in the table (R104). -/
def Instr.format : Instr → Format
  | .idle => .p
  | .validate => .p
  | .coef => .p
  | .wingen => .p
  | .ftgen => .p
  | .fftinit => .p
  | .check => .p
  | .load => .p
  | .rms => .p
  | .bq1 => .p
  | .bq2 => .p
  | .window => .p
  | .fft => .p
  | .peak => .p
  | .emit => .p
  | .stopping => .p
  | .stopped => .p
  | .fatal => .p
  | .start => .h
  | .stop => .h
  | .wr _ _ => .h
  | .rd _ => .h
  | .sample _ => .i
  | .short => .i
  | .freq _ => .o
  | .amp _ => .o
  | .rmsv _ => .o
  | .eol => .o
  | .reqInit _ => .b
  | .reqApply _ _ => .b
  | .reqDestroy _ => .b
  | .stopreq => .stopPin
  | .reset => .rstPin

end Sys2Proof
end

