-- ==== Sys2Proof/WellFormed.lean ====
section
/-! DEFINITION. Which terms of `Instr` have a word that decodes to them. A write to `CMD` whose command code is
`START` or `STOP` is the instruction START or STOP, decoded before the general WR row (30_encoding R103, R117). -/

namespace Sys2Proof

/-- The command code of a word written to `CMD`: `h_wdata[3:0]` (R45, R103). -/
def commandCode (data : Word) : BitVec 4 := data.extractLsb' 0 4

/-- The operands of an instruction are such that its word decodes to it. -/
def Instr.wellFormed : Instr → Bool
  | .wr addr data => !(addr == 0x0#4 && commandCode data == 0x1#4) && !(addr == 0x0#4 && commandCode data == 0x2#4)
  | .idle => true
  | .validate => true
  | .coef => true
  | .wingen => true
  | .ftgen => true
  | .fftinit => true
  | .check => true
  | .load => true
  | .rms => true
  | .bq1 => true
  | .bq2 => true
  | .window => true
  | .fft => true
  | .peak => true
  | .emit => true
  | .stopping => true
  | .stopped => true
  | .fatal => true
  | .start => true
  | .stop => true
  | .rd _ => true
  | .sample _ => true
  | .short => true
  | .freq _ => true
  | .amp _ => true
  | .rmsv _ => true
  | .eol => true
  | .reqInit _ => true
  | .reqApply _ _ => true
  | .reqDestroy _ => true
  | .stopreq => true
  | .reset => true

end Sys2Proof
end

