-- ==== Sys2Proof/Decode.lean ====
section
/-! DEFINITION. Decoding of every format, total, rejecting by name (30_encoding R100 to R112), and the encoder
written from the same tables. -/

namespace Sys2Proof

/-- Why a word spells no row of the table. -/
inductive DecodeError where
  /-- A phase code from 0x12 to 0x1F (R112 (a)). -/
  | reservedPhase
  /-- `fft_op = 00`: no request (R109, R112 (g)). -/
  | noRequest
  /-- `fft_inverse = 1` on FFT.INIT or FFT.APPLY, which no row spells (R109: "ASCORE always drives it 0"). -/
  | inverseRequest
  /-- An `EOL` beat whose data is not zero, which no row spells (R108). -/
  | eolWithData
  /-- A pin at 0: no event (R110). -/
  | pinLow
  deriving DecidableEq, Repr

/-! The phase codes of R102; simp writes them as numbers. -/

@[simp] abbrev Phase.idle : BitVec 5 := 0x00#5
@[simp] abbrev Phase.validate : BitVec 5 := 0x01#5
@[simp] abbrev Phase.coef : BitVec 5 := 0x02#5
@[simp] abbrev Phase.wingen : BitVec 5 := 0x03#5
@[simp] abbrev Phase.ftgen : BitVec 5 := 0x04#5
@[simp] abbrev Phase.fftinit : BitVec 5 := 0x05#5
@[simp] abbrev Phase.check : BitVec 5 := 0x06#5
@[simp] abbrev Phase.load : BitVec 5 := 0x07#5
@[simp] abbrev Phase.rms : BitVec 5 := 0x08#5
@[simp] abbrev Phase.bq1 : BitVec 5 := 0x09#5
@[simp] abbrev Phase.bq2 : BitVec 5 := 0x0A#5
@[simp] abbrev Phase.window : BitVec 5 := 0x0B#5
@[simp] abbrev Phase.fft : BitVec 5 := 0x0C#5
@[simp] abbrev Phase.peak : BitVec 5 := 0x0D#5
@[simp] abbrev Phase.emit : BitVec 5 := 0x0E#5
@[simp] abbrev Phase.stopping : BitVec 5 := 0x0F#5
@[simp] abbrev Phase.stopped : BitVec 5 := 0x10#5
@[simp] abbrev Phase.fatal : BitVec 5 := 0x11#5

/-- Format P: the operation a phase code names (R102); codes 0x12 to 0x1F are reserved (R112 (a)). -/
def decodePhase (code : BitVec 5) : Except DecodeError Instr :=
  if code = Phase.idle then .ok .idle
  else if code = Phase.validate then .ok .validate
  else if code = Phase.coef then .ok .coef
  else if code = Phase.wingen then .ok .wingen
  else if code = Phase.ftgen then .ok .ftgen
  else if code = Phase.fftinit then .ok .fftinit
  else if code = Phase.check then .ok .check
  else if code = Phase.load then .ok .load
  else if code = Phase.rms then .ok .rms
  else if code = Phase.bq1 then .ok .bq1
  else if code = Phase.bq2 then .ok .bq2
  else if code = Phase.window then .ok .window
  else if code = Phase.fft then .ok .fft
  else if code = Phase.peak then .ok .peak
  else if code = Phase.emit then .ok .emit
  else if code = Phase.stopping then .ok .stopping
  else if code = Phase.stopped then .ok .stopped
  else if code = Phase.fatal then .ok .fatal
  else .error .reservedPhase

/-- Format H: `h_we[36]`, `h_addr[35:32]`, `h_wdata[31:0]`; START and STOP are tested before WR (R103, R117). -/
def decodeHost (w : BitVec 37) : Instr :=
  let addr : BitVec 4 := w.extractLsb' 32 4
  let data : Word := w.extractLsb' 0 32
  if w.extractLsb' 36 1 = 0#1 then .rd addr
  else if addr = 0x0#4 ∧ commandCode data = 0x1#4 then .start
  else if addr = 0x0#4 ∧ commandCode data = 0x2#4 then .stop
  else .wr addr data

/-- Format I: `in_short[32]`, `in_data[31:0]` (R107). -/
def decodeInput (w : BitVec 33) : Instr :=
  if w.extractLsb' 32 1 = 0#1 then .sample (w.extractLsb' 0 32) else .short

/-- Format O: `out_kind[33:32]`, `out_data[31:0]` (R108). -/
def decodeOutput (w : BitVec 34) : Except DecodeError Instr :=
  let kind : BitVec 2 := w.extractLsb' 32 2
  let data : Word := w.extractLsb' 0 32
  if kind = 0b00#2 then .ok (.freq data)
  else if kind = 0b01#2 then .ok (.amp data)
  else if kind = 0b10#2 then .ok (.rmsv data)
  else if data = 0#32 then .ok .eol
  else .error .eolWithData

/-- Format B: `fft_op`, `fft_log2n`, `fft_inverse` are bits 7:6, 5:1 and 0 of the upper 8 bits, `fft_ctx` is the
tail (R100, R109). FFT.INIT ignores the tail, FFT.DESTROY ignores `fft_log2n` and `fft_inverse`. -/
def decodeBackend (hdr : BitVec 8) (ctx : Ctx) : Except DecodeError Instr :=
  let op : BitVec 2 := hdr.extractLsb' 6 2
  let log2n : BitVec 5 := hdr.extractLsb' 1 5
  let inverse : BitVec 1 := hdr.extractLsb' 0 1
  if op = 0b00#2 then .error .noRequest
  else if op = 0b11#2 then .ok (.reqDestroy ctx)
  else if inverse = 1#1 then .error .inverseRequest
  else if op = 0b01#2 then .ok (.reqInit log2n)
  else .ok (.reqApply log2n ctx)

/-- The instruction a word spells at its place. -/
def decode : Raw → Except DecodeError Instr
  | .phase code => decodePhase code
  | .host w => .ok (decodeHost w)
  | .input w => .ok (decodeInput w)
  | .output w => decodeOutput w
  | .backend hdr ctx => decodeBackend hdr ctx
  | .stopPin level => if level = 1#1 then .ok .stopreq else .error .pinLow
  | .rstPin level => if level = 1#1 then .ok .reset else .error .pinLow

/-! The encoder. -/

/-- A format-H word from its fields (R103). -/
def hostWord (we : BitVec 1) (addr : BitVec 4) (data : Word) : BitVec 37 := we ++ addr ++ data

/-- A format-I word from its fields (R107). -/
def inputWord (short : BitVec 1) (data : Word) : BitVec 33 := short ++ data

/-- A format-O word from its fields (R108). -/
def outputWord (kind : BitVec 2) (data : Word) : BitVec 34 := kind ++ data

/-- The upper 8 bits of a format-B word from its fields; `fft_inverse` is 0 (R109). -/
def backendHdr (op : BitVec 2) (log2n : BitVec 5) : BitVec 8 := op ++ log2n ++ 0#1

/-- The word of an instruction; the bits its format ignores are 0. -/
def encode : Instr → Raw
  | .idle => .phase Phase.idle
  | .validate => .phase Phase.validate
  | .coef => .phase Phase.coef
  | .wingen => .phase Phase.wingen
  | .ftgen => .phase Phase.ftgen
  | .fftinit => .phase Phase.fftinit
  | .check => .phase Phase.check
  | .load => .phase Phase.load
  | .rms => .phase Phase.rms
  | .bq1 => .phase Phase.bq1
  | .bq2 => .phase Phase.bq2
  | .window => .phase Phase.window
  | .fft => .phase Phase.fft
  | .peak => .phase Phase.peak
  | .emit => .phase Phase.emit
  | .stopping => .phase Phase.stopping
  | .stopped => .phase Phase.stopped
  | .fatal => .phase Phase.fatal
  | .start => .host (hostWord 1#1 0x0#4 0x1#32)
  | .stop => .host (hostWord 1#1 0x0#4 0x2#32)
  | .wr addr data => .host (hostWord 1#1 addr data)
  | .rd addr => .host (hostWord 0#1 addr 0#32)
  | .sample data => .input (inputWord 0#1 data)
  | .short => .input (inputWord 1#1 0#32)
  | .freq data => .output (outputWord 0b00#2 data)
  | .amp data => .output (outputWord 0b01#2 data)
  | .rmsv data => .output (outputWord 0b10#2 data)
  | .eol => .output (outputWord 0b11#2 0#32)
  | .reqInit log2n => .backend (backendHdr 0b01#2 log2n) 0#_
  | .reqApply log2n ctx => .backend (backendHdr 0b10#2 log2n) ctx
  | .reqDestroy ctx => .backend (backendHdr 0b11#2 0#5) ctx
  | .stopreq => .stopPin 1#1
  | .reset => .rstPin 1#1

/-! The table's words, of which only the bits and their number are given (log 15). -/

/-- The place a table word stands at. The formats overlap once the place is taken away, so the number of bits
decides (log 15): the exact widths 1, 5, 33, 34, 37 name their format; a word of 8 bits is a format-P code, or
from 0x40 up the upper 8 bits of a format-B word with a zero tail; every other width is a format-H word. -/
def tableRaw (nbits w : Nat) : Raw :=
  match nbits with
  | 1 => .stopPin (BitVec.ofNat 1 w)
  | 5 => .phase (BitVec.ofNat 5 w)
  | 8 => if w < 0x20 then .phase (BitVec.ofNat 5 w) else .backend (BitVec.ofNat 8 w) 0#_
  | 33 => .input (BitVec.ofNat 33 w)
  | 34 => .output (BitVec.ofNat 34 w)
  | _ => .host (BitVec.ofNat 37 w)

/-- The instruction the decoder reads from a table word, none where it refuses. -/
def decodeTableWord (nbits w : Nat) : Option Instr :=
  match decode (tableRaw nbits w) with
  | .ok i => some i
  | .error _ => none

end Sys2Proof
end

