-- ==== Sys2Proof/Machine/State.lean ====
section
/-! DEFINITION. The state of ASCORE (10_state R30 to R55, 20_memory R70 to R75), the transfers in progress that its
rules imply, the environment whose moves the step function takes, and the state after reset. Plain data throughout. -/

namespace Sys2Proof.Machine

/-- The filter coefficients `A[0]`, `A[1]`, `B[0]`, `B[1]`, `B[2]` (R31, R32). -/
structure Coefs where
  a0 : Word
  a1 : Word
  b0 : Word
  b1 : Word
  b2 : Word
  deriving DecidableEq, Repr

/-- The four cells of one filter instance: `S[0]`, `S[1]` are the last two inputs, `S[2]`, `S[3]` the last two
outputs (R33, R34). -/
structure Cells where
  x1 : Word
  x2 : Word
  y1 : Word
  y2 : Word
  deriving DecidableEq, Repr

/-- A private buffer: the words written since reset, indices strictly rising. An unlisted index holds no value yet;
what reading it gives is a free value (R232; log 3). -/
abbrev Buf := List (Nat × Word)

/-- The five private buffers (R52, R70). -/
structure Buffers where
  xbuf : Buf
  re : Buf
  im : Buf
  win : Buf
  ftab : Buf
  deriving DecidableEq, Repr

/-- The backend port (30_encoding R109): no request, a request waiting for `fft_done` (the word ASCORE drives), or
`fft_done` seen with what `fft_ctx_out` carried (log 11). -/
inductive FftPort where
  | idle
  | requested (hdr : BitVec 8) (ctx : Ctx)
  | done (ctxOut : Ctx)
  deriving DecidableEq, Repr

/-- One move: the sequencer's turn, or one event at an input of ASCORE (R22, R110; log 1). -/
inductive Turn where
  /-- the sequencer runs the operation in `PHASE` -/
  | sequencer
  /-- the host performs one bus operation (format H) -/
  | host (w : BitVec 37)
  /-- the source offers one beat (format I) -/
  | source (w : BitVec 33)
  /-- `out_ready` is 1: the sink accepts the beat on offer -/
  | sink
  /-- the backend serves the request on its port and answers `fft_done` -/
  | backend
  /-- `stop_req` is 1 for a moment -/
  | stopReq
  /-- `rst` is 1 for a moment -/
  | rst
  deriving DecidableEq, Repr

/-- The environment: none of it is ASCORE's state (R23). -/
structure Env where
  /-- the moves to come; with none left the sequencer moves -/
  turns : List Turn
  /-- format-I beats offered and not yet accepted, first offered first (R80, R82) -/
  source : List (BitVec 33)
  /-- format-O beats the sink has accepted, first accepted first (R84) -/
  sink : List (BitVec 34)
  /-- format-B requests sent, first sent first (R219) -/
  requests : List (BitVec 8 × Ctx)
  /-- the word the last `RD` returned on `h_rdata` (R103) -/
  hRdata : Word
  /-- the index of the next free values (U1, U12; log 4) -/
  draws : Nat
  /-- the number of resets since power-on, which indexes what they leave unspecified (log 2) -/
  epoch : Nat
  deriving DecidableEq, Repr

/-- The whole state. -/
structure State where
  coefs : Coefs
  s1 : Cells
  s2 : Cells
  acc : Word
  pkPow : Word
  pkIdx : Index
  resFreq : Word
  resAmp : Word
  resRms : Word
  ctx : Ctx
  ctxv : Bool
  phase : BitVec 5
  idx : Index
  wptr : Index
  stopf : Bool
  err : BitVec 8
  sampleRate : Word
  log2n : BitVec 5
  flags : BitVec 3
  mem : Buffers
  /-- beats of the present line the sink has accepted (R176, R84; log 10) -/
  sent : Nat
  /-- the backend port (log 11) -/
  fftPort : FftPort
  env : Env
  deriving DecidableEq, Repr

/-- Why the machine stops. -/
inductive Fault where
  /-- Raised by `step` when the word it fetches spells no row of the table: a `PHASE` from 0x12 to 0x1F, which R112 (a)
  leaves stuck, or a malformed word on the backend port. Safe: no state reachable from reset fetches one. -/
  | stuckOn (why : DecodeError)
  /-- Raised by an operation that would access a buffer word that does not exist, because `LOG2N > MAXLOG2` (R70, R52).
  Safe: `VALIDATE` refuses that configuration before any buffer is accessed (R172). -/
  | beyondBuffers
  deriving DecidableEq, Repr

/-- Why an instruction has no meaning. -/
inductive Refusal where
  /-- The arm of `exec` has no meaning yet. Safe. No arm answers it. -/
  | notModelled (mnemonic : String)
  deriving DecidableEq, Repr

/-- The state of ASCORE right after reset, in the environment `env` (R55, R230). What R55 calls unspecified is the
free value of this reset, numbered `env.epoch` (log 2, log 3). -/
def State.resetWith (env : Env) : State where
  coefs :=
    { a0 := Config.resetWord env.epoch .a0
      a1 := Config.resetWord env.epoch .a1
      b0 := Config.resetWord env.epoch .b0
      b1 := Config.resetWord env.epoch .b1
      b2 := Config.resetWord env.epoch .b2 }
  s1 := { x1 := 0#32, x2 := 0#32, y1 := 0#32, y2 := 0#32 }
  s2 := { x1 := 0#32, x2 := 0#32, y1 := 0#32, y2 := 0#32 }
  acc := Config.resetWord env.epoch .acc
  pkPow := Config.resetWord env.epoch .pkPow
  pkIdx := (Config.resetWord env.epoch .pkIdx).setWidth (Config.maxLog2 + 1)
  resFreq := Config.resetWord env.epoch .resFreq
  resAmp := Config.resetWord env.epoch .resAmp
  resRms := Config.resetWord env.epoch .resRms
  ctx := Config.resetCtx env.epoch
  ctxv := false
  phase := Phase.idle
  idx := 0#_
  wptr := 0#_
  stopf := false
  err := 0x00#8
  sampleRate := 8000#32
  log2n := 13#5
  flags := 0b000#3
  mem := { xbuf := [], re := [], im := [], win := [], ftab := [] }
  sent := 0
  fftPort := .idle
  env := env

/-- The environment before anything has happened (log 1, log 14). -/
def Env.initial : Env where
  turns := []
  source := []
  sink := []
  requests := []
  hRdata := 0#32
  draws := 0
  epoch := 0

/-- The machine right after the first reset (R55). -/
def State.reset : State := State.resetWith Env.initial

end Sys2Proof.Machine
end

