-- ==== Sys2Proof/Machine/Flags.lean ====
section
/-! DEFINITION. The one-bit conditions of ASCORE (10_state R42, R43, R46, R50; 20_memory R80, R84; 60_exceptions R214):
the bits of FLAGS, the bits STATUS is made of, and the output pins. There are no arithmetic condition codes (R43). -/

namespace Sys2Proof.Machine

/-- `FLAGS.FREQ`, bit 0 (R50). -/
def State.flagFreq (s : State) : Bool := s.flags.getLsbD 0

/-- `FLAGS.AMP`, bit 1 (R50). -/
def State.flagAmp (s : State) : Bool := s.flags.getLsbD 1

/-- `FLAGS.RMS`, bit 2 (R50). -/
def State.flagRms (s : State) : Bool := s.flags.getLsbD 2

/-- `DONE`, also the pin `done`: exactly when `PHASE = STOPPED` (R43, R214). -/
def State.done (s : State) : Bool := s.phase == Phase.stopped

/-- `FATALF`, also the pin `fatal`: exactly when `PHASE = FATAL` (R43, R214). -/
def State.fatalf (s : State) : Bool := s.phase == Phase.fatal

/-- `STATUS`: bits 4:0 PHASE, 7:5 zero, 8 STOPF, 9 DONE, 10 FATALF, 11 CTXV, 31:12 zero (R46, R180). -/
def State.statusWord (s : State) : Word :=
  0#20 ++ BitVec.ofBool s.ctxv ++ BitVec.ofBool s.fatalf ++ BitVec.ofBool s.done ++ BitVec.ofBool s.stopf ++ 0#3 ++ s.phase

/-- The frame size `N = 1 << LOG2N` (R9, R21, R49). -/
def State.frameSize (s : State) : Nat := 2 ^ s.log2n.toNat

/-- The pin `in_ready`: exactly while `PHASE = LOAD` and `WPTR < N` (R80). -/
def State.inReady (s : State) : Bool := s.phase == Phase.load && decide (s.wptr.toNat < s.frameSize)

end Sys2Proof.Machine
end

