-- ==== Sys2Proof/Machine/Operands.lean ====
section
/-! DEFINITION. How encoded fields become operands (30_encoding R111): the fields of a beat, what a host read returns,
what a host write stores, the packing of a byte stream (20_memory R77), and the beats of a result line. -/

namespace Sys2Proof.Machine

/-! Input beats (R107). -/

/-- `in_short` of a beat. -/
def beatShort (w : BitVec 33) : Bool := w.extractLsb' 32 1 == 1#1

/-- `in_data` of a beat. -/
def beatData (w : BitVec 33) : Word := w.extractLsb' 0 32

/-- Four consecutive bytes of a stream, in stream order, as a sample word (R77). The packing happens outside ASCORE. -/
def packSample (order : ByteOrder) (b0 b1 b2 b3 : BitVec 8) : Word :=
  match order with
  | .little => b3 ++ b2 ++ b1 ++ b0
  | .big => b0 ++ b1 ++ b2 ++ b3

/-! Host registers (R44 to R51, R111, R180, R181). -/

/-- `HostRead(r)`: the word of register `r` (R180). Reserved numbers and `CMD` read as zero (R45, R51). -/
def State.hostRead (s : State) (addr : BitVec 4) : Word :=
  if addr = 0x1#4 then s.statusWord
  else if addr = 0x2#4 then s.err.zeroExtend 32
  else if addr = 0x3#4 then s.sampleRate
  else if addr = 0x4#4 then s.log2n.zeroExtend 32
  else if addr = 0x5#4 then s.flags.zeroExtend 32
  else 0#32

/-- The field a write to `LOG2N` stores: `h_wdata[4:0]` (R111). -/
def log2nField (data : Word) : BitVec 5 := data.extractLsb' 0 5

/-- The field a write to `FLAGS` stores: `h_wdata[2:0]` (R111). -/
def flagsField (data : Word) : BitVec 3 := data.extractLsb' 0 3

/-! Output beats (R108, R176, R186). -/

/-- The beats of the frame's result line, in the order they are sent: a field for each enabled flag, then `EOL`. -/
def State.line (s : State) : List (BitVec 34) :=
  (if s.flagFreq then [outputWord 0b00#2 s.resFreq] else []) ++
  (if s.flagAmp then [outputWord 0b01#2 s.resAmp] else []) ++
  (if s.flagRms then [outputWord 0b10#2 s.resRms] else []) ++
  [outputWord 0b11#2 0#32]

/-- The beat on offer at the output port, none when `out_valid = 0` (R84). -/
def State.offered (s : State) : Option (BitVec 34) := if s.phase = Phase.emit then s.line[s.sent]? else none

/-- The pin `out_valid` (R84). -/
def State.outValid (s : State) : Bool := s.offered.isSome

/-! Backend requests (R109, R111): `fft_log2n = LOG2N`, `fft_inverse = 0`, `fft_ctx = CTX` on every request. -/

/-- The request on the backend port as the table reads it, none when no request waits for its answer. -/
def State.outstanding (s : State) : Option Instr :=
  match s.fftPort with
  | .requested hdr ctx => match decodeBackend hdr ctx with
    | .ok i => some i
    | .error _ => none
  | .idle => none
  | .done _ => none

end Sys2Proof.Machine
end

