-- ==== Sys2Proof/Machine/Ops.lean ====
section
/-! DEFINITION. The operations every meaning shares: buffer access (20_memory R70 to R75, R87), the one write of
`PHASE` (10_state R40, R41), the fatal transfer (60_exceptions R203) and reset (70_reset_and_hazards R230), and the
moves of beats and requests at the ports. -/

namespace Sys2Proof.Machine

/-- What a meaning answers. -/
abbrev Out := Host.Outcome State Fault Refusal

/-! One buffer. -/

/-- The word listed at index `i`, none if nothing has written it since reset. -/
def bufRead (b : Buf) (i : Nat) : Option Word := b.lookup i

/-- Write one word, keeping the indices strictly rising. -/
def bufWrite (i : Nat) (v : Word) : Buf → Buf
  | [] => [(i, v)]
  | (j, w) :: rest =>
    if i < j then (i, v) :: (j, w) :: rest
    else if i = j then (i, v) :: rest
    else (j, w) :: bufWrite i v rest

/-- The cells of consecutive words, the first at index `i`. -/
def frameCells (i : Nat) : List Word → Buf
  | [] => []
  | w :: ws => (i, w) :: frameCells (i + 1) ws

/-- Write words at indices 0, 1, 2, … in ascending order (R87); the words above keep what they held. -/
def bufOverlay (ws : List Word) (b : Buf) : Buf := frameCells 0 ws ++ b.filter (fun c => decide (ws.length ≤ c.1))

/-- The indices of a buffer rise strictly: its canonical form (log 3). -/
def bufWf : Buf → Bool
  | [] => true
  | [_] => true
  | (i, _) :: (j, w) :: rest => decide (i < j) && bufWf ((j, w) :: rest)

/-! The five buffers. -/

def Buffers.get (m : Buffers) : BufId → Buf
  | .xbuf => m.xbuf
  | .re => m.re
  | .im => m.im
  | .win => m.win
  | .ftab => m.ftab

def Buffers.set (m : Buffers) (k : BufId) (b : Buf) : Buffers :=
  match k with
  | .xbuf => { m with xbuf := b }
  | .re => { m with re := b }
  | .im => { m with im := b }
  | .win => { m with win := b }
  | .ftab => { m with ftab := b }

/-- Every buffer is in canonical form. -/
def Buffers.wf (m : Buffers) : Bool := bufWf m.xbuf && bufWf m.re && bufWf m.im && bufWf m.win && bufWf m.ftab

/-- The words `0 .. N-1` of a buffer exist: `LOG2N <= MAXLOG2` (R52, R70). -/
def State.fits (s : State) : Bool := decide (s.log2n.toNat ≤ Config.maxLog2)

/-- `MemRead(BUF[i], 4)`: the word written last, or the free value of this reset (R88, R232). -/
def State.word (s : State) (k : BufId) (i : Nat) : Word :=
  (bufRead (s.mem.get k) i).getD (Config.unwritten s.env.epoch k i)

/-- The words `0 .. n-1` of a buffer, read in ascending order (R87). -/
def State.frame (s : State) (k : BufId) (n : Nat) : List Word := (List.range n).map (s.word k)

/-- `MemWrite(BUF[i], 4, v)`. -/
def State.storeWord (s : State) (k : BufId) (i : Nat) (v : Word) : State :=
  { s with mem := s.mem.set k (bufWrite i v (s.mem.get k)) }

/-- Write words `0, 1, …` of a buffer in ascending order (R87). -/
def State.storeFrame (s : State) (k : BufId) (ws : List Word) : State :=
  { s with mem := s.mem.set k (bufOverlay ws (s.mem.get k)) }

/-- An operation that accesses words `0 .. N-1` of a buffer runs when they exist (log 17). -/
def State.withBuffers (s t : State) : Out := if s.fits then .next t else .fault .beyondBuffers

/-! Free values. -/

/-- The index of a draw of the operation in progress. -/
def State.draw (s : State) (elem slot : Nat) : Draw := { serial := s.env.draws, elem := elem, slot := slot }

/-- Leave the present draws behind, so that the next operation draws anew (log 4). -/
def State.spend (s : State) : State := { s with env := { s.env with draws := s.env.draws + 1 } }

/-! Control transfer. -/

/-- The operations whose pseudocode walks a buffer with `IDX` (R41, R87). -/
def walks (p : BitVec 5) : Bool :=
  p == Phase.wingen || p == Phase.ftgen || p == Phase.rms || p == Phase.bq1 || p == Phase.bq2 || p == Phase.window ||
    p == Phase.fft || p == Phase.peak

/-- `PHASE <- p`, the one way `PHASE` is written, which starts operation `p` (R40): a walking operation sets `IDX` to 0,
`LOAD` sets `WPTR` to 0 (R41), `EMIT` has sent no beat yet (log 8, log 10). -/
def State.enter (s : State) (p : BitVec 5) : State :=
  { s with
    phase := p
    idx := if walks p then 0#_ else s.idx
    wptr := if p = Phase.load then 0#_ else s.wptr
    sent := if p = Phase.emit then 0 else s.sent }

/-- The successor of `LOAD` (R170, R174). -/
def State.afterLoad (s : State) : BitVec 5 :=
  if s.flagRms then Phase.rms else if s.flagFreq then Phase.bq1 else Phase.emit

/-- The successor of `RMS` (R165, R170). -/
def State.afterRms (s : State) : BitVec 5 := if s.flagFreq then Phase.bq1 else Phase.emit

/-- `raise Fatal(code)`: `ERR <- code`, `PHASE <- FATAL`, nothing else (R203). Nothing is saved and nothing returns
from it (R211); the only way out is `State.restart`. -/
def State.raiseFatal (s : State) (code : BitVec 8) : State := { s with err := code }.enter Phase.fatal

/-- What a reset leaves of the environment: the beats on offer at the input port are withdrawn (R233), and the
unspecified values are drawn anew (R55; log 13). -/
def Env.afterReset (e : Env) : Env := { e with source := [], epoch := e.epoch + 1 }

/-- Reset: "the only way out of `STOPPED` and `FATAL`", to the state of R55 (R230, R233). -/
def State.restart (s : State) : State := State.resetWith s.env.afterReset

/-! The ports. -/

/-- The source offers a beat; it waits at the source until `LOAD` takes it (R80, R82). -/
def State.offerBeat (s : State) (beat : BitVec 33) : State :=
  { s with env := { s.env with source := s.env.source ++ [beat] } }

/-- The source's first beat has transferred. -/
def State.dropBeat (s : State) : State := { s with env := { s.env with source := s.env.source.tail } }

/-- The sink accepts the beat `w`: it transfers if it is the beat on offer (R84); otherwise nothing does (log 10). -/
def State.acceptBeat (s : State) (w : BitVec 34) : State :=
  if s.offered = some w then { s with sent := s.sent + 1, env := { s.env with sink := s.env.sink ++ [w] } } else s

/-- ASCORE drives a request on the backend port (R109). -/
def State.request (s : State) (op : BitVec 2) : State :=
  { s with
    fftPort := .requested (backendHdr op s.log2n) s.ctx
    env := { s.env with requests := s.env.requests ++ [(backendHdr op s.log2n, s.ctx)] } }

/-- The backend answers `fft_done`; what `fft_ctx_out` carries is a free value (R109, U12; log 11). -/
def State.answer (s : State) : State := { s with fftPort := .done (Config.ctxAnswer s.env.draws) }.spend

/-- The request is over: the port is quiet again. -/
def State.release (s : State) : State := { s with fftPort := .idle }

end Sys2Proof.Machine
end

