-- ==== Sys2Proof/Machine/Backend.lean ====
section
/-! DEFINITION. The backend's side of its three requests (60_exceptions R215 to R219). It acts on a request that is
outstanding; without one it touches nothing (R94, R218 (d); log 11). -/

namespace Sys2Proof.Machine

/-- `NUM.fft(l, re, im, false)` on the words `0 .. 2^l - 1` (R18, R216), the patterns of NaN results drawn (U1). -/
def fftOutput (s : State) (l : Nat) (k : Nat) : Word × Word :=
  let out := Config.fftBin l (s.frame .re (2 ^ l)) (s.frame .im (2 ^ l)) false k
  (settleNaN (s.draw k 0) out.1, settleNaN (s.draw k 1) out.2)

/-- The backend replaces RE and IM by the transform and answers (R216). -/
def State.transform (s : State) (l : Nat) : State :=
  ((s.storeFrame .re ((List.range (2 ^ l)).map (fun k => (fftOutput s l k).1))).storeFrame .im
    ((List.range (2 ^ l)).map (fun k => (fftOutput s l k).2))).answer

/-- FFT.INIT (R215): the backend answers `fft_done` with a handle. -/
def execReqInit (log2n : BitVec 5) (s : State) : Out :=
  .next (if s.outstanding = some (.reqInit log2n) then s.answer else s)

/-- FFT.APPLY (R216): the backend transforms RE and IM in place and answers. -/
def execReqApply (log2n : BitVec 5) (ctx : Ctx) (s : State) : Out :=
  if s.outstanding = some (.reqApply log2n ctx) then
    (if log2n.toNat ≤ Config.maxLog2 then .next (s.transform log2n.toNat) else .fault .beyondBuffers)
  else .next s

/-- FFT.DESTROY (R217): the backend gives the context up and answers. -/
def execReqDestroy (ctx : Ctx) (s : State) : Out :=
  .next (if s.outstanding = some (.reqDestroy ctx) then s.answer else s)

end Sys2Proof.Machine
end

