-- ==== Sys2Proof/Machine/Biquad.lean ====
section
/-! DEFINITION. biquad_iir_cascade (40_biquad): COEF, BQ1, BQ2 and the filter step BQSTEP. -/

namespace Sys2Proof.Machine

/-- The coefficients of `COEF`, one rounding per line of R130's pseudocode, drawing at `draw 0 slot`. -/
def coefficients (s : State) : Coefs :=
  let w0 := fdiv (s.draw 0 1) (fmul (s.draw 0 0) fTwoPi Config.cutoff) (i2f s.sampleRate.toInt)
  let cw := fcos (s.draw 0 2) w0
  let sw := fsin (s.draw 0 3) w0
  let alpha := fmul (s.draw 0 5) (fdiv (s.draw 0 4) sw fTwo) fSqrt2
  let a0s := fadd (s.draw 0 6) fOne alpha
  let omc := fsub (s.draw 0 7) fOne cw
  let b0 := fdiv (s.draw 0 13) (fdiv (s.draw 0 12) omc fTwo) a0s
  { a0 := fdiv (s.draw 0 9) (fmul (s.draw 0 8) fNegTwo cw) a0s
    a1 := fdiv (s.draw 0 11) (fsub (s.draw 0 10) fOne alpha) a0s
    b0 := b0
    b1 := fdiv (s.draw 0 14) omc a0s
    b2 := b0 }

/-- COEF (R130): compute the coefficients, then WINGEN. -/
def execCoef (s : State) : Out := .next (({ s with coefs := coefficients s }.spend).enter Phase.wingen)

/-- The output `y` of one sample, from the cells before the step (R131): five products and four sums, left to right,
each rounded once (R20; log 18). -/
def bqOut (serial elem : Nat) (c : Coefs) (cells : Cells) (x : Word) : Word :=
  let t1 := fmul ⟨serial, elem, 0⟩ c.b0 x
  let t2 := fadd ⟨serial, elem, 2⟩ t1 (fmul ⟨serial, elem, 1⟩ c.b1 cells.x1)
  let t3 := fadd ⟨serial, elem, 4⟩ t2 (fmul ⟨serial, elem, 3⟩ c.b2 cells.x2)
  let t4 := fsub ⟨serial, elem, 6⟩ t3 (fmul ⟨serial, elem, 5⟩ c.a0 cells.y1)
  fsub ⟨serial, elem, 8⟩ t4 (fmul ⟨serial, elem, 7⟩ c.a1 cells.y2)

/-- The shift of the cells: `S' = (x, S[0], y, S[2])` (R131). -/
def bqShift (cells : Cells) (x y : Word) : Cells := { x1 := x, x2 := cells.x1, y1 := y, y2 := cells.y1 }

/-- BQSTEP over the samples of a frame, the first being sample `elem`: the outputs and the cells after the last. -/
def bqFrame (serial : Nat) (c : Coefs) : (elem : Nat) → Cells → List Word → List Word × Cells
  | _, cells, [] => ([], cells)
  | elem, cells, x :: xs =>
    let y := bqOut serial elem c cells x
    let rest := bqFrame serial c (elem + 1) (bqShift cells x y) xs
    (y :: rest.1, rest.2)

/-- BQ1 (R132): the first instance over the raw frame into RE, then BQ2. -/
def execBq1 (s : State) : Out :=
  let r := bqFrame s.env.draws s.coefs 0 s.s1 (s.frame .xbuf s.frameSize)
  s.withBuffers (({ s with s1 := r.2 }.storeFrame .re r.1).spend.enter Phase.bq2)

/-- BQ2 (R133): the second instance over RE in place, then WINDOW. Word `i` is read before it is written and not
read again, so the frame may be read first. -/
def execBq2 (s : State) : Out :=
  let r := bqFrame s.env.draws s.coefs 0 s.s2 (s.frame .re s.frameSize)
  s.withBuffers (({ s with s2 := r.2 }.storeFrame .re r.1).spend.enter Phase.window)

end Sys2Proof.Machine
end

