-- ==== Sys2Proof/Machine/FftPeak.lean ====
section
/-! DEFINITION. streaming_fft_controller and spectral_peak_detector (42_fft_peak): FTGEN, FFTINIT, FFT, PEAK. -/

namespace Sys2Proof.Machine

/-- Word `i` of the frequency table (R150): `fdiv(fmul(r, i2f(i)), nf)`. -/
def tableWord (serial : Nat) (rate : Int) (n i : Nat) : Word :=
  fdiv ⟨serial, i, 1⟩ (fmul ⟨serial, i, 0⟩ (i2f rate) (i2f i)) (i2f n)

/-- FTGEN (R150): build all `N` words of the table, then FFTINIT. -/
def execFtgen (s : State) : Out :=
  s.withBuffers ((s.storeFrame .ftab ((List.range s.frameSize).map
    (tableWord s.env.draws s.sampleRate.toInt s.frameSize))).spend.enter Phase.fftinit)

/-- FFTINIT (R151): send FFT.INIT; wait for `fft_done`; then `CTX <- fft_ctx_out`, `CTXV <- 1`, CHECK. -/
def execFftinit (s : State) : Out :=
  match s.fftPort with
  | .idle => .next (s.request 0b01#2)
  | .requested _ _ => .next s
  | .done ctxOut => .next (({ s with ctx := ctxOut, ctxv := true }.release).enter Phase.check)

/-- FFT (R152): zero words `0 .. N-1` of IM and send FFT.APPLY; wait for `fft_done`, while the backend writes RE and IM
(R94, `execReqApply`); then PEAK. -/
def execFft (s : State) : Out :=
  match s.fftPort with
  | .idle => s.withBuffers ((s.storeFrame .im (List.replicate s.frameSize fZero)).request 0b10#2)
  | .requested _ _ => .next s
  | .done _ => .next (s.release.enter Phase.peak)

/-- The power of bin `k`: `fadd(fmul(re, re), fmul(im, im))` (R153). -/
def binPower (serial k : Nat) (re im : Word) : Word :=
  fadd ⟨serial, k, 2⟩ (fmul ⟨serial, k, 0⟩ re re) (fmul ⟨serial, k, 1⟩ im im)

/-- The search over the bins from `k` on, with the maximum so far and its index (R153): a bin wins only if its power is
strictly greater. -/
def peakScan (serial : Nat) : (k : Nat) → (pow : Word) → (at_ : Nat) → List (Word × Word) → Word × Nat
  | _, pow, at_, [] => (pow, at_)
  | k, pow, at_, (re, im) :: rest =>
    let p := binPower serial k re im
    if fgt p pow then peakScan serial (k + 1) p k rest else peakScan serial (k + 1) pow at_ rest

/-- PEAK (R153): search bins `0 .. (N >> 1) - 1` from `+0.0` at index 0, look the winner up in FTAB, then EMIT. -/
def execPeak (s : State) : Out :=
  let half := s.frameSize / 2
  let r := peakScan s.env.draws 0 fZero 0 ((s.frame .re half).zip (s.frame .im half))
  let pkIdx : Index := BitVec.ofNat _ r.2
  s.withBuffers
    ({ s with
      pkPow := r.1, pkIdx := pkIdx, resFreq := s.word .ftab pkIdx.toNat, resAmp := r.1 }.spend.enter Phase.emit)

end Sys2Proof.Machine
end

