-- ==== Sys2Proof/Machine/HostBus.lean ====
section
/-! DEFINITION. The host operations (44_pipeline_fsm R180 to R183). -/

namespace Sys2Proof.Machine

/-- `if PHASE = IDLE: PHASE <- VALIDATE` (R182). -/
def State.startRun (s : State) : State := if s.phase = Phase.idle then s.enter Phase.validate else s

/-- `STOPF <- 1` (R183, R206). -/
def State.setStop (s : State) : State := { s with stopf := true }

/-- `HostWrite(r, v)` (R105, R181): a command, a configuration field while `PHASE = IDLE`, or nothing. -/
def State.hostWrite (s : State) (addr : BitVec 4) (data : Word) : State :=
  if addr = 0x0#4 then
    if commandCode data = 0x1#4 then s.startRun
    else if commandCode data = 0x2#4 then s.setStop
    else s
  else if s.phase = Phase.idle then
    if addr = 0x3#4 then { s with sampleRate := data }
    else if addr = 0x4#4 then { s with log2n := log2nField data }
    else if addr = 0x5#4 then { s with flags := flagsField data }
    else s
  else s

/-- START (R182). -/
def execStart (s : State) : Out := .next s.startRun

/-- STOP (R183). -/
def execStop (s : State) : Out := .next s.setStop

/-- WR (R181). -/
def execWr (addr : BitVec 4) (data : Word) (s : State) : Out := .next (s.hostWrite addr data)

/-- RD (R180): `h_rdata` carries the register's word; nothing else changes. -/
def execRd (addr : BitVec 4) (s : State) : Out := .next { s with env := { s.env with hRdata := s.hostRead addr } }

end Sys2Proof.Machine
end

