-- ==== Sys2Proof/Machine/Pins.lean ====
section
/-! DEFINITION. The pin events (60_exceptions R206, 70_reset_and_hazards R230). -/

namespace Sys2Proof.Machine

/-- STOPREQ (R206): a moment at which `stop_req` is 1 sets STOPF, in every phase. -/
def execStopreq (s : State) : Out := .next { s with stopf := true }

/-- RESET (R230, R233): the state of R55; the run is abandoned where it stands. -/
def execReset (s : State) : Out := .next s.restart

end Sys2Proof.Machine
end

