-- ==== Sys2Proof/Machine/Rms.lean ====
section
/-! DEFINITION. rms_amplitude_unit (43_rms): RMS. -/

namespace Sys2Proof.Machine

/-- `ACC <- fadd(ACC, fmul(x, x))` over the samples in ascending order, the first being sample `i` (R165). Each sum
is rounded, so a constant frame need not give its amplitude back where R167 says it does (DEDUCED; log 25). -/
def sumSquares (serial : Nat) : (i : Nat) → (acc : Word) → List Word → Word
  | _, acc, [] => acc
  | i, acc, x :: xs => sumSquares serial (i + 1) (fadd ⟨serial, i, 1⟩ acc (fmul ⟨serial, i, 0⟩ x x)) xs

/-- `fsqrt(fdiv(ACC, i2f(N)))` (R165); its draws stand at an element above every sample's. -/
def rootMean (serial n : Nat) (acc : Word) : Word := fsqrt ⟨serial, n, 1⟩ (fdiv ⟨serial, n, 0⟩ acc (i2f n))

/-- RMS (R165): the root of the mean square of the raw frame, then BQ1 or EMIT. -/
def execRms (s : State) : Out :=
  let acc := sumSquares s.env.draws 0 fZero (s.frame .xbuf s.frameSize)
  s.withBuffers
    ({ s with acc := acc, resRms := rootMean s.env.draws s.frameSize acc }.spend.enter s.afterRms)

end Sys2Proof.Machine
end

