-- ==== Sys2Proof/Machine/Sequencer.lean ====
section
/-! DEFINITION. frame_processor_fsm (44_pipeline_fsm): the sequencer's own phase operations. -/

namespace Sys2Proof.Machine

/-- IDLE (R171): wait. The START command itself leaves IDLE (`execStart`). -/
def execIdle (s : State) : Out := .next s

/-- VALIDATE (R172): amplitude without frequency is fatal error 0x01; else LOG2N out of `1 .. MAXLOG2` is fatal error
0x02; else COEF. -/
def execValidate (s : State) : Out :=
  .next
    (if s.flagAmp && !s.flagFreq then s.raiseFatal 0x01#8
    else if s.log2n.toNat = 0 ∨ Config.maxLog2 < s.log2n.toNat then s.raiseFatal 0x02#8
    else s.enter Phase.coef)

/-- CHECK (R173, R209): the one place where STOPF is read. -/
def execCheck (s : State) : Out := .next (if s.stopf then s.enter Phase.stopping else s.enter Phase.load)

/-- What follows a stored sample: the next beat, or the successor of LOAD once `WPTR = N` (R174). -/
def State.loadNext (s : State) : State := if s.wptr.toNat < s.frameSize then s else s.enter s.afterLoad

/-- LOAD (R174), one beat at a time (R88): while `WPTR < N`, wait for a beat; a SHORT beat ends it, a SAMPLE beat is
stored at `XBUF[WPTR]` and counted (R80, R81). -/
def execLoad (s : State) : Out :=
  if s.wptr.toNat < s.frameSize then
    match s.env.source with
    | [] => .next s
    | beat :: _ =>
      if beatShort beat then .next (s.dropBeat.enter s.afterLoad)
      else
        s.withBuffers
          (State.loadNext { s.dropBeat.storeWord .xbuf s.wptr.toNat (beatData beat) with wptr := s.wptr + 1#_ })
  else .next (s.enter s.afterLoad)

/-- EMIT (R176): the beats of the line are offered one after the other (`State.offered`) and each is held until the
sink accepts it (R84); after the last, CHECK. -/
def execEmit (s : State) : Out := .next (if s.sent < s.line.length then s else s.enter Phase.check)

/-- STOPPING (R177): send FFT.DESTROY; wait for `fft_done`; then `CTXV <- 0`, STOPPED. -/
def execStopping (s : State) : Out :=
  match s.fftPort with
  | .idle => .next (s.request 0b11#2)
  | .requested _ _ => .next s
  | .done _ => .next (({ s with ctxv := false }.release).enter Phase.stopped)

/-- STOPPED (R178): terminal, no further step. -/
def execStopped (s : State) : Out := .next s

/-- FATAL (R179): terminal, no further step. -/
def execFatal (s : State) : Out := .next s

end Sys2Proof.Machine
end

