-- ==== Sys2Proof/Machine/Streams.lean ====
section
/-! DEFINITION. The beats of the two streams (20_memory R80 to R84, 44_pipeline_fsm R186). -/

namespace Sys2Proof.Machine

/-- SAMPLE (R80, R107): the source offers a sample beat. -/
def execSample (data : Word) (s : State) : Out := .next (s.offerBeat (inputWord 0#1 data))

/-- SHORT (R81, R107): the source offers a beat without a sample; its data is ignored. -/
def execShort (s : State) : Out := .next (s.offerBeat (inputWord 1#1 0#32))

/-- FREQ (R108, R186): the frequency field transfers to the sink. -/
def execFreq (data : Word) (s : State) : Out := .next (s.acceptBeat (outputWord 0b00#2 data))

/-- AMP (R108, R186): the amplitude field transfers to the sink. -/
def execAmp (data : Word) (s : State) : Out := .next (s.acceptBeat (outputWord 0b01#2 data))

/-- RMSV (R108, R186): the rms field transfers to the sink. -/
def execRmsv (data : Word) (s : State) : Out := .next (s.acceptBeat (outputWord 0b10#2 data))

/-- EOL (R108, R186): the end of the line transfers to the sink. -/
def execEol (s : State) : Out := .next (s.acceptBeat (outputWord 0b11#2 0#32))

end Sys2Proof.Machine
end

