-- ==== Sys2Proof/Machine/Window.lean ====
section
/-! DEFINITION. hann_window_function (41_window): WINGEN, WINDOW. -/

namespace Sys2Proof.Machine

/-- Word `i` of the Hann window (R140): `fmul(HALF, fsub(ONE, NUM.cos(fdiv(fmul(TWO_PI, i2f(i)), den))))`. -/
def windowWord (serial n i : Nat) : Word :=
  let arg := fdiv ⟨serial, i, 1⟩ (fmul ⟨serial, i, 0⟩ fTwoPi (i2f i)) (i2f ((n - 1 : Nat) : Int))
  fmul ⟨serial, i, 4⟩ fHalf (fsub ⟨serial, i, 3⟩ fOne (fcos ⟨serial, i, 2⟩ arg))

/-- WINGEN (R140): build the window, then FTGEN. -/
def execWingen (s : State) : Out :=
  s.withBuffers ((s.storeFrame .win ((List.range s.frameSize).map (windowWord s.env.draws s.frameSize))).spend.enter
    Phase.ftgen)

/-- WINDOW (R141): multiply word `i` of RE by word `i` of WIN, in place, then FFT. -/
def execWindow (s : State) : Out :=
  s.withBuffers ((s.storeFrame .re ((List.range s.frameSize).map
    (fun i => fmul (s.draw i 0) (s.word .re i) (s.word .win i)))).spend.enter Phase.fft)

end Sys2Proof.Machine
end

