-- ==== Sys2Proof/Machine/Dispatch.lean ====
section
/-! DEFINITION. One arm per row of spec/opcode_table.json. -/

namespace Sys2Proof.Machine

def exec (i : Instr) (s : State) : Host.Outcome State Fault Refusal :=
  match i with
  | .idle => Sys2Proof.Machine.execIdle s
  | .validate => Sys2Proof.Machine.execValidate s
  | .coef => Sys2Proof.Machine.execCoef s
  | .wingen => Sys2Proof.Machine.execWingen s
  | .ftgen => Sys2Proof.Machine.execFtgen s
  | .fftinit => Sys2Proof.Machine.execFftinit s
  | .check => Sys2Proof.Machine.execCheck s
  | .load => Sys2Proof.Machine.execLoad s
  | .rms => Sys2Proof.Machine.execRms s
  | .bq1 => Sys2Proof.Machine.execBq1 s
  | .bq2 => Sys2Proof.Machine.execBq2 s
  | .window => Sys2Proof.Machine.execWindow s
  | .fft => Sys2Proof.Machine.execFft s
  | .peak => Sys2Proof.Machine.execPeak s
  | .emit => Sys2Proof.Machine.execEmit s
  | .stopping => Sys2Proof.Machine.execStopping s
  | .stopped => Sys2Proof.Machine.execStopped s
  | .fatal => Sys2Proof.Machine.execFatal s
  | .start => Sys2Proof.Machine.execStart s
  | .stop => Sys2Proof.Machine.execStop s
  | .wr addr data => Sys2Proof.Machine.execWr addr data s
  | .rd addr => Sys2Proof.Machine.execRd addr s
  | .sample data => Sys2Proof.Machine.execSample data s
  | .short => Sys2Proof.Machine.execShort s
  | .freq data => Sys2Proof.Machine.execFreq data s
  | .amp data => Sys2Proof.Machine.execAmp data s
  | .rmsv data => Sys2Proof.Machine.execRmsv data s
  | .eol => Sys2Proof.Machine.execEol s
  | .reqInit log2n => Sys2Proof.Machine.execReqInit log2n s
  | .reqApply log2n ctx => Sys2Proof.Machine.execReqApply log2n ctx s
  | .reqDestroy ctx => Sys2Proof.Machine.execReqDestroy ctx s
  | .stopreq => Sys2Proof.Machine.execStopreq s
  | .reset => Sys2Proof.Machine.execReset s

end Sys2Proof.Machine
end

