-- ==== Sys2Proof/Machine/Fetch.lean ====
section
/-! DEFINITION. Where the next move comes from: the turn at the head of the environment's list says which agent moves
(00_scope R22; log 1), and its word stands in PHASE (R101), in the turn itself, or at the port ASCORE drives
(R108, R109). -/

namespace Sys2Proof.Machine

/-- The word of the next move; none when the sink or the backend is ready and ASCORE drives nothing. With no turn left
the sequencer moves. -/
def State.fetch (s : State) : Option Raw :=
  match s.env.turns with
  | [] => some (.phase s.phase)
  | .sequencer :: _ => some (.phase s.phase)
  | .host w :: _ => some (.host w)
  | .source w :: _ => some (.input w)
  | .sink :: _ => s.offered.map .output
  | .backend :: _ =>
    match s.fftPort with
    | .requested hdr ctx => some (.backend hdr ctx)
    | .idle => none
    | .done _ => none
  | .stopReq :: _ => some (.stopPin 1#1)
  | .rst :: _ => some (.rstPin 1#1)

/-- The turn is taken. -/
def State.nextTurn (s : State) : State := { s with env := { s.env with turns := s.env.turns.tail } }

/-- Put a turn before all others. -/
def State.pushTurn (s : State) (t : Turn) : State := { s with env := { s.env with turns := t :: s.env.turns } }

/-- Make the output port offer the beat `w`: EMIT is about to send it as the first beat of a line that holds, beside
`EOL`, at most its field and those before it (log 15). -/
def State.placeOutput (s : State) (w : BitVec 34) : State :=
  let kind : BitVec 2 := w.extractLsb' 32 2
  let data : Word := w.extractLsb' 0 32
  if kind = 0b00#2 then { s with phase := Phase.emit, sent := 0, flags := 0b001#3, resFreq := data }
  else if kind = 0b01#2 then { s with phase := Phase.emit, sent := 1, flags := 0b011#3, resAmp := data }
  else if kind = 0b10#2 then { s with phase := Phase.emit, sent := 0, flags := 0b100#3, resRms := data }
  else { s with phase := Phase.emit, sent := 0, flags := 0b000#3 }

/-- Store a word where the next step fetches it, with the turn that fetches it (log 15). -/
def State.place (s : State) (r : Raw) : State :=
  match r with
  | .phase code => { s with phase := code }.pushTurn .sequencer
  | .host w => s.pushTurn (.host w)
  | .input w => s.pushTurn (.source w)
  | .output w => (s.placeOutput w).pushTurn .sink
  | .backend hdr ctx => { s with fftPort := .requested hdr ctx }.pushTurn .backend
  | .stopPin level => if level = 1#1 then s.pushTurn .stopReq else s
  | .rstPin level => if level = 1#1 then s.pushTurn .rst else s

end Sys2Proof.Machine
end

