-- ==== Sys2Proof/Machine/Step.lean ====
section
/-! DEFINITION. One step: take the next turn, decode its word, run it (log 1). -/

namespace Sys2Proof.Machine

/-- One move of one agent. A ready sink or backend that ASCORE offers nothing passes its turn; a word that spells no
row leaves the machine stuck (R112 (a); log 16). -/
def step (s : State) : Host.Outcome State Fault Refusal :=
  match s.fetch with
  | none => .next s.nextTurn
  | some raw =>
    match decode raw with
    | .ok i => exec i s.nextTurn
    | .error why => .fault (.stuckOn why)

/-- The state whose next step fetches the table word `w` of `nbits` bits (log 15). -/
def State.withFetchWord (s : State) (nbits w : Nat) : State := s.place (tableRaw nbits w)

end Sys2Proof.Machine
end

