-- ==== Sys2Proof/Machine/Properties.lean ====
section
/-! DEFINITION. Correct rounding as a relation between a real number and a word (00_scope R14), and the named properties
that a claim may assume of the parameter functions (R17, R18). No meaning uses this file; claims do. -/

namespace Sys2Proof.Machine

/-- The magnitude, in units of 2^-149, from which rounding goes to infinity: the midpoint between the largest finite
value and 2^128 (R14: "when the rounded magnitude is `2^128` or more"). -/
def overflowUnits : Nat := (2 ^ 25 - 1) * 2 ^ 252

/-- `w` is the real number `x`, in units of 2^-149, rounded to the nearest binary32 value, ties to the even fraction,
overflow to infinity of the sign of `x` (R14). -/
def RoundsTo (x : ℝ) (w : Word) : Prop :=
  ((overflowUnits : ℝ) ≤ x → w = infWord false) ∧
  (x ≤ -(overflowUnits : ℝ) → w = infWord true) ∧
  (|x| < (overflowUnits : ℝ) →
    isFinite w = true ∧
    ∀ v : Word, isFinite v = true →
      |x - (valUnits w : ℝ)| < |x - (valUnits v : ℝ)| ∨
      (|x - (valUnits w : ℝ)| = |x - (valUnits v : ℝ)| ∧ (valUnits v = valUnits w ∨ fracField w % 2 = 0)))

/-- The value a word that is no NaN stands for, in units of 2^-149, the infinities beyond every integer (R13). -/
def extendedValue (w : Word) : WithBot (WithTop Int) :=
  if isInf w then (if signBit w then ⊥ else ((⊤ : WithTop Int) : WithBot (WithTop Int)))
  else ((valUnits w : WithTop Int) : WithBot (WithTop Int))

/-- `P-COS0` (R17). -/
def PCos0 : Prop := Config.cos 0x00000000#32 = 0x3F800000#32

/-- `P-SIN0` (R17). -/
def PSin0 : Prop := Config.sin 0x00000000#32 = 0x00000000#32

/-- `P-COS2PI` (R17): 1.0 for every operand within 4 units in the last place of `0x40C90FDB`. -/
def PCos2Pi : Prop :=
  ∀ a : Word, 0x40C90FD7 ≤ a.toNat → a.toNat ≤ 0x40C90FDF → Config.cos a = 0x3F800000#32

/-- `P-RANGE` (R17): a finite operand gives a result in `[-1, 1]`. -/
def PRange : Prop :=
  ∀ a : Word, isFinite a = true →
    isFinite (Config.cos a) = true ∧ magUnits (Config.cos a) ≤ 2 ^ 149 ∧
    isFinite (Config.sin a) = true ∧ magUnits (Config.sin a) ≤ 2 ^ 149

/-- `P-NAN` (R17): a NaN or infinite operand gives a NaN. -/
def PNan : Prop := ∀ a : Word, isFinite a = false → isNaN (Config.cos a) = true ∧ isNaN (Config.sin a) = true

/-- `P-CR` (R17): the result is the exact cosine or sine rounded to nearest. -/
def PCr : Prop :=
  ∀ (a : Word) (x : ℝ), isFinite a = true → x * 2 ^ 149 = (valUnits a : ℝ) →
    RoundsTo (Real.cos x * 2 ^ 149) (Config.cos a) ∧ RoundsTo (Real.sin x * 2 ^ 149) (Config.sin a)

/-- Two sequences of `2^l` words, as `NUM.fft` takes them (R18). -/
def fftOperands (l : Nat) (re im : List Word) : Prop := re.length = 2 ^ l ∧ im.length = 2 ^ l

/-- `P-FFT-ZERO` (R18): a transform of zeros gives zeros, of either sign. -/
def PFftZero : Prop :=
  ∀ (l : Nat) (re im : List Word) (inverse : Bool), fftOperands l re im →
    (∀ w ∈ re, isZero w = true) → (∀ w ∈ im, isZero w = true) →
    ∀ k : Nat, k < 2 ^ l → isZero (Config.fftBin l re im inverse k).1 = true ∧ isZero (Config.fftBin l re im inverse k).2 = true

/-- `P-FFT-DFT` (R18): on a real frame, output bin `k` approximates the sum over `n` of `re[n] exp(-+ 2 pi j k n / N)` up to
a positive factor common to all bins of a size. The spec says neither the sign nor the factor nor how close: they are
arguments, `sign` being 1 or -1 and `tol` a bound on the error of each part, in units of 2^-149; where the exact part with
its error could overflow nothing is said (log 24). -/
def PFftDft (sign : ℝ) (scale : (l : Nat) → ℝ) (tol : (l : Nat) → (re : List Word) → ℝ) : Prop :=
  (sign = 1 ∨ sign = -1) ∧ (∀ l : Nat, 0 < scale l) ∧
  ∀ (l : Nat) (re im : List Word), fftOperands l re im →
    (∀ w ∈ re, isFinite w = true) → (∀ w ∈ im, isZero w = true) →
    ∀ (k : Nat) (x y : ℝ), k < 2 ^ l →
      x = scale l * ∑ n ∈ Finset.range (2 ^ l),
        (valUnits (re.getD n 0#32) : ℝ) * Real.cos (2 * Real.pi * k * n / 2 ^ l) →
      y = scale l * ∑ n ∈ Finset.range (2 ^ l),
        (valUnits (re.getD n 0#32) : ℝ) * (sign * Real.sin (2 * Real.pi * k * n / 2 ^ l)) →
      (|x| + tol l re < overflowUnits → isFinite (Config.fftBin l re im false k).1 = true ∧
        |(valUnits (Config.fftBin l re im false k).1 : ℝ) - x| ≤ tol l re) ∧
      (|y| + tol l re < overflowUnits → isFinite (Config.fftBin l re im false k).2 = true ∧
        |(valUnits (Config.fftBin l re im false k).2 : ℝ) - y| ≤ tol l re)

/-- `P-FFT-CRDFT` (R18): output word `k` is the exact sum over `n` of `(re[n] + j im[n]) exp(-2 pi j k n / N)`, each part
rounded once. "No backend is promised to satisfy" it. -/
def PFftCrdft : Prop :=
  ∀ (l : Nat) (re im : List Word), fftOperands l re im →
    (∀ w ∈ re, isFinite w = true) → (∀ w ∈ im, isFinite w = true) →
    ∀ k : Nat, k < 2 ^ l →
      RoundsTo (∑ n ∈ Finset.range (2 ^ l),
        ((valUnits (re.getD n 0#32) : ℝ) * Real.cos (2 * Real.pi * k * n / 2 ^ l) +
          (valUnits (im.getD n 0#32) : ℝ) * Real.sin (2 * Real.pi * k * n / 2 ^ l)))
        (Config.fftBin l re im false k).1 ∧
      RoundsTo (∑ n ∈ Finset.range (2 ^ l),
        ((valUnits (im.getD n 0#32) : ℝ) * Real.cos (2 * Real.pi * k * n / 2 ^ l) -
          (valUnits (re.getD n 0#32) : ℝ) * Real.sin (2 * Real.pi * k * n / 2 ^ l)))
        (Config.fftBin l re im false k).2

end Sys2Proof.Machine
end

