-- ==== Sys2Proof/Safety.lean ====
section
/-! DEFINITION. What counts as a safe run of ASCORE, in the terms the claims use: the invariant of every state that can
be reached from reset, the document's two states, the end of a run, and one frame of samples. -/

namespace Sys2Proof.Machine

/-- The run has ended (00_scope R24). -/
def State.terminal (s : State) : Prop := s.phase = Phase.stopped ∨ s.phase = Phase.fatal

/-- The document's state RUNNING: `CHECK` to `EMIT` (R184). -/
def State.running (s : State) : Prop := 0x06 ≤ s.phase.toNat ∧ s.phase.toNat ≤ 0x0E

/-- The configuration `VALIDATE` lets pass (R172). -/
def State.validConfig (s : State) : Prop :=
  (s.flagAmp = true → s.flagFreq = true) ∧ 1 ≤ s.log2n.toNat ∧ s.log2n.toNat ≤ Config.maxLog2

/-- The same three configuration registers (R175). -/
def State.sameConfig (s t : State) : Prop :=
  t.sampleRate = s.sampleRate ∧ t.log2n = s.log2n ∧ t.flags = s.flags

/-- `rst` is 1 at the next move. -/
def State.resetNext (s : State) : Prop := s.env.turns.head? = some .rst

/-- The operation code of the request the operation in `PHASE` sends (R151, R152, R177). -/
def State.requestOp (s : State) : BitVec 2 :=
  if s.phase = Phase.fftinit then 0b01#2 else if s.phase = Phase.fft then 0b10#2 else 0b11#2

/-- What holds in every state reached from reset, by the rules named beside each field. -/
structure State.Inv (s : State) : Prop where
  /-- `PHASE` holds one of the eighteen codes (R40) -/
  phase_legal : s.phase.toNat ≤ 0x11
  /-- every buffer is in canonical form (log 3) -/
  mem_wf : s.mem.wf = true
  /-- only words that exist have been written (R70) -/
  mem_inside : ∀ k c, c ∈ s.mem.get k → c.1 < 2 ^ Config.maxLog2
  /-- from `COEF` to `STOPPED` the configuration is one `VALIDATE` let pass (R170, R172, R175) -/
  config_valid : 0x02 ≤ s.phase.toNat → s.phase.toNat ≤ 0x10 → s.validConfig
  /-- the context is live from `CHECK` to `STOPPING` and nowhere else (R38, R151, R177) -/
  ctx_live : s.ctxv = true ↔ 0x06 ≤ s.phase.toNat ∧ s.phase.toNat ≤ 0x0F
  /-- `ERR` is non-zero exactly in `FATAL` (R47) -/
  err_fatal : s.err ≠ 0x00#8 ↔ s.phase = Phase.fatal
  /-- and then names its cause (R201) -/
  err_cause : s.phase = Phase.fatal →
    (s.err = 0x01#8 ∧ s.flagAmp = true ∧ s.flagFreq = false) ∨
    (s.err = 0x02#8 ∧ (s.log2n.toNat = 0 ∨ Config.maxLog2 < s.log2n.toNat))
  /-- a stop was requested before it was taken (R209) -/
  stop_taken : s.phase = Phase.stopping ∨ s.phase = Phase.stopped → s.stopf = true
  /-- a request waits only in the operation that sent it (R151, R152, R177) -/
  port_quiet : s.fftPort ≠ .idle → s.phase = Phase.fftinit ∨ s.phase = Phase.fft ∨ s.phase = Phase.stopping
  /-- and is the request of that operation (R111) -/
  port_word : ∀ hdr ctx, s.fftPort = .requested hdr ctx → hdr = backendHdr s.requestOp s.log2n ∧ ctx = s.ctx
  /-- while `LOAD` runs, `WPTR < N` (R80, R174) -/
  loading : s.phase = Phase.load → s.wptr.toNat < s.frameSize
  /-- `WPTR` counts at most the depth of the buffers, so it never wraps (R21, R41) -/
  wptr_bound : s.wptr.toNat ≤ 2 ^ Config.maxLog2
  /-- no operation is caught in the middle of its walk (R41; log 8) -/
  idx_zero : s.idx = 0#_
  /-- after `PEAK`, `PKIDX` is a bin of the lower half (R75, R153) -/
  pkIdx_bound : s.phase = Phase.emit → s.flagFreq = true → s.pkIdx.toNat < s.frameSize / 2
  /-- `EMIT` has sent at most its line (R186) -/
  line_bound : s.phase = Phase.emit → s.sent ≤ s.line.length
  /-- the frequency pipeline runs only with `FLAGS.FREQ = 1` (R132, R152, R153) -/
  freq_path : 0x09 ≤ s.phase.toNat → s.phase.toNat ≤ 0x0D → s.flagFreq = true
  /-- `RMS` runs only with `FLAGS.RMS = 1` (R165) -/
  rms_path : s.phase = Phase.rms → s.flagRms = true

/-- The sequencer moves next: no turn is left, or the head is its own. -/
def State.sequencerNext (s : State) : Prop := s.env.turns = [] ∨ s.env.turns.head? = some .sequencer

/-- `k` steps of the machine, none if it stops. -/
def steps (k : Nat) (s : State) : Option State :=
  match Host.Core.run core k s with
  | .next t => some t
  | .fault _ => none
  | .refused _ => none

/-- The two filter instances run sample by sample instead of frame by frame (40_biquad R134), with the draws each would
have had: a design to compare ASCORE's cascade with. -/
def interleavedCascade (serial1 serial2 : Nat) (c : Coefs) : (elem : Nat) → Cells → Cells → List Word →
    List Word × Cells × Cells
  | _, c1, c2, [] => ([], c1, c2)
  | elem, c1, c2, x :: xs =>
    let y1 := bqOut serial1 elem c c1 x
    let y2 := bqOut serial2 elem c c2 y1
    let rest := interleavedCascade serial1 serial2 c (elem + 1) (bqShift c1 x y1) (bqShift c2 y1 y2) xs
    (y2 :: rest.1, rest.2)

/-- The changes of `PHASE` that the sequencer's operations make: the table of 44_pipeline_fsm R170 without its waits; the
step out of `IDLE` is the host's START. -/
def successors : List (BitVec 5 × BitVec 5) :=
  [(Phase.validate, Phase.fatal), (Phase.validate, Phase.coef), (Phase.coef, Phase.wingen), (Phase.wingen, Phase.ftgen),
    (Phase.ftgen, Phase.fftinit), (Phase.fftinit, Phase.check), (Phase.check, Phase.stopping), (Phase.check, Phase.load),
    (Phase.load, Phase.rms), (Phase.load, Phase.bq1), (Phase.load, Phase.emit), (Phase.rms, Phase.bq1),
    (Phase.rms, Phase.emit), (Phase.bq1, Phase.bq2), (Phase.bq2, Phase.window), (Phase.window, Phase.fft),
    (Phase.fft, Phase.peak), (Phase.peak, Phase.emit), (Phase.emit, Phase.check), (Phase.stopping, Phase.stopped)]

/-- Every word but those `written` names reads as before. -/
def State.keepsWords (s t : State) (written : BufId → Nat → Prop) : Prop :=
  ∀ k i, ¬ written k i → t.word k i = s.word k i

/-- The power of bin `k` of the spectrum in RE and IM, as PEAK computes it now (42_fft_peak R153). -/
def State.power (s : State) (k : Nat) : Word := binPower s.env.draws k (s.word .re k) (s.word .im k)

/-- What ASCORE cannot read back: the beats the sink has, the requests the backend has, the word the host has. -/
def State.forget (s : State) : State := { s with env := { s.env with sink := [], requests := [], hRdata := 0#32 } }

end Sys2Proof.Machine
end

