-- ==== Sys2Proof/Certificates/Slice0/Obligations.lean ====
section
/-! DEFINITION. The statements for the provers. "Completes" means that `exec` answers a next state; a statement that
gives that state whole (`s` with some fields replaced) is its frame as well, and where memory changes the frame is said
through `State.keepsWords`, the model's read of one word of one buffer. -/

open Sys2Proof Sys2Proof.Machine

/-! Encoding. -/

/-- 30_encoding R100 to R110: the word of a well-formed instruction spells that instruction. -/
def Obligations.DecodeOfEncode : Prop :=
  ∀ i : Instr, i.wellFormed = true → decode (encode i) = .ok i

/-- R100, R103, R107, R109, R112: what a word spells is well formed and of the word's format, and every bit that its row
does not ignore is as the row and the operands say: the rows that ignore no bit are spelled by `encode i` alone, and for
START, STOP, RD, SHORT, FFT.INIT and FFT.DESTROY the bits they do not ignore are given. `fft_op = 00`, `fft_inverse = 1` on
FFT.INIT and FFT.APPLY, an EOL with data and a pin at 0 spell no row; the names of these refusals are the model's (log 16). -/
def Obligations.EncodeOfDecode : Prop :=
  (∀ (raw : Raw) (i : Instr), decode raw = .ok i →
    i.wellFormed = true ∧ (encode i).format = raw.format ∧
    match i with
    | .start => ∃ w : BitVec 37, raw = .host w ∧ w.extractLsb' 32 5 = 0b10000#5 ∧ w.extractLsb' 0 4 = 0x1#4
    | .stop => ∃ w : BitVec 37, raw = .host w ∧ w.extractLsb' 32 5 = 0b10000#5 ∧ w.extractLsb' 0 4 = 0x2#4
    | .rd addr => ∃ w : BitVec 37, raw = .host w ∧ w.extractLsb' 36 1 = 0#1 ∧ w.extractLsb' 32 4 = addr
    | .short => ∃ w : BitVec 33, raw = .input w ∧ w.extractLsb' 32 1 = 1#1
    | .reqInit log2n => ∃ ctx : Ctx, raw = .backend (0b01#2 ++ log2n ++ 0#1) ctx
    | .reqDestroy ctx => ∃ hdr : BitVec 8, raw = .backend hdr ctx ∧ hdr.extractLsb' 6 2 = 0b11#2
    | _ => encode i = raw) ∧
  (∀ (hdr : BitVec 8) (ctx : Ctx), hdr.extractLsb' 6 2 = 0b00#2 → decode (.backend hdr ctx) = .error .noRequest) ∧
  (∀ (hdr : BitVec 8) (ctx : Ctx), hdr.extractLsb' 6 2 = 0b01#2 ∨ hdr.extractLsb' 6 2 = 0b10#2 →
    hdr.extractLsb' 0 1 = 1#1 → decode (.backend hdr ctx) = .error .inverseRequest) ∧
  (∀ w : BitVec 34, w.extractLsb' 32 2 = 0b11#2 → w.extractLsb' 0 32 ≠ 0#32 → decode (.output w) = .error .eolWithData) ∧
  decode (.stopPin 0#1) = .error .pinLow ∧ decode (.rstPin 0#1) = .error .pinLow

/-- R102, R103, R107, R108, R109: words written out from the tables, one or more of each format. -/
def Obligations.TableWordsDecode : Prop :=
  decode (.phase 0b00010#5) = .ok .coef ∧
  decode (.phase 0b01101#5) = .ok .peak ∧
  decode (.phase 0b10001#5) = .ok .fatal ∧
  decode (.host 0b1000000000000000000000000000000000001#37) = .ok .start ∧
  decode (.host 0b1010000000000000000000000000000000011#37) = .ok (.wr 0x4#4 0x00000003#32) ∧
  decode (.host 0b0000111111111111111111111111111111111#37) = .ok (.rd 0x1#4) ∧
  decode (.input 0b000111111100000000000000000000000#33) = .ok (.sample 0x3F800000#32) ∧
  decode (.output 0b1001000000001000000000000000000000#34) = .ok (.rmsv 0x40200000#32) ∧
  decodeBackend 0b01011010#8 0#_ = .ok (.reqInit 13#5)

/-! The step and reset. -/

/-- R22, R110: whatever agent moves next, the step runs the instruction its word spells, with the turn taken; the word
stands in `PHASE`, on the agent's port or at the pin. A `PHASE` of 0x12 to 0x1F gives the sequencer no step (R112 (a)): it is stuck
under a name of its own. -/
def Obligations.StepRunsDecoded : Prop :=
  (∀ (s : State) (raw : Raw) (i : Instr), s.fetch = some raw → decode raw = .ok i → step s = exec i s.nextTurn) ∧
  (∀ s : State, s.sequencerNext → s.fetch = some (.phase s.phase)) ∧
  (∀ (s : State) (w : BitVec 37), s.env.turns.head? = some (.host w) → s.fetch = some (.host w)) ∧
  (∀ (s : State) (w : BitVec 33), s.env.turns.head? = some (.source w) → s.fetch = some (.input w)) ∧
  (∀ s : State, s.env.turns.head? = some .sink → s.fetch = s.offered.map .output) ∧
  (∀ (s : State) (hdr : BitVec 8) (ctx : Ctx), s.env.turns.head? = some .backend →
    s.fftPort = .requested hdr ctx → s.fetch = some (.backend hdr ctx)) ∧
  (∀ s : State, s.env.turns.head? = some .stopReq → s.fetch = some (.stopPin 1#1)) ∧
  (∀ s : State, s.env.turns.head? = some .rst → s.fetch = some (.rstPin 1#1)) ∧
  (∀ s : State, s.sequencerNext → 0x12 ≤ s.phase.toNat → step s = .fault (.stuckOn .reservedPhase))

/-- 10_state R55, 70_reset_and_hazards R230, R233: `RESET` completes in every state with the values of R55, as power-on
does (`State.reset`); beats on offer are withdrawn, and what the sink and the backend had they keep (log 13). What R55
calls unspecified is left to the model's free values (log 2, log 3) and not stated. -/
def Obligations.ResetValues : Prop :=
  (∀ s : State, exec .reset s = .next (State.resetWith { s.env with source := [], epoch := s.env.epoch + 1 })) ∧
  State.reset = State.resetWith Env.initial ∧
  ∀ (e : Env) (t : State), t = State.resetWith e →
    t.phase = 0x00#5 ∧ t.idx = 0#_ ∧ t.wptr = 0#_ ∧ t.stopf = false ∧ t.ctxv = false ∧ t.err = 0x00#8 ∧
    t.sampleRate = 8000#32 ∧ t.log2n = 13#5 ∧ t.flags = 0#3 ∧
    t.s1 = { x1 := 0#32, x2 := 0#32, y1 := 0#32, y2 := 0#32 } ∧
    t.s2 = { x1 := 0#32, x2 := 0#32, y1 := 0#32, y2 := 0#32 } ∧
    t.statusWord = 0x00000000#32 ∧ t.done = false ∧ t.fatalf = false ∧ t.inReady = false ∧ t.outValid = false ∧
    t.fftPort = .idle ∧ t.env = e

/-- The invariant of Safety.lean holds after every reset. -/
def Obligations.ResetMeetsInvariant : Prop :=
  State.reset.Inv ∧ ∀ env : Env, (State.resetWith env).Inv

/-! Rules of the whole machine. -/

/-- Every step of every agent keeps the invariant of Safety.lean, whose fields name the rules they state: the eighteen
phase codes (R40), the buffers' bounds (R70), the live context (R38), `ERR` (R47, R201), the taken stop (R209), the
request on the port (R111), `WPTR < N` in LOAD (R174). -/
def Obligations.StepKeepsInvariant : Prop :=
  ∀ s t : State, s.Inv → step s = .next t → t.Inv

/-- R200, R201: from a state that meets the invariant no step ends in a fault or a refusal. -/
def Obligations.InvariantNeverFaults : Prop :=
  ∀ s : State, s.Inv → ∃ t : State, step s = .next t

/-- 60_exceptions R211: nothing but reset leads out of `STOPPED` and `FATAL`, and nothing but reset leads back to
`IDLE`, which starts everything afresh, filter states included. The state that a reset gives is that of R55 and R230; that its
environment loses the beats on offer, counts the reset and keeps turns, sink and requests is the model's choice (log 13). -/
def Obligations.OnlyResetReturns : Prop :=
  ∀ s t : State, step s = .next t →
    (s.terminal → t.phase ≠ s.phase → s.resetNext) ∧
    (t.phase = Phase.idle → s.phase ≠ Phase.idle → s.resetNext) ∧
    (s.resetNext → t = State.resetWith { s.nextTurn.env with source := [], epoch := s.env.epoch + 1 })

/-- R42, R207: `STOPF` is sticky; only reset clears it. -/
def Obligations.StopIsSticky : Prop :=
  ∀ s t : State, step s = .next t → s.stopf = true → ¬ s.resetNext → t.stopf = true

/-- 20_memory R90: the setting of `STOPF` commutes with every phase operation except `CHECK`. -/
def Obligations.StopCommutes : Prop :=
  ∀ (i : Instr) (s t : State), i.format = .p → i ≠ .check → exec i s = .next t →
    exec i { s with stopf := true } = .next { t with stopf := true }

/-- R184, R209: `STOPPING` is entered only by the sequencer, from `CHECK`, with a stop pending. -/
def Obligations.StoppingOnlyFromCheck : Prop :=
  ∀ s t : State, step s = .next t → t.phase = Phase.stopping → s.phase ≠ Phase.stopping →
    s.phase = Phase.check ∧ s.stopf = true ∧ s.sequencerNext

/-- R105, R182: a host operation always completes, and changes `PHASE` only as `START` does in `IDLE`. -/
def Obligations.HostNeverSteers : Prop :=
  ∀ (s : State) (w : BitVec 37), s.env.turns.head? = some (.host w) →
    ∃ t : State, step s = .next t ∧
      (t.phase ≠ s.phase → decodeHost w = .start ∧ s.phase = Phase.idle ∧ t.phase = Phase.validate)

/-- R31 to R38, R40, R41, R42, R47, R170, R175: each register changes only by the move the spec names as its writer: the
datapath registers in the sequencer's operations, `PHASE` along the table of R170 or by START in `IDLE`, `STOPF` by STOP or
`stop_req`, the configuration by a host write in `IDLE`. That `WPTR` is cleared, and `IDX` with the start of an operation,
at the write of `PHASE`, hence `WPTR` by CHECK as well as by LOAD, is the model's choice (log 8). -/
def Obligations.RegisterWriters : Prop :=
  ∀ s t : State, step s = .next t → ¬ s.resetNext →
    (t.coefs ≠ s.coefs → s.sequencerNext ∧ s.phase = Phase.coef) ∧
    (t.s1 ≠ s.s1 → s.sequencerNext ∧ s.phase = Phase.bq1) ∧
    (t.s2 ≠ s.s2 → s.sequencerNext ∧ s.phase = Phase.bq2) ∧
    (t.acc ≠ s.acc ∨ t.resRms ≠ s.resRms → s.sequencerNext ∧ s.phase = Phase.rms) ∧
    (t.pkPow ≠ s.pkPow ∨ t.pkIdx ≠ s.pkIdx ∨ t.resFreq ≠ s.resFreq ∨ t.resAmp ≠ s.resAmp →
      s.sequencerNext ∧ s.phase = Phase.peak) ∧
    (t.ctx ≠ s.ctx → s.sequencerNext ∧ s.phase = Phase.fftinit) ∧
    (t.ctxv ≠ s.ctxv → s.sequencerNext ∧ (s.phase = Phase.fftinit ∨ s.phase = Phase.stopping)) ∧
    (t.err ≠ s.err → s.sequencerNext ∧ s.phase = Phase.validate) ∧
    (t.wptr ≠ s.wptr → s.sequencerNext ∧ (s.phase = Phase.check ∨ s.phase = Phase.load)) ∧
    (t.idx ≠ s.idx → s.sequencerNext ∧ t.phase ≠ s.phase ∧ t.idx = 0#_) ∧
    (t.phase ≠ s.phase →
      (s.sequencerNext ∧ (s.phase, t.phase) ∈ successors) ∨
      (s.phase = Phase.idle ∧ t.phase = Phase.validate ∧
        ∃ w : BitVec 37, s.env.turns.head? = some (.host w) ∧ decodeHost w = .start)) ∧
    (t.stopf ≠ s.stopf → t.stopf = true ∧
      (s.env.turns.head? = some .stopReq ∨
        ∃ w : BitVec 37, s.env.turns.head? = some (.host w) ∧ decodeHost w = .stop)) ∧
    ((¬ s.sameConfig t) → s.phase = Phase.idle ∧
      ∃ (w : BitVec 37) (addr : BitVec 4) (data : Word),
        s.env.turns.head? = some (.host w) ∧ decodeHost w = .wr addr data)

/-- R70, R87, R94: a word of a buffer changes only in the operation the table of R70 names as its writer, and only at an
index below `N`; in LOAD, only at `WPTR`. -/
def Obligations.BufferWriters : Prop :=
  ∀ (s t : State) (k : BufId) (i : Nat), s.Inv → step s = .next t → ¬ s.resetNext → t.word k i ≠ s.word k i →
    i < s.frameSize ∧
    match k with
    | .xbuf => s.phase = Phase.load ∧ i = s.wptr.toNat
    | .re => s.phase = Phase.bq1 ∨ s.phase = Phase.bq2 ∨ s.phase = Phase.window ∨ s.phase = Phase.fft
    | .im => s.phase = Phase.fft
    | .win => s.phase = Phase.wingen
    | .ftab => s.phase = Phase.ftgen

/-- 41_window R143: after WINGEN no operation writes WIN until reset, and the run never comes back to WINGEN, while
`LOG2N` stays as it is. -/
def Obligations.WindowIsImmutable : Prop :=
  ∀ s t : State, step s = .next t → ¬ s.resetNext → 0x03 < s.phase.toNat → s.phase.toNat ≤ 0x11 →
    0x03 < t.phase.toNat ∧ t.phase.toNat ≤ 0x11 ∧ t.log2n = s.log2n ∧ ∀ i : Nat, t.word .win i = s.word .win i

/-- R185: the sequencer leaves `EMIT` only with the whole line sent, to `CHECK`; or by a reset. -/
def Obligations.NoTornLine : Prop :=
  ∀ s t : State, s.Inv → step s = .next t → s.phase = Phase.emit → t.phase ≠ Phase.emit → ¬ s.resetNext →
    s.sent = s.line.length ∧ t.phase = Phase.check

/-- R7, R30, R37: what the sink, the backend and the host were told is no state of ASCORE: no step depends on it. -/
def Obligations.OutputsLeaveNoTrace : Prop :=
  ∀ s s' t : State, s.forget = s'.forget → step s = .next t → ∃ t' : State, step s' = .next t' ∧ t.forget = t'.forget

/-! The sequencer's own operations. -/

/-- R171, R178, R179: the three operations that only wait change nothing. -/
def Obligations.WaitingPhasesChangeNothing : Prop :=
  ∀ s : State, exec .idle s = .next s ∧ exec .stopped s = .next s ∧ exec .fatal s = .next s

/-- R172, R203: VALIDATE passes the valid configurations to `COEF` and changes nothing else; AMP_WITHOUT_FREQ is tested
before LOG2N_RANGE; a fatal error writes `ERR` and `PHASE` only. -/
def Obligations.ValidateOutcomes : Prop :=
  ∀ s : State,
    (s.flagAmp = true ∧ s.flagFreq = false → exec .validate s = .next { s with err := 0x01#8, phase := 0x11#5 }) ∧
    (¬ (s.flagAmp = true ∧ s.flagFreq = false) → s.log2n.toNat = 0 ∨ Config.maxLog2 < s.log2n.toNat →
      exec .validate s = .next { s with err := 0x02#8, phase := 0x11#5 }) ∧
    (s.validConfig → exec .validate s = .next { s with phase := 0x02#5 })

/-- R173: CHECK goes to `STOPPING` or to `LOAD`, which starts with `WPTR = 0` (R41; log 8). -/
def Obligations.CheckOutcomes : Prop :=
  ∀ s : State,
    (s.stopf = true → exec .check s = .next { s with phase := 0x0F#5 }) ∧
    (s.stopf = false → exec .check s = .next { s with phase := 0x07#5, wptr := 0#_ })

/-- R174, R80, R41: a sample beat is stored bit for bit at `XBUF[WPTR]` and counted; the `N`-th one ends LOAD. The
successor's start sets `IDX` to 0 if it walks and, if it is EMIT, the count of sent beats, so that the line of this frame
begins with its first beat (R176, R186; logs 8, 10). -/
def Obligations.LoadStoresSample : Prop :=
  ∀ (s : State) (beat : BitVec 33) (rest : List (BitVec 33)), s.fits = true → s.wptr.toNat < s.frameSize →
    s.env.source = beat :: rest → beatShort beat = false →
    ∃ t : State, exec .load s = .next t ∧
      t.word .xbuf s.wptr.toNat = beatData beat ∧ s.keepsWords t (fun k i => k = .xbuf ∧ i = s.wptr.toNat) ∧
      t.wptr.toNat = s.wptr.toNat + 1 ∧
      t = { s with
        mem := t.mem, wptr := t.wptr, env := { s.env with source := rest }
        phase :=
          if s.wptr.toNat + 1 < s.frameSize then s.phase
          else if s.flagRms then 0x08#5 else if s.flagFreq then 0x09#5 else 0x0E#5
        idx := if s.wptr.toNat + 1 < s.frameSize then s.idx else if s.flagRms || s.flagFreq then 0#_ else s.idx
        sent := if s.wptr.toNat + 1 < s.frameSize then s.sent else if s.flagRms || s.flagFreq then s.sent else 0 }

/-- R81, R174, R241: a SHORT beat is consumed and ends LOAD at once, with no word of XBUF changed; without a beat LOAD
waits, whatever `STOPF` holds, and nothing changes. The successor's start sets `IDX` to 0 if it walks and the count of sent
beats if it is EMIT (R41, R176; logs 8, 10). -/
def Obligations.LoadEndsOnShort : Prop :=
  ∀ s : State, s.wptr.toNat < s.frameSize →
    (∀ (beat : BitVec 33) (rest : List (BitVec 33)), s.env.source = beat :: rest → beatShort beat = true →
      exec .load s = .next { s with
        env := { s.env with source := rest }
        phase := if s.flagRms then 0x08#5 else if s.flagFreq then 0x09#5 else 0x0E#5
        idx := if s.flagRms || s.flagFreq then 0#_ else s.idx
        sent := if s.flagRms || s.flagFreq then s.sent else 0 }) ∧
    (s.env.source = [] → exec .load s = .next s)

/-- R82, R71: `N` sample beats in a row fill `XBUF[0 .. N-1]` in stream order, and the next beat stays at the source. The
sequencer alone moves here, one beat a step (logs 1, 9). -/
def Obligations.LoadFillsTheFrame : Prop :=
  ∀ (s : State) (samples : List Word) (rest : List (BitVec 33)), s.fits = true → s.phase = Phase.load → s.wptr = 0#_ →
    s.env.turns = [] → samples.length = s.frameSize → s.env.source = samples.map (inputWord 0#1) ++ rest →
    ∃ t : State, steps s.frameSize s = some t ∧
      (∀ (i : Nat) (h : i < samples.length), t.word .xbuf i = samples[i]) ∧
      s.keepsWords t (fun k i => k = .xbuf ∧ i < s.frameSize) ∧
      t.env = { s.env with source := rest } ∧ t.wptr.toNat = s.frameSize ∧
      t.phase = (if s.flagRms then 0x08#5 else if s.flagFreq then 0x09#5 else 0x0E#5) ∧ s.sameConfig t

/-- R176, R186: the fields of the line stand in the order FREQ, AMP, RMSV, each exactly when its flag is set, then EOL;
EMIT waits while a beat of its line is unsent, then goes to `CHECK`. -/
def Obligations.EmitLine : Prop :=
  ∀ s : State,
    s.line =
      List.replicate s.flagFreq.toNat (0b00#2 ++ s.resFreq) ++ List.replicate s.flagAmp.toNat (0b01#2 ++ s.resAmp) ++
        List.replicate s.flagRms.toNat (0b10#2 ++ s.resRms) ++ [0b11#2 ++ 0x00000000#32] ∧
    (s.sent < s.line.length → exec .emit s = .next s) ∧
    (s.line.length ≤ s.sent → exec .emit s = .next { s with phase := 0x06#5 })

/-- R84, R186, R93: a ready sink receives the whole line, beat by beat in order, once each, and EMIT ends in `CHECK`;
nothing else changes. The schedule is one of those the model admits (log 1). -/
def Obligations.EmitSendsTheLine : Prop :=
  ∀ (s : State) (later : List Turn), s.phase = Phase.emit → s.sent = 0 →
    s.env.turns = List.replicate s.line.length .sink ++ .sequencer :: later →
    steps (s.line.length + 1) s = some
      { s with phase := Phase.check, sent := s.line.length,
               env := { s.env with turns := later, sink := s.env.sink ++ s.line } }

/-- R151, R177: FFTINIT sends FFT.INIT with `LOG2N`, waits, then stores the handle, sets `CTXV` and goes to `CHECK`;
STOPPING sends FFT.DESTROY with `CTX`, waits, then clears `CTXV` and goes to `STOPPED`. -/
def Obligations.ContextHandshakes : Prop :=
  ∀ s : State,
    (s.fftPort = .idle →
      (exec .fftinit s = .next { s with
        fftPort := .requested (0b01#2 ++ s.log2n ++ 0#1) s.ctx
        env := { s.env with requests := s.env.requests ++ [(0b01#2 ++ s.log2n ++ 0#1, s.ctx)] } }) ∧
      ∃ w : BitVec 8, w.extractLsb' 6 2 = 0b11#2 ∧
        exec .stopping s = .next { s with
          fftPort := .requested w s.ctx, env := { s.env with requests := s.env.requests ++ [(w, s.ctx)] } }) ∧
    (∀ (w : BitVec 8) (c : Ctx), s.fftPort = .requested w c →
      exec .fftinit s = .next s ∧ exec .stopping s = .next s) ∧
    (∀ c : Ctx, s.fftPort = .done c →
      exec .fftinit s = .next { s with fftPort := .idle, ctx := c, ctxv := true, phase := 0x06#5 } ∧
      exec .stopping s = .next { s with fftPort := .idle, ctxv := false, phase := 0x10#5 })

/-- R170, R182: from `IDLE` with a configuration VALIDATE lets pass, START takes the machine through the startup chain
to `CHECK` with a live context and one FFT.INIT sent, once the backend answers. The schedule is one of those the model
admits, and the request and its answer are steps of their own (logs 1, 11). -/
def Obligations.StartupReachesCheck : Prop :=
  ∀ (s : State) (later : List Turn), s.Inv → s.phase = Phase.idle → s.validConfig →
    s.env.turns = [.host 0x1000000001#37, .sequencer, .sequencer, .sequencer, .sequencer, .sequencer, .backend,
      .sequencer] ++ later →
    ∃ t : State, steps 8 s = some t ∧ t.phase = Phase.check ∧ t.ctxv = true ∧ t.err = 0x00#8 ∧ s.sameConfig t ∧
      t.stopf = s.stopf ∧ t.s1 = s.s1 ∧ t.s2 = s.s2 ∧
      t.env.requests = s.env.requests ++ [(backendHdr 0b01#2 s.log2n, s.ctx)] ∧ t.env.turns = later

/-- R173, R177, R209: at `CHECK` with a stop pending the run ends in `STOPPED`, the context destroyed, no beat moved. The
schedule is one of those the model admits, and the request and its answer are steps of their own (logs 1, 11). -/
def Obligations.StopEndsTheRun : Prop :=
  ∀ (s : State) (later : List Turn), s.Inv → s.phase = Phase.check → s.stopf = true →
    s.env.turns = [.sequencer, .sequencer, .backend, .sequencer] ++ later →
    ∃ t : State, steps 4 s = some t ∧ t.phase = Phase.stopped ∧ t.done = true ∧ t.ctxv = false ∧ t.err = 0x00#8 ∧
      t.env.requests = s.env.requests ++ [(backendHdr 0b11#2 s.log2n, s.ctx)] ∧
      t.env.sink = s.env.sink ∧ t.env.source = s.env.source ∧ t.mem = s.mem ∧ t.s1 = s.s1 ∧ t.s2 = s.s2

/-! The host port. -/

/-- R182, R183, R206: START moves `IDLE` to `VALIDATE` and does nothing elsewhere, and does not clear `STOPF`; STOP and
the pin `stop_req` set `STOPF` in every phase and do nothing else. -/
def Obligations.StartAndStopCommands : Prop :=
  ∀ s : State,
    (s.phase = Phase.idle → exec .start s = .next { s with phase := 0x01#5 }) ∧
    (s.phase ≠ Phase.idle → exec .start s = .next s) ∧
    exec .stop s = .next { s with stopf := true } ∧ exec .stopreq s = .next { s with stopf := true }

/-- R181: a host write, register by register. -/
def Obligations.HostWrites : Prop :=
  ∀ (addr : BitVec 4) (data : Word) (s : State),
    (addr = 0x0#4 → data.extractLsb' 0 4 = 0x1#4 → exec (.wr addr data) s = exec .start s) ∧
    (addr = 0x0#4 → data.extractLsb' 0 4 = 0x2#4 → exec (.wr addr data) s = exec .stop s) ∧
    (addr = 0x0#4 → data.extractLsb' 0 4 ≠ 0x1#4 → data.extractLsb' 0 4 ≠ 0x2#4 → exec (.wr addr data) s = .next s) ∧
    (addr = 0x3#4 → s.phase = Phase.idle → exec (.wr addr data) s = .next { s with sampleRate := data }) ∧
    (addr = 0x4#4 → s.phase = Phase.idle →
      exec (.wr addr data) s = .next { s with log2n := data.extractLsb' 0 5 }) ∧
    (addr = 0x5#4 → s.phase = Phase.idle →
      exec (.wr addr data) s = .next { s with flags := data.extractLsb' 0 3 }) ∧
    (addr ≠ 0x0#4 → s.phase ≠ Phase.idle → exec (.wr addr data) s = .next s) ∧
    (addr = 0x1#4 ∨ addr = 0x2#4 ∨ 0x6 ≤ addr.toNat → exec (.wr addr data) s = .next s)

/-- R180: a host read, register by register; it changes nothing but the word on `h_rdata`. -/
def Obligations.HostReads : Prop :=
  ∀ (addr : BitVec 4) (s : State), ∃ v : Word,
    exec (.rd addr) s = .next { s with env := { s.env with hRdata := v } } ∧
    (addr = 0x0#4 → v = 0x00000000#32) ∧
    (addr = 0x1#4 →
      v.extractLsb' 0 5 = s.phase ∧ v.extractLsb' 5 3 = 0#3 ∧ v.getLsbD 8 = s.stopf ∧
      v.getLsbD 9 = decide (s.phase = 0x10#5) ∧ v.getLsbD 10 = decide (s.phase = 0x11#5) ∧ v.getLsbD 11 = s.ctxv ∧
      v.extractLsb' 12 20 = 0#20) ∧
    (addr = 0x2#4 → v = s.err.zeroExtend 32) ∧
    (addr = 0x3#4 → v = s.sampleRate) ∧
    (addr = 0x4#4 → v = s.log2n.zeroExtend 32) ∧
    (addr = 0x5#4 → v = s.flags.zeroExtend 32) ∧
    (0x6 ≤ addr.toNat → v = 0x00000000#32)

/-- R214: `done` and `fatal` follow `PHASE`, are mirrored in `STATUS`, and stay until reset. -/
def Obligations.DoneAndFatalPins : Prop :=
  ∀ s : State,
    (s.done = true ↔ s.phase = 0x10#5) ∧ (s.fatalf = true ↔ s.phase = 0x11#5) ∧
    s.statusWord.getLsbD 9 = s.done ∧ s.statusWord.getLsbD 10 = s.fatalf ∧
    ∀ t : State, step s = .next t → ¬ s.resetNext →
      (s.done = true → t.done = true) ∧ (s.fatalf = true → t.fatalf = true)

/-! The streams. -/

/-- R80, R81, R82, R107: a beat offered waits at the source behind those before it, and nothing else changes; `in_ready` is
1 exactly while `PHASE = LOAD` and `WPTR < N`; and in any step that is no reset the source gains a beat it offers, or loses
its first one to the sequencer with `in_ready` 1, or keeps all. That offered beats stand in a list is the model's (log 9). -/
def Obligations.SourceOffersBeats : Prop :=
  (∀ (s : State) (data : Word),
    exec (.sample data) s = .next { s with env := { s.env with source := s.env.source ++ [0#1 ++ data] } } ∧
    ∃ beat : BitVec 33, beatShort beat = true ∧
      exec .short s = .next { s with env := { s.env with source := s.env.source ++ [beat] } }) ∧
  (∀ s : State, s.inReady = true ↔ s.phase = 0x07#5 ∧ s.wptr.toNat < s.frameSize) ∧
  (∀ s t : State, step s = .next t → ¬ s.resetNext →
    t.env.source = s.env.source ∨
    (∃ w beat : BitVec 33, s.env.turns.head? = some (.source w) ∧ t.env.source = s.env.source ++ [beat] ∧
      beatShort beat = beatShort w ∧ (beatShort w = false → beat = w)) ∨
    (s.sequencerNext ∧ s.inReady = true ∧ ∃ beat : BitVec 33, s.env.source = beat :: t.env.source))

/-- R84, R108, R186: each kind of output beat transfers when it is the beat on offer, and only then (log 10). -/
def Obligations.SinkAcceptsBeats : Prop :=
  ∀ (s : State) (i : Instr) (w : BitVec 34),
    ((∃ d : Word, i = .freq d ∧ w = 0b00#2 ++ d) ∨ (∃ d : Word, i = .amp d ∧ w = 0b01#2 ++ d) ∨
      (∃ d : Word, i = .rmsv d ∧ w = 0b10#2 ++ d) ∨ (i = .eol ∧ w = 0b11#2 ++ 0x00000000#32)) →
    (s.phase = Phase.emit → s.line[s.sent]? = some w →
      exec i s = .next { s with sent := s.sent + 1, env := { s.env with sink := s.env.sink ++ [w] } }) ∧
    (¬ (s.phase = Phase.emit ∧ s.line[s.sent]? = some w) → exec i s = .next s)

/-! The startup operations of the datapath. -/

/-- R130: COEF computes the five coefficients by the chain of the rule, one rounding each, writes `PHASE`, and leaves
everything else. The start of WINGEN sets `IDX` to 0 (R41; log 8). -/
def Obligations.CoefChain : Prop :=
  ∀ s : State, ∃ w0 cw sw alpha a0s omc b0 : Word,
    w0 = fdiv (s.draw 0 1) (fmul (s.draw 0 0) 0x40C90FDB#32 Config.cutoff) (i2f s.sampleRate.toInt) ∧
    cw = settleNaN (s.draw 0 2) (Config.cos w0) ∧ sw = settleNaN (s.draw 0 3) (Config.sin w0) ∧
    alpha = fmul (s.draw 0 5) (fdiv (s.draw 0 4) sw 0x40000000#32) 0x3FB504F3#32 ∧
    a0s = fadd (s.draw 0 6) 0x3F800000#32 alpha ∧ omc = fsub (s.draw 0 7) 0x3F800000#32 cw ∧
    b0 = fdiv (s.draw 0 13) (fdiv (s.draw 0 12) omc 0x40000000#32) a0s ∧
    exec .coef s = .next { s with
      coefs :=
        { a0 := fdiv (s.draw 0 9) (fmul (s.draw 0 8) 0xC0000000#32 cw) a0s
          a1 := fdiv (s.draw 0 11) (fsub (s.draw 0 10) 0x3F800000#32 alpha) a0s
          b0 := b0
          b1 := fdiv (s.draw 0 14) omc a0s
          b2 := b0 }
      phase := 0x03#5, idx := 0#_, env := { s.env with draws := s.env.draws + 1 } }

/-- R140: WINGEN builds words `0 .. N-1` of WIN by the formula, writes `PHASE`, and leaves everything else. The start of
FTGEN sets `IDX` to 0 (R41; log 8). -/
def Obligations.WingenBuildsWindow : Prop :=
  ∀ s : State, s.fits = true → ∃ t : State, exec .wingen s = .next t ∧
    (∀ i : Nat, i < s.frameSize → ∃ arg : Word,
      arg = fdiv (s.draw i 1) (fmul (s.draw i 0) 0x40C90FDB#32 (i2f i)) (i2f ((s.frameSize - 1 : Nat) : Int)) ∧
      t.word .win i =
        fmul (s.draw i 4) 0x3F000000#32
          (fsub (s.draw i 3) 0x3F800000#32 (settleNaN (s.draw i 2) (Config.cos arg)))) ∧
    s.keepsWords t (fun k i => k = .win ∧ i < s.frameSize) ∧
    t = { s with mem := t.mem, phase := 0x04#5, idx := 0#_, env := { s.env with draws := s.env.draws + 1 } }

/-- R140: at the ends of the window the argument of the cosine is exactly `+0` and exactly `TWO_PI`, for every frame
size VALIDATE lets pass ("all 24 cases"). -/
def Obligations.WindowEndArguments : Prop :=
  ∀ (s : State) (d d' : Draw), s.validConfig →
    fdiv d (fmul d' 0x40C90FDB#32 (i2f 0)) (i2f ((s.frameSize - 1 : Nat) : Int)) = 0x00000000#32 ∧
    fdiv d (fmul d' 0x40C90FDB#32 (i2f ((s.frameSize - 1 : Nat) : Int))) (i2f ((s.frameSize - 1 : Nat) : Int)) =
      0x40C90FDB#32

/-- R150: FTGEN builds words `0 .. N-1` of FTAB by the formula, and writes nothing else. -/
def Obligations.FtgenBuildsTable : Prop :=
  ∀ s : State, s.fits = true → ∃ t : State, exec .ftgen s = .next t ∧
    (∀ i : Nat, i < s.frameSize →
      t.word .ftab i =
        fdiv (s.draw i 1) (fmul (s.draw i 0) (i2f s.sampleRate.toInt) (i2f i)) (i2f s.frameSize)) ∧
    s.keepsWords t (fun k i => k = .ftab ∧ i < s.frameSize) ∧
    t = { s with mem := t.mem, phase := 0x05#5, env := { s.env with draws := s.env.draws + 1 } }

/-- R156, U1: after FTGEN no entry of the table is a NaN, entry 0 is a zero, every entry with `|SAMPLE_RATE * i| < 2^24`
is exactly `SAMPLE_RATE * i / N`, and the table is strictly increasing where `0 < SAMPLE_RATE` and
`SAMPLE_RATE * (N - 1) < 2^24`. -/
def Obligations.FrequencyTableIsExact : Prop :=
  ∀ s t : State, exec .ftgen s = .next t →
    (∀ i : Nat, i < s.frameSize → isNaN (t.word .ftab i) = false) ∧
    isZero (t.word .ftab 0) = true ∧
    (∀ i : Nat, i < s.frameSize → |s.sampleRate.toInt * i| < 2 ^ 24 →
      isFinite (t.word .ftab i) = true ∧
      valUnits (t.word .ftab i) * s.frameSize = s.sampleRate.toInt * i * 2 ^ 149) ∧
    (0 < s.sampleRate.toInt → s.sampleRate.toInt * (s.frameSize - 1) < 2 ^ 24 →
      ∀ i j : Nat, i < j → j < s.frameSize → fgt (t.word .ftab j) (t.word .ftab i) = true)

/-! The frame operations of the datapath. -/

/-- R131: one filter step: five products and four sums from the old cells, left to right, then the shift. -/
def Obligations.FilterStep : Prop :=
  ∀ (serial elem : Nat) (c : Coefs) (x x1 x2 y1 y2 y : Word),
    bqOut serial elem c ⟨x1, x2, y1, y2⟩ x =
      fsub ⟨serial, elem, 8⟩
        (fsub ⟨serial, elem, 6⟩
          (fadd ⟨serial, elem, 4⟩
            (fadd ⟨serial, elem, 2⟩ (fmul ⟨serial, elem, 0⟩ c.b0 x) (fmul ⟨serial, elem, 1⟩ c.b1 x1))
            (fmul ⟨serial, elem, 3⟩ c.b2 x2))
          (fmul ⟨serial, elem, 5⟩ c.a0 y1))
        (fmul ⟨serial, elem, 7⟩ c.a1 y2) ∧
    bqShift ⟨x1, x2, y1, y2⟩ x y = ⟨x, x1, y, y1⟩

/-- R132: BQ1 filters XBUF into RE by the recurrence of the filter step, carries the cells through S1, writes `PHASE`,
and leaves everything else, XBUF and S2 among it. The start of BQ2 sets `IDX` to 0 (R41; log 8). -/
def Obligations.Bq1Recurrence : Prop :=
  ∀ s : State, s.fits = true → ∃ (t : State) (cells : Nat → Cells), exec .bq1 s = .next t ∧
    cells 0 = s.s1 ∧ cells s.frameSize = t.s1 ∧
    (∀ i : Nat, i < s.frameSize →
      t.word .re i = bqOut s.env.draws i s.coefs (cells i) (s.word .xbuf i) ∧
      cells (i + 1) = bqShift (cells i) (s.word .xbuf i) (t.word .re i)) ∧
    s.keepsWords t (fun k i => k = .re ∧ i < s.frameSize) ∧
    t = { s with mem := t.mem, s1 := t.s1, phase := 0x0A#5, idx := 0#_, env := { s.env with draws := s.env.draws + 1 } }

/-- R133: BQ2 filters RE in place by the same recurrence, carries the cells through S2, writes `PHASE`, and leaves
everything else. The start of WINDOW sets `IDX` to 0 (R41; log 8). -/
def Obligations.Bq2Recurrence : Prop :=
  ∀ s : State, s.fits = true → ∃ (t : State) (cells : Nat → Cells), exec .bq2 s = .next t ∧
    cells 0 = s.s2 ∧ cells s.frameSize = t.s2 ∧
    (∀ i : Nat, i < s.frameSize →
      t.word .re i = bqOut s.env.draws i s.coefs (cells i) (s.word .re i) ∧
      cells (i + 1) = bqShift (cells i) (s.word .re i) (t.word .re i)) ∧
    s.keepsWords t (fun k i => k = .re ∧ i < s.frameSize) ∧
    t = { s with mem := t.mem, s2 := t.s2, phase := 0x0B#5, idx := 0#_, env := { s.env with draws := s.env.draws + 1 } }

/-- R134: frame-then-frame order gives the same words and the same cells as running both instances sample by
sample, each with the draws it has in ASCORE (log 4). -/
def Obligations.CascadeOrderIsUnobservable : Prop :=
  ∀ s t u : State, exec .bq1 s = .next t → exec .bq2 t = .next u →
    (u.frame .re s.frameSize, u.s1, u.s2) =
      interleavedCascade s.env.draws t.env.draws s.coefs 0 s.s1 s.s2 (s.frame .xbuf s.frameSize)

/-- R131, R243: a NaN anywhere in the operands of a filter step makes its output a NaN, and a NaN in cell 2 of either
instance (`S1[2]` before BQ1, `S2[2]` before BQ2) makes every word of the frame a NaN and stays in that cell. -/
def Obligations.FilterKeepsNaN : Prop :=
  (∀ (serial elem : Nat) (c : Coefs) (cells : Cells) (x : Word),
    isNaN x = true ∨ isNaN cells.x1 = true ∨ isNaN cells.x2 = true ∨ isNaN cells.y1 = true ∨ isNaN cells.y2 = true ∨
      isNaN c.a0 = true ∨ isNaN c.a1 = true ∨ isNaN c.b0 = true ∨ isNaN c.b1 = true ∨ isNaN c.b2 = true →
    isNaN (bqOut serial elem c cells x) = true) ∧
  (∀ s t : State, exec .bq1 s = .next t → isNaN s.s1.y1 = true →
    isNaN t.s1.y1 = true ∧ ∀ i : Nat, i < s.frameSize → isNaN (t.word .re i) = true) ∧
  (∀ s t : State, exec .bq2 s = .next t → isNaN s.s2.y1 = true →
    isNaN t.s2.y1 = true ∧ ∀ i : Nat, i < s.frameSize → isNaN (t.word .re i) = true)

/-- R141: WINDOW multiplies RE by WIN word by word, in place, writes `PHASE`, and leaves everything else. The start of FFT
sets `IDX` to 0 (R41; log 8). -/
def Obligations.WindowMultiplies : Prop :=
  ∀ s : State, s.fits = true → ∃ t : State, exec .window s = .next t ∧
    (∀ i : Nat, i < s.frameSize → t.word .re i = fmul (s.draw i 0) (s.word .re i) (s.word .win i)) ∧
    s.keepsWords t (fun k i => k = .re ∧ i < s.frameSize) ∧
    t = { s with mem := t.mem, phase := 0x0C#5, idx := 0#_, env := { s.env with draws := s.env.draws + 1 } }

/-- R152: FFT zeroes words `0 .. N-1` of IM and sends FFT.APPLY with `CTX`, `LOG2N` and `inverse = 0`; waits, touching
nothing; then goes to `PEAK`, whose start sets `IDX` to 0 (R41; log 8). The port's three states are the model's (log 11). -/
def Obligations.FftHandshake : Prop :=
  ∀ s : State,
    (s.fftPort = .idle → s.fits = true → ∃ t : State, exec .fft s = .next t ∧
      (∀ i : Nat, i < s.frameSize → t.word .im i = 0x00000000#32) ∧
      s.keepsWords t (fun k i => k = .im ∧ i < s.frameSize) ∧
      t = { s with
        mem := t.mem
        fftPort := .requested (0b10#2 ++ s.log2n ++ 0#1) s.ctx
        env := { s.env with requests := s.env.requests ++ [(0b10#2 ++ s.log2n ++ 0#1, s.ctx)] } }) ∧
    (∀ (w : BitVec 8) (c : Ctx), s.fftPort = .requested w c → exec .fft s = .next s) ∧
    (∀ c : Ctx, s.fftPort = .done c →
      exec .fft s = .next { s with fftPort := .idle, phase := 0x0D#5, idx := 0#_ })

/-- R215, R217, R94: the backend answers an FFT.INIT or FFT.DESTROY that is outstanding, with a handle of its choice
(U12), and touches no state of ASCORE; one that is not outstanding does nothing (log 11). -/
def Obligations.BackendAnswers : Prop :=
  ∀ (s : State) (i : Instr), ((∃ l : BitVec 5, i = .reqInit l) ∨ (∃ c : Ctx, i = .reqDestroy c)) →
    (s.outstanding = some i → exec i s = .next { s with
      fftPort := .done (Config.ctxAnswer s.env.draws), env := { s.env with draws := s.env.draws + 1 } }) ∧
    (s.outstanding ≠ some i → exec i s = .next s)

/-- R216, R94: the backend serves an outstanding FFT.APPLY by replacing words `0 .. N-1` of RE and IM by
`NUM.fft(LOG2N, RE, IM, false)`, touching nothing else; one that is not outstanding does nothing. -/
def Obligations.BackendTransforms : Prop :=
  ∀ (s : State) (l : BitVec 5) (c : Ctx), l.toNat ≤ Config.maxLog2 →
    (s.outstanding = some (.reqApply l c) → ∃ t : State, exec (.reqApply l c) s = .next t ∧
      (∀ k : Nat, k < 2 ^ l.toNat → ∃ out : Word × Word,
        out = Config.fftBin l.toNat (s.frame .re (2 ^ l.toNat)) (s.frame .im (2 ^ l.toNat)) false k ∧
        t.word .re k = settleNaN (s.draw k 0) out.1 ∧ t.word .im k = settleNaN (s.draw k 1) out.2) ∧
      s.keepsWords t (fun b i => (b = .re ∨ b = .im) ∧ i < 2 ^ l.toNat) ∧
      t = { s with
        mem := t.mem, fftPort := .done (Config.ctxAnswer s.env.draws),
        env := { s.env with draws := s.env.draws + 1 } }) ∧
    (s.outstanding ≠ some (.reqApply l c) → exec (.reqApply l c) s = .next s)

/-- R153: PEAK reports the greatest power of the lower half of the bins and the first bin that has it; with no power
above zero it reports bin 0 and `+0`; it writes nothing else. The start of EMIT sets its count to 0 (logs 8, 10). -/
def Obligations.PeakIsFirstMaximum : Prop :=
  ∀ s : State, s.fits = true → ∃ t : State, exec .peak s = .next t ∧
    t.resAmp = t.pkPow ∧ t.resFreq = s.word .ftab t.pkIdx.toNat ∧
    (∀ k : Nat, k < s.frameSize / 2 → fgt (s.power k) t.pkPow = false) ∧
    ((t.pkIdx = 0#_ ∧ t.pkPow = 0x00000000#32) ∨
      (t.pkIdx.toNat < s.frameSize / 2 ∧ t.pkPow = s.power t.pkIdx.toNat ∧ fgt t.pkPow 0x00000000#32 = true ∧
        ∀ k : Nat, k < t.pkIdx.toNat → isNaN (s.power k) = true ∨ fgt t.pkPow (s.power k) = true)) ∧
    t = { s with
      pkPow := t.pkPow, pkIdx := t.pkIdx, resFreq := t.resFreq, resAmp := t.resAmp, phase := 0x0E#5, sent := 0,
      env := { s.env with draws := s.env.draws + 1 } }

/-- R154, R155: PEAK scans the bins `0 .. N/2 - 1` of RE and IM; and in a scan of any bins, if two have the same greatest
power, above zero, the lower one is reported, whatever NaN powers stand beside them. -/
def Obligations.PeakTieGoesLow : Prop :=
  (∀ s : State, s.fits = true → ∃ t : State, exec .peak s = .next t ∧
    (t.pkPow, t.pkIdx.toNat) = peakScan s.env.draws 0 0x00000000#32 0
      ((List.range (s.frameSize / 2)).map (fun k => (s.word .re k, s.word .im k)))) ∧
  (∀ (serial : Nat) (bins : List (Word × Word)) (power : Nat → Word) (k1 k2 : Nat),
    (∀ (k : Nat) (h : k < bins.length), power k = binPower serial k bins[k].1 bins[k].2) →
    k1 < k2 → k2 < bins.length → power k1 = power k2 → fgt (power k1) 0x00000000#32 = true →
    (∀ k : Nat, k < bins.length → k ≠ k1 → k ≠ k2 → isNaN (power k) = true ∨ fgt (power k1) (power k) = true) →
    peakScan serial 0 0x00000000#32 0 bins = (power k1, k1))

/-- U1, R153 (f): after PEAK the amplitude is no NaN and has a positive sign bit. -/
def Obligations.AmplitudeIsNeverNaN : Prop :=
  ∀ s t : State, exec .peak s = .next t → isNaN t.resAmp = false ∧ signBit t.resAmp = false

/-- R165: RMS sums the squares of the raw frame in ascending order from `+0`, each product and sum rounded, and takes
the root of the quotient by `N`; it writes nothing but `ACC`, `RES_RMS` and the successor, whose start sets `IDX` or the
count of sent beats to 0 (logs 8, 10). Where R167 promises more than these roundings give, they are followed (log 25). -/
def Obligations.RmsRecurrence : Prop :=
  ∀ s : State, s.fits = true → ∃ (t : State) (acc : Nat → Word), exec .rms s = .next t ∧
    acc 0 = 0x00000000#32 ∧
    (∀ i : Nat, i < s.frameSize →
      acc (i + 1) = fadd (s.draw i 1) (acc i) (fmul (s.draw i 0) (s.word .xbuf i) (s.word .xbuf i))) ∧
    t.acc = acc s.frameSize ∧
    t.resRms = fsqrt (s.draw s.frameSize 1) (fdiv (s.draw s.frameSize 0) t.acc (i2f s.frameSize)) ∧
    t = { s with
      acc := t.acc, resRms := t.resRms, phase := if s.flagFreq then 0x09#5 else 0x0E#5
      idx := if s.flagFreq then 0#_ else s.idx, sent := if s.flagFreq then s.sent else 0
      env := { s.env with draws := s.env.draws + 1 } }

/-- R165 (a), (e), (f), R166: the RMS of zeros is `+0`, a NaN sample makes the RMS a NaN, no RMS has a negative sign
unless it is a NaN; and the RMS is the same whether `FLAGS.FREQ` is 0 or 1 and whatever the frequency pipeline holds: it
depends on `LOG2N` and words `0 .. N-1` of XBUF only (with the same draws for NaN patterns). -/
def Obligations.RmsProperties : Prop :=
  ∀ s t : State, exec .rms s = .next t →
    ((∀ i : Nat, i < s.frameSize → isZero (s.word .xbuf i) = true) → t.resRms = 0x00000000#32) ∧
    ((∃ i : Nat, i < s.frameSize ∧ isNaN (s.word .xbuf i) = true) → isNaN t.acc = true ∧ isNaN t.resRms = true) ∧
    (isNaN t.resRms = true ∨ signBit t.resRms = false) ∧
    (∀ s' : State, s'.log2n = s.log2n → s'.env.draws = s.env.draws →
      (∀ i : Nat, i < s.frameSize → s'.word .xbuf i = s.word .xbuf i) →
      ∃ t' : State, exec .rms s' = .next t' ∧ t'.acc = t.acc ∧ t'.resRms = t.resRms)

/-! Numerics. -/

/-- 00_scope R14: on finite operands each operation is the exact real result rounded once, to nearest, ties to even,
and R16: so is the conversion of an integer. Values are in units of 2^-149. -/
def Obligations.SumsAreRounded : Prop :=
  ∀ (d : Draw) (a b : Word), isFinite a = true → isFinite b = true →
    RoundsTo ((valUnits a : ℝ) + valUnits b) (fadd d a b) ∧ RoundsTo ((valUnits a : ℝ) - valUnits b) (fsub d a b)

/-- R14 for the product. -/
def Obligations.ProductsAreRounded : Prop :=
  ∀ (d : Draw) (a b : Word), isFinite a = true → isFinite b = true →
    RoundsTo ((valUnits a : ℝ) * valUnits b / 2 ^ 149) (fmul d a b)

/-- R14 for the quotient by a non-zero divisor, and R16. -/
def Obligations.QuotientsAreRounded : Prop :=
  (∀ (d : Draw) (a b : Word), isFinite a = true → isFinite b = true → isZero b = false →
    RoundsTo ((valUnits a : ℝ) / valUnits b * 2 ^ 149) (fdiv d a b)) ∧
  (∀ n : Int, RoundsTo ((n : ℝ) * 2 ^ 149) (i2f n))

/-- R14 for the square root of a value that is not negative. -/
def Obligations.RootsAreRounded : Prop :=
  ∀ (d : Draw) (a : Word), isFinite a = true → 0 ≤ valUnits a →
    RoundsTo (Real.sqrt ((valUnits a : ℝ) * 2 ^ 149)) (fsqrt d a)

/-- R14's special cases: NaN operands, the invalid operations, division by zero, infinite operands with a result that is
no NaN (the exact results of the extended reals), and the signs of zero results. -/
def Obligations.SpecialCases : Prop :=
  ∀ (d : Draw) (a b : Word),
    (isNaN a = true ∨ isNaN b = true →
      isNaN (fadd d a b) = true ∧ isNaN (fsub d a b) = true ∧ isNaN (fmul d a b) = true ∧ isNaN (fdiv d a b) = true) ∧
    (isNaN a = true → isNaN (fsqrt d a) = true) ∧
    (isInf a = true → isInf b = true → signBit a ≠ signBit b → isNaN (fadd d a b) = true) ∧
    (isInf a = true → isInf b = true → signBit a = signBit b → isNaN (fsub d a b) = true) ∧
    (isZero a = true → isInf b = true → isNaN (fmul d a b) = true ∧ isNaN (fmul d b a) = true) ∧
    (isZero a = true → isZero b = true → isNaN (fdiv d a b) = true) ∧
    (isInf a = true → isInf b = true → isNaN (fdiv d a b) = true) ∧
    (signBit a = true → isZero a = false → isNaN (fsqrt d a) = true) ∧
    (isZero a = true → fsqrt d a = a) ∧
    (isFinite a = true → isZero a = false → isZero b = true → fdiv d a b = infWord (signBit a ^^ signBit b)) ∧
    (isInf a = true → isFinite b = true → fadd d a b = a ∧ fadd d b a = a ∧ fsub d a b = a ∧ fsub d b a = fneg a) ∧
    (isInf a = true → isInf b = true → signBit a = signBit b → fadd d a b = a) ∧
    (isInf a = true → isInf b = true → signBit a ≠ signBit b → fsub d a b = a) ∧
    (isInf a = true → isNaN b = false → isZero b = false →
      fmul d a b = infWord (signBit a ^^ signBit b) ∧ fmul d b a = infWord (signBit a ^^ signBit b)) ∧
    (isInf a = true → isFinite b = true →
      fdiv d a b = infWord (signBit a ^^ signBit b) ∧ fdiv d b a = zeroWord (signBit a ^^ signBit b)) ∧
    (isInf a = true → signBit a = false → fsqrt d a = a) ∧
    (isFinite a = true → isFinite b = true → valUnits a + valUnits b = 0 →
      fadd d a b = zeroWord (signBit a && signBit b)) ∧
    (isFinite a = true → isFinite b = true → valUnits a - valUnits b = 0 →
      fsub d a b = zeroWord (signBit a && !signBit b)) ∧
    (isZero (fmul d a b) = true → signBit (fmul d a b) = (signBit a ^^ signBit b)) ∧
    (isZero (fdiv d a b) = true → signBit (fdiv d a b) = (signBit a ^^ signBit b))

/-- R15: the comparison: neither operand a NaN, and the value of `a` greater than that of `b`, with the two zeros equal
and the infinities beyond every finite value. -/
def Obligations.GreaterThan : Prop :=
  ∀ a b : Word, fgt a b = true ↔ isNaN a = false ∧ isNaN b = false ∧ extendedValue b < extendedValue a
end

