-- ==== Sys2Proof/Laws/Decode.lean ====
section
/-! SUPPORT. What the decoder of each format can answer. -/

namespace Sys2Proof

/-- The whole table of R102 at once: what each of the 32 codes decodes to. -/
theorem decodePhase_table : ∀ code : BitVec 5,
    (match decodePhase code with
      | .ok i => decide (i.format = .p) && decide (encode i = .phase code) && decide (code.toNat ≤ 0x11)
      | .error why => decide (why = .reservedPhase) && decide (0x12 ≤ code.toNat)) = true := by
  decide

/-- A phase code decodes to the operation it is the code of. -/
theorem decodePhase_ok {code : BitVec 5} {i : Instr} (h : decodePhase code = .ok i) :
    i.format = .p ∧ encode i = .phase code := by
  have ht := decodePhase_table code
  simp only [h, Bool.and_eq_true, decide_eq_true_eq] at ht
  exact ht.1

/-- The eighteen codes decode (R102). -/
theorem decodePhase_legal {code : BitVec 5} (h : code.toNat ≤ 0x11) : ∃ i, decodePhase code = .ok i := by
  have ht := decodePhase_table code
  cases hd : decodePhase code with
  | ok i => exact ⟨i, rfl⟩
  | error why =>
    simp only [hd, Bool.and_eq_true, decide_eq_true_eq] at ht
    omega

/-- Every other code is reserved (R112 (a)). -/
theorem decodePhase_reserved {code : BitVec 5} (h : 0x12 ≤ code.toNat) : decodePhase code = .error .reservedPhase := by
  have ht := decodePhase_table code
  cases hd : decodePhase code with
  | ok i =>
    simp only [hd, Bool.and_eq_true, decide_eq_true_eq] at ht
    omega
  | error why =>
    simp only [hd, Bool.and_eq_true, decide_eq_true_eq] at ht
    rw [ht.1]

/-- A format-H word decodes to a host operation. -/
theorem decodeHost_format (w : BitVec 37) : (decodeHost w).format = .h := by
  unfold decodeHost
  simp only
  repeat' split
  all_goals rfl

/-- A format-I word decodes to an input beat. -/
theorem decodeInput_format (w : BitVec 33) : (decodeInput w).format = .i := by
  unfold decodeInput
  split <;> rfl

/-- A format-O word decodes to the beat it spells. -/
theorem decodeOutput_ok {w : BitVec 34} {i : Instr} (h : decodeOutput w = .ok i) :
    i.format = .o ∧ encode i = .output w := by
  unfold decodeOutput at h
  simp only at h
  have hw : w = (w.extractLsb' 32 2 ++ w.extractLsb' 0 32 : BitVec 34) := by
    apply BitVec.eq_of_getLsbD_eq
    intro k hk
    simp only [BitVec.getLsbD_append, BitVec.getLsbD_extractLsb']
    by_cases h32 : k < 32
    · simp [h32]
    · have : k - 32 < 2 := by omega
      simp [h32, this, show 32 + (k - 32) = k by omega]
  split at h
  · rename_i hk
    cases h
    refine ⟨rfl, ?_⟩
    conv => rhs; rw [hw, hk]
    rfl
  · split at h
    · rename_i hk
      cases h
      refine ⟨rfl, ?_⟩
      conv => rhs; rw [hw, hk]
      rfl
    · split at h
      · rename_i hk
        cases h
        refine ⟨rfl, ?_⟩
        conv => rhs; rw [hw, hk]
        rfl
      · split at h
        · rename_i h0 h1 h2 hd
          cases h
          refine ⟨rfl, ?_⟩
          have hk : w.extractLsb' 32 2 = 0b11#2 := by
            generalize w.extractLsb' 32 2 = k at h0 h1 h2
            revert h0 h1 h2
            revert k
            decide
          conv => rhs; rw [hw, hk, hd]
          rfl
        · cases h

/-- What a format-B word decodes to has format B. -/
theorem decodeBackend_format {hdr : BitVec 8} {ctx : Ctx} {i : Instr} (h : decodeBackend hdr ctx = .ok i) :
    i.format = .b := by
  unfold decodeBackend at h
  simp only at h
  repeat' split at h
  all_goals first
    | (cases h; rfl)
    | cases h

/-- The requests ASCORE drives decode to what they ask. -/
theorem decodeBackend_backendHdr_init (l : BitVec 5) (ctx : Ctx) :
    decodeBackend (backendHdr 0b01#2 l) ctx = .ok (.reqInit l) := by
  have h1 : (backendHdr 0b01#2 l).extractLsb' 6 2 = 0b01#2 := by revert l; decide
  have h2 : (backendHdr 0b01#2 l).extractLsb' 1 5 = l := by revert l; decide
  have h3 : (backendHdr 0b01#2 l).extractLsb' 0 1 = 0#1 := by revert l; decide
  simp [decodeBackend, h1, h2, h3]

theorem decodeBackend_backendHdr_apply (l : BitVec 5) (ctx : Ctx) :
    decodeBackend (backendHdr 0b10#2 l) ctx = .ok (.reqApply l ctx) := by
  have h1 : (backendHdr 0b10#2 l).extractLsb' 6 2 = 0b10#2 := by revert l; decide
  have h2 : (backendHdr 0b10#2 l).extractLsb' 1 5 = l := by revert l; decide
  have h3 : (backendHdr 0b10#2 l).extractLsb' 0 1 = 0#1 := by revert l; decide
  simp [decodeBackend, h1, h2, h3]

theorem decodeBackend_backendHdr_destroy (l : BitVec 5) (ctx : Ctx) :
    decodeBackend (backendHdr 0b11#2 l) ctx = .ok (.reqDestroy ctx) := by
  have h1 : (backendHdr 0b11#2 l).extractLsb' 6 2 = 0b11#2 := by revert l; decide
  simp [decodeBackend, h1]

end Sys2Proof
end

