-- ==== Sys2Proof/Laws/State.lean ====
section
/-! SUPPORT. One lemma per field per state update, so that no proof unfolds a record update. -/

namespace Sys2Proof.Machine

/-! `State.enter` -/

@[simp] theorem State.enter_coefs (s : State) (p : BitVec 5) : (s.enter p).coefs = s.coefs := rfl
@[simp] theorem State.enter_s1 (s : State) (p : BitVec 5) : (s.enter p).s1 = s.s1 := rfl
@[simp] theorem State.enter_s2 (s : State) (p : BitVec 5) : (s.enter p).s2 = s.s2 := rfl
@[simp] theorem State.enter_acc (s : State) (p : BitVec 5) : (s.enter p).acc = s.acc := rfl
@[simp] theorem State.enter_pkPow (s : State) (p : BitVec 5) : (s.enter p).pkPow = s.pkPow := rfl
@[simp] theorem State.enter_pkIdx (s : State) (p : BitVec 5) : (s.enter p).pkIdx = s.pkIdx := rfl
@[simp] theorem State.enter_resFreq (s : State) (p : BitVec 5) : (s.enter p).resFreq = s.resFreq := rfl
@[simp] theorem State.enter_resAmp (s : State) (p : BitVec 5) : (s.enter p).resAmp = s.resAmp := rfl
@[simp] theorem State.enter_resRms (s : State) (p : BitVec 5) : (s.enter p).resRms = s.resRms := rfl
@[simp] theorem State.enter_ctx (s : State) (p : BitVec 5) : (s.enter p).ctx = s.ctx := rfl
@[simp] theorem State.enter_ctxv (s : State) (p : BitVec 5) : (s.enter p).ctxv = s.ctxv := rfl
@[simp] theorem State.enter_phase (s : State) (p : BitVec 5) : (s.enter p).phase = p := rfl
@[simp] theorem State.enter_idx (s : State) (p : BitVec 5) : (s.enter p).idx = if walks p then 0#_ else s.idx := rfl
@[simp] theorem State.enter_wptr (s : State) (p : BitVec 5) : (s.enter p).wptr = if p = Phase.load then 0#_ else s.wptr := rfl
@[simp] theorem State.enter_stopf (s : State) (p : BitVec 5) : (s.enter p).stopf = s.stopf := rfl
@[simp] theorem State.enter_err (s : State) (p : BitVec 5) : (s.enter p).err = s.err := rfl
@[simp] theorem State.enter_sampleRate (s : State) (p : BitVec 5) : (s.enter p).sampleRate = s.sampleRate := rfl
@[simp] theorem State.enter_log2n (s : State) (p : BitVec 5) : (s.enter p).log2n = s.log2n := rfl
@[simp] theorem State.enter_flags (s : State) (p : BitVec 5) : (s.enter p).flags = s.flags := rfl
@[simp] theorem State.enter_mem (s : State) (p : BitVec 5) : (s.enter p).mem = s.mem := rfl
@[simp] theorem State.enter_sent (s : State) (p : BitVec 5) : (s.enter p).sent = if p = Phase.emit then 0 else s.sent := rfl
@[simp] theorem State.enter_fftPort (s : State) (p : BitVec 5) : (s.enter p).fftPort = s.fftPort := rfl
@[simp] theorem State.enter_env (s : State) (p : BitVec 5) : (s.enter p).env = s.env := rfl

/-! `State.raiseFatal` -/

@[simp] theorem State.raiseFatal_coefs (s : State) (c : BitVec 8) : (s.raiseFatal c).coefs = s.coefs := rfl
@[simp] theorem State.raiseFatal_s1 (s : State) (c : BitVec 8) : (s.raiseFatal c).s1 = s.s1 := rfl
@[simp] theorem State.raiseFatal_s2 (s : State) (c : BitVec 8) : (s.raiseFatal c).s2 = s.s2 := rfl
@[simp] theorem State.raiseFatal_acc (s : State) (c : BitVec 8) : (s.raiseFatal c).acc = s.acc := rfl
@[simp] theorem State.raiseFatal_pkPow (s : State) (c : BitVec 8) : (s.raiseFatal c).pkPow = s.pkPow := rfl
@[simp] theorem State.raiseFatal_pkIdx (s : State) (c : BitVec 8) : (s.raiseFatal c).pkIdx = s.pkIdx := rfl
@[simp] theorem State.raiseFatal_resFreq (s : State) (c : BitVec 8) : (s.raiseFatal c).resFreq = s.resFreq := rfl
@[simp] theorem State.raiseFatal_resAmp (s : State) (c : BitVec 8) : (s.raiseFatal c).resAmp = s.resAmp := rfl
@[simp] theorem State.raiseFatal_resRms (s : State) (c : BitVec 8) : (s.raiseFatal c).resRms = s.resRms := rfl
@[simp] theorem State.raiseFatal_ctx (s : State) (c : BitVec 8) : (s.raiseFatal c).ctx = s.ctx := rfl
@[simp] theorem State.raiseFatal_ctxv (s : State) (c : BitVec 8) : (s.raiseFatal c).ctxv = s.ctxv := rfl
@[simp] theorem State.raiseFatal_phase (s : State) (c : BitVec 8) : (s.raiseFatal c).phase = Phase.fatal := rfl
@[simp] theorem State.raiseFatal_idx (s : State) (c : BitVec 8) : (s.raiseFatal c).idx = s.idx := rfl
@[simp] theorem State.raiseFatal_wptr (s : State) (c : BitVec 8) : (s.raiseFatal c).wptr = s.wptr := rfl
@[simp] theorem State.raiseFatal_stopf (s : State) (c : BitVec 8) : (s.raiseFatal c).stopf = s.stopf := rfl
@[simp] theorem State.raiseFatal_err (s : State) (c : BitVec 8) : (s.raiseFatal c).err = c := rfl
@[simp] theorem State.raiseFatal_sampleRate (s : State) (c : BitVec 8) : (s.raiseFatal c).sampleRate = s.sampleRate := rfl
@[simp] theorem State.raiseFatal_log2n (s : State) (c : BitVec 8) : (s.raiseFatal c).log2n = s.log2n := rfl
@[simp] theorem State.raiseFatal_flags (s : State) (c : BitVec 8) : (s.raiseFatal c).flags = s.flags := rfl
@[simp] theorem State.raiseFatal_mem (s : State) (c : BitVec 8) : (s.raiseFatal c).mem = s.mem := rfl
@[simp] theorem State.raiseFatal_sent (s : State) (c : BitVec 8) : (s.raiseFatal c).sent = s.sent := rfl
@[simp] theorem State.raiseFatal_fftPort (s : State) (c : BitVec 8) : (s.raiseFatal c).fftPort = s.fftPort := rfl
@[simp] theorem State.raiseFatal_env (s : State) (c : BitVec 8) : (s.raiseFatal c).env = s.env := rfl

/-! `State.storeWord` -/

@[simp] theorem State.storeWord_coefs (s : State) (k : BufId) (i : Nat) (v : Word) : (s.storeWord k i v).coefs = s.coefs := rfl
@[simp] theorem State.storeWord_s1 (s : State) (k : BufId) (i : Nat) (v : Word) : (s.storeWord k i v).s1 = s.s1 := rfl
@[simp] theorem State.storeWord_s2 (s : State) (k : BufId) (i : Nat) (v : Word) : (s.storeWord k i v).s2 = s.s2 := rfl
@[simp] theorem State.storeWord_acc (s : State) (k : BufId) (i : Nat) (v : Word) : (s.storeWord k i v).acc = s.acc := rfl
@[simp] theorem State.storeWord_pkPow (s : State) (k : BufId) (i : Nat) (v : Word) : (s.storeWord k i v).pkPow = s.pkPow := rfl
@[simp] theorem State.storeWord_pkIdx (s : State) (k : BufId) (i : Nat) (v : Word) : (s.storeWord k i v).pkIdx = s.pkIdx := rfl
@[simp] theorem State.storeWord_resFreq (s : State) (k : BufId) (i : Nat) (v : Word) : (s.storeWord k i v).resFreq = s.resFreq := rfl
@[simp] theorem State.storeWord_resAmp (s : State) (k : BufId) (i : Nat) (v : Word) : (s.storeWord k i v).resAmp = s.resAmp := rfl
@[simp] theorem State.storeWord_resRms (s : State) (k : BufId) (i : Nat) (v : Word) : (s.storeWord k i v).resRms = s.resRms := rfl
@[simp] theorem State.storeWord_ctx (s : State) (k : BufId) (i : Nat) (v : Word) : (s.storeWord k i v).ctx = s.ctx := rfl
@[simp] theorem State.storeWord_ctxv (s : State) (k : BufId) (i : Nat) (v : Word) : (s.storeWord k i v).ctxv = s.ctxv := rfl
@[simp] theorem State.storeWord_phase (s : State) (k : BufId) (i : Nat) (v : Word) : (s.storeWord k i v).phase = s.phase := rfl
@[simp] theorem State.storeWord_idx (s : State) (k : BufId) (i : Nat) (v : Word) : (s.storeWord k i v).idx = s.idx := rfl
@[simp] theorem State.storeWord_wptr (s : State) (k : BufId) (i : Nat) (v : Word) : (s.storeWord k i v).wptr = s.wptr := rfl
@[simp] theorem State.storeWord_stopf (s : State) (k : BufId) (i : Nat) (v : Word) : (s.storeWord k i v).stopf = s.stopf := rfl
@[simp] theorem State.storeWord_err (s : State) (k : BufId) (i : Nat) (v : Word) : (s.storeWord k i v).err = s.err := rfl
@[simp] theorem State.storeWord_sampleRate (s : State) (k : BufId) (i : Nat) (v : Word) : (s.storeWord k i v).sampleRate = s.sampleRate := rfl
@[simp] theorem State.storeWord_log2n (s : State) (k : BufId) (i : Nat) (v : Word) : (s.storeWord k i v).log2n = s.log2n := rfl
@[simp] theorem State.storeWord_flags (s : State) (k : BufId) (i : Nat) (v : Word) : (s.storeWord k i v).flags = s.flags := rfl
@[simp] theorem State.storeWord_mem (s : State) (k : BufId) (i : Nat) (v : Word) : (s.storeWord k i v).mem = s.mem.set k (bufWrite i v (s.mem.get k)) := rfl
@[simp] theorem State.storeWord_sent (s : State) (k : BufId) (i : Nat) (v : Word) : (s.storeWord k i v).sent = s.sent := rfl
@[simp] theorem State.storeWord_fftPort (s : State) (k : BufId) (i : Nat) (v : Word) : (s.storeWord k i v).fftPort = s.fftPort := rfl
@[simp] theorem State.storeWord_env (s : State) (k : BufId) (i : Nat) (v : Word) : (s.storeWord k i v).env = s.env := rfl

/-! `State.storeFrame` -/

@[simp] theorem State.storeFrame_coefs (s : State) (k : BufId) (ws : List Word) : (s.storeFrame k ws).coefs = s.coefs := rfl
@[simp] theorem State.storeFrame_s1 (s : State) (k : BufId) (ws : List Word) : (s.storeFrame k ws).s1 = s.s1 := rfl
@[simp] theorem State.storeFrame_s2 (s : State) (k : BufId) (ws : List Word) : (s.storeFrame k ws).s2 = s.s2 := rfl
@[simp] theorem State.storeFrame_acc (s : State) (k : BufId) (ws : List Word) : (s.storeFrame k ws).acc = s.acc := rfl
@[simp] theorem State.storeFrame_pkPow (s : State) (k : BufId) (ws : List Word) : (s.storeFrame k ws).pkPow = s.pkPow := rfl
@[simp] theorem State.storeFrame_pkIdx (s : State) (k : BufId) (ws : List Word) : (s.storeFrame k ws).pkIdx = s.pkIdx := rfl
@[simp] theorem State.storeFrame_resFreq (s : State) (k : BufId) (ws : List Word) : (s.storeFrame k ws).resFreq = s.resFreq := rfl
@[simp] theorem State.storeFrame_resAmp (s : State) (k : BufId) (ws : List Word) : (s.storeFrame k ws).resAmp = s.resAmp := rfl
@[simp] theorem State.storeFrame_resRms (s : State) (k : BufId) (ws : List Word) : (s.storeFrame k ws).resRms = s.resRms := rfl
@[simp] theorem State.storeFrame_ctx (s : State) (k : BufId) (ws : List Word) : (s.storeFrame k ws).ctx = s.ctx := rfl
@[simp] theorem State.storeFrame_ctxv (s : State) (k : BufId) (ws : List Word) : (s.storeFrame k ws).ctxv = s.ctxv := rfl
@[simp] theorem State.storeFrame_phase (s : State) (k : BufId) (ws : List Word) : (s.storeFrame k ws).phase = s.phase := rfl
@[simp] theorem State.storeFrame_idx (s : State) (k : BufId) (ws : List Word) : (s.storeFrame k ws).idx = s.idx := rfl
@[simp] theorem State.storeFrame_wptr (s : State) (k : BufId) (ws : List Word) : (s.storeFrame k ws).wptr = s.wptr := rfl
@[simp] theorem State.storeFrame_stopf (s : State) (k : BufId) (ws : List Word) : (s.storeFrame k ws).stopf = s.stopf := rfl
@[simp] theorem State.storeFrame_err (s : State) (k : BufId) (ws : List Word) : (s.storeFrame k ws).err = s.err := rfl
@[simp] theorem State.storeFrame_sampleRate (s : State) (k : BufId) (ws : List Word) : (s.storeFrame k ws).sampleRate = s.sampleRate := rfl
@[simp] theorem State.storeFrame_log2n (s : State) (k : BufId) (ws : List Word) : (s.storeFrame k ws).log2n = s.log2n := rfl
@[simp] theorem State.storeFrame_flags (s : State) (k : BufId) (ws : List Word) : (s.storeFrame k ws).flags = s.flags := rfl
@[simp] theorem State.storeFrame_mem (s : State) (k : BufId) (ws : List Word) : (s.storeFrame k ws).mem = s.mem.set k (bufOverlay ws (s.mem.get k)) := rfl
@[simp] theorem State.storeFrame_sent (s : State) (k : BufId) (ws : List Word) : (s.storeFrame k ws).sent = s.sent := rfl
@[simp] theorem State.storeFrame_fftPort (s : State) (k : BufId) (ws : List Word) : (s.storeFrame k ws).fftPort = s.fftPort := rfl
@[simp] theorem State.storeFrame_env (s : State) (k : BufId) (ws : List Word) : (s.storeFrame k ws).env = s.env := rfl

/-! `State.release` -/

@[simp] theorem State.release_coefs (s : State) : (s.release).coefs = s.coefs := rfl
@[simp] theorem State.release_s1 (s : State) : (s.release).s1 = s.s1 := rfl
@[simp] theorem State.release_s2 (s : State) : (s.release).s2 = s.s2 := rfl
@[simp] theorem State.release_acc (s : State) : (s.release).acc = s.acc := rfl
@[simp] theorem State.release_pkPow (s : State) : (s.release).pkPow = s.pkPow := rfl
@[simp] theorem State.release_pkIdx (s : State) : (s.release).pkIdx = s.pkIdx := rfl
@[simp] theorem State.release_resFreq (s : State) : (s.release).resFreq = s.resFreq := rfl
@[simp] theorem State.release_resAmp (s : State) : (s.release).resAmp = s.resAmp := rfl
@[simp] theorem State.release_resRms (s : State) : (s.release).resRms = s.resRms := rfl
@[simp] theorem State.release_ctx (s : State) : (s.release).ctx = s.ctx := rfl
@[simp] theorem State.release_ctxv (s : State) : (s.release).ctxv = s.ctxv := rfl
@[simp] theorem State.release_phase (s : State) : (s.release).phase = s.phase := rfl
@[simp] theorem State.release_idx (s : State) : (s.release).idx = s.idx := rfl
@[simp] theorem State.release_wptr (s : State) : (s.release).wptr = s.wptr := rfl
@[simp] theorem State.release_stopf (s : State) : (s.release).stopf = s.stopf := rfl
@[simp] theorem State.release_err (s : State) : (s.release).err = s.err := rfl
@[simp] theorem State.release_sampleRate (s : State) : (s.release).sampleRate = s.sampleRate := rfl
@[simp] theorem State.release_log2n (s : State) : (s.release).log2n = s.log2n := rfl
@[simp] theorem State.release_flags (s : State) : (s.release).flags = s.flags := rfl
@[simp] theorem State.release_mem (s : State) : (s.release).mem = s.mem := rfl
@[simp] theorem State.release_sent (s : State) : (s.release).sent = s.sent := rfl
@[simp] theorem State.release_fftPort (s : State) : (s.release).fftPort = .idle := rfl
@[simp] theorem State.release_env (s : State) : (s.release).env = s.env := rfl

/-! `State.spend` -/

@[simp] theorem State.spend_coefs (s : State) : (s.spend).coefs = s.coefs := rfl
@[simp] theorem State.spend_s1 (s : State) : (s.spend).s1 = s.s1 := rfl
@[simp] theorem State.spend_s2 (s : State) : (s.spend).s2 = s.s2 := rfl
@[simp] theorem State.spend_acc (s : State) : (s.spend).acc = s.acc := rfl
@[simp] theorem State.spend_pkPow (s : State) : (s.spend).pkPow = s.pkPow := rfl
@[simp] theorem State.spend_pkIdx (s : State) : (s.spend).pkIdx = s.pkIdx := rfl
@[simp] theorem State.spend_resFreq (s : State) : (s.spend).resFreq = s.resFreq := rfl
@[simp] theorem State.spend_resAmp (s : State) : (s.spend).resAmp = s.resAmp := rfl
@[simp] theorem State.spend_resRms (s : State) : (s.spend).resRms = s.resRms := rfl
@[simp] theorem State.spend_ctx (s : State) : (s.spend).ctx = s.ctx := rfl
@[simp] theorem State.spend_ctxv (s : State) : (s.spend).ctxv = s.ctxv := rfl
@[simp] theorem State.spend_phase (s : State) : (s.spend).phase = s.phase := rfl
@[simp] theorem State.spend_idx (s : State) : (s.spend).idx = s.idx := rfl
@[simp] theorem State.spend_wptr (s : State) : (s.spend).wptr = s.wptr := rfl
@[simp] theorem State.spend_stopf (s : State) : (s.spend).stopf = s.stopf := rfl
@[simp] theorem State.spend_err (s : State) : (s.spend).err = s.err := rfl
@[simp] theorem State.spend_sampleRate (s : State) : (s.spend).sampleRate = s.sampleRate := rfl
@[simp] theorem State.spend_log2n (s : State) : (s.spend).log2n = s.log2n := rfl
@[simp] theorem State.spend_flags (s : State) : (s.spend).flags = s.flags := rfl
@[simp] theorem State.spend_mem (s : State) : (s.spend).mem = s.mem := rfl
@[simp] theorem State.spend_sent (s : State) : (s.spend).sent = s.sent := rfl
@[simp] theorem State.spend_fftPort (s : State) : (s.spend).fftPort = s.fftPort := rfl
@[simp] theorem State.spend_env_turns (s : State) : (s.spend).env.turns = s.env.turns := rfl
@[simp] theorem State.spend_env_source (s : State) : (s.spend).env.source = s.env.source := rfl
@[simp] theorem State.spend_env_sink (s : State) : (s.spend).env.sink = s.env.sink := rfl
@[simp] theorem State.spend_env_requests (s : State) : (s.spend).env.requests = s.env.requests := rfl
@[simp] theorem State.spend_env_hRdata (s : State) : (s.spend).env.hRdata = s.env.hRdata := rfl
@[simp] theorem State.spend_env_draws (s : State) : (s.spend).env.draws = s.env.draws + 1 := rfl
@[simp] theorem State.spend_env_epoch (s : State) : (s.spend).env.epoch = s.env.epoch := rfl

/-! `State.offerBeat` -/

@[simp] theorem State.offerBeat_coefs (s : State) (b : BitVec 33) : (s.offerBeat b).coefs = s.coefs := rfl
@[simp] theorem State.offerBeat_s1 (s : State) (b : BitVec 33) : (s.offerBeat b).s1 = s.s1 := rfl
@[simp] theorem State.offerBeat_s2 (s : State) (b : BitVec 33) : (s.offerBeat b).s2 = s.s2 := rfl
@[simp] theorem State.offerBeat_acc (s : State) (b : BitVec 33) : (s.offerBeat b).acc = s.acc := rfl
@[simp] theorem State.offerBeat_pkPow (s : State) (b : BitVec 33) : (s.offerBeat b).pkPow = s.pkPow := rfl
@[simp] theorem State.offerBeat_pkIdx (s : State) (b : BitVec 33) : (s.offerBeat b).pkIdx = s.pkIdx := rfl
@[simp] theorem State.offerBeat_resFreq (s : State) (b : BitVec 33) : (s.offerBeat b).resFreq = s.resFreq := rfl
@[simp] theorem State.offerBeat_resAmp (s : State) (b : BitVec 33) : (s.offerBeat b).resAmp = s.resAmp := rfl
@[simp] theorem State.offerBeat_resRms (s : State) (b : BitVec 33) : (s.offerBeat b).resRms = s.resRms := rfl
@[simp] theorem State.offerBeat_ctx (s : State) (b : BitVec 33) : (s.offerBeat b).ctx = s.ctx := rfl
@[simp] theorem State.offerBeat_ctxv (s : State) (b : BitVec 33) : (s.offerBeat b).ctxv = s.ctxv := rfl
@[simp] theorem State.offerBeat_phase (s : State) (b : BitVec 33) : (s.offerBeat b).phase = s.phase := rfl
@[simp] theorem State.offerBeat_idx (s : State) (b : BitVec 33) : (s.offerBeat b).idx = s.idx := rfl
@[simp] theorem State.offerBeat_wptr (s : State) (b : BitVec 33) : (s.offerBeat b).wptr = s.wptr := rfl
@[simp] theorem State.offerBeat_stopf (s : State) (b : BitVec 33) : (s.offerBeat b).stopf = s.stopf := rfl
@[simp] theorem State.offerBeat_err (s : State) (b : BitVec 33) : (s.offerBeat b).err = s.err := rfl
@[simp] theorem State.offerBeat_sampleRate (s : State) (b : BitVec 33) : (s.offerBeat b).sampleRate = s.sampleRate := rfl
@[simp] theorem State.offerBeat_log2n (s : State) (b : BitVec 33) : (s.offerBeat b).log2n = s.log2n := rfl
@[simp] theorem State.offerBeat_flags (s : State) (b : BitVec 33) : (s.offerBeat b).flags = s.flags := rfl
@[simp] theorem State.offerBeat_mem (s : State) (b : BitVec 33) : (s.offerBeat b).mem = s.mem := rfl
@[simp] theorem State.offerBeat_sent (s : State) (b : BitVec 33) : (s.offerBeat b).sent = s.sent := rfl
@[simp] theorem State.offerBeat_fftPort (s : State) (b : BitVec 33) : (s.offerBeat b).fftPort = s.fftPort := rfl
@[simp] theorem State.offerBeat_env_turns (s : State) (b : BitVec 33) : (s.offerBeat b).env.turns = s.env.turns := rfl
@[simp] theorem State.offerBeat_env_source (s : State) (b : BitVec 33) : (s.offerBeat b).env.source = s.env.source ++ [b] := rfl
@[simp] theorem State.offerBeat_env_sink (s : State) (b : BitVec 33) : (s.offerBeat b).env.sink = s.env.sink := rfl
@[simp] theorem State.offerBeat_env_requests (s : State) (b : BitVec 33) : (s.offerBeat b).env.requests = s.env.requests := rfl
@[simp] theorem State.offerBeat_env_hRdata (s : State) (b : BitVec 33) : (s.offerBeat b).env.hRdata = s.env.hRdata := rfl
@[simp] theorem State.offerBeat_env_draws (s : State) (b : BitVec 33) : (s.offerBeat b).env.draws = s.env.draws := rfl
@[simp] theorem State.offerBeat_env_epoch (s : State) (b : BitVec 33) : (s.offerBeat b).env.epoch = s.env.epoch := rfl

/-! `State.dropBeat` -/

@[simp] theorem State.dropBeat_coefs (s : State) : (s.dropBeat).coefs = s.coefs := rfl
@[simp] theorem State.dropBeat_s1 (s : State) : (s.dropBeat).s1 = s.s1 := rfl
@[simp] theorem State.dropBeat_s2 (s : State) : (s.dropBeat).s2 = s.s2 := rfl
@[simp] theorem State.dropBeat_acc (s : State) : (s.dropBeat).acc = s.acc := rfl
@[simp] theorem State.dropBeat_pkPow (s : State) : (s.dropBeat).pkPow = s.pkPow := rfl
@[simp] theorem State.dropBeat_pkIdx (s : State) : (s.dropBeat).pkIdx = s.pkIdx := rfl
@[simp] theorem State.dropBeat_resFreq (s : State) : (s.dropBeat).resFreq = s.resFreq := rfl
@[simp] theorem State.dropBeat_resAmp (s : State) : (s.dropBeat).resAmp = s.resAmp := rfl
@[simp] theorem State.dropBeat_resRms (s : State) : (s.dropBeat).resRms = s.resRms := rfl
@[simp] theorem State.dropBeat_ctx (s : State) : (s.dropBeat).ctx = s.ctx := rfl
@[simp] theorem State.dropBeat_ctxv (s : State) : (s.dropBeat).ctxv = s.ctxv := rfl
@[simp] theorem State.dropBeat_phase (s : State) : (s.dropBeat).phase = s.phase := rfl
@[simp] theorem State.dropBeat_idx (s : State) : (s.dropBeat).idx = s.idx := rfl
@[simp] theorem State.dropBeat_wptr (s : State) : (s.dropBeat).wptr = s.wptr := rfl
@[simp] theorem State.dropBeat_stopf (s : State) : (s.dropBeat).stopf = s.stopf := rfl
@[simp] theorem State.dropBeat_err (s : State) : (s.dropBeat).err = s.err := rfl
@[simp] theorem State.dropBeat_sampleRate (s : State) : (s.dropBeat).sampleRate = s.sampleRate := rfl
@[simp] theorem State.dropBeat_log2n (s : State) : (s.dropBeat).log2n = s.log2n := rfl
@[simp] theorem State.dropBeat_flags (s : State) : (s.dropBeat).flags = s.flags := rfl
@[simp] theorem State.dropBeat_mem (s : State) : (s.dropBeat).mem = s.mem := rfl
@[simp] theorem State.dropBeat_sent (s : State) : (s.dropBeat).sent = s.sent := rfl
@[simp] theorem State.dropBeat_fftPort (s : State) : (s.dropBeat).fftPort = s.fftPort := rfl
@[simp] theorem State.dropBeat_env_turns (s : State) : (s.dropBeat).env.turns = s.env.turns := rfl
@[simp] theorem State.dropBeat_env_source (s : State) : (s.dropBeat).env.source = s.env.source.tail := rfl
@[simp] theorem State.dropBeat_env_sink (s : State) : (s.dropBeat).env.sink = s.env.sink := rfl
@[simp] theorem State.dropBeat_env_requests (s : State) : (s.dropBeat).env.requests = s.env.requests := rfl
@[simp] theorem State.dropBeat_env_hRdata (s : State) : (s.dropBeat).env.hRdata = s.env.hRdata := rfl
@[simp] theorem State.dropBeat_env_draws (s : State) : (s.dropBeat).env.draws = s.env.draws := rfl
@[simp] theorem State.dropBeat_env_epoch (s : State) : (s.dropBeat).env.epoch = s.env.epoch := rfl

/-! `State.nextTurn` -/

@[simp] theorem State.nextTurn_coefs (s : State) : (s.nextTurn).coefs = s.coefs := rfl
@[simp] theorem State.nextTurn_s1 (s : State) : (s.nextTurn).s1 = s.s1 := rfl
@[simp] theorem State.nextTurn_s2 (s : State) : (s.nextTurn).s2 = s.s2 := rfl
@[simp] theorem State.nextTurn_acc (s : State) : (s.nextTurn).acc = s.acc := rfl
@[simp] theorem State.nextTurn_pkPow (s : State) : (s.nextTurn).pkPow = s.pkPow := rfl
@[simp] theorem State.nextTurn_pkIdx (s : State) : (s.nextTurn).pkIdx = s.pkIdx := rfl
@[simp] theorem State.nextTurn_resFreq (s : State) : (s.nextTurn).resFreq = s.resFreq := rfl
@[simp] theorem State.nextTurn_resAmp (s : State) : (s.nextTurn).resAmp = s.resAmp := rfl
@[simp] theorem State.nextTurn_resRms (s : State) : (s.nextTurn).resRms = s.resRms := rfl
@[simp] theorem State.nextTurn_ctx (s : State) : (s.nextTurn).ctx = s.ctx := rfl
@[simp] theorem State.nextTurn_ctxv (s : State) : (s.nextTurn).ctxv = s.ctxv := rfl
@[simp] theorem State.nextTurn_phase (s : State) : (s.nextTurn).phase = s.phase := rfl
@[simp] theorem State.nextTurn_idx (s : State) : (s.nextTurn).idx = s.idx := rfl
@[simp] theorem State.nextTurn_wptr (s : State) : (s.nextTurn).wptr = s.wptr := rfl
@[simp] theorem State.nextTurn_stopf (s : State) : (s.nextTurn).stopf = s.stopf := rfl
@[simp] theorem State.nextTurn_err (s : State) : (s.nextTurn).err = s.err := rfl
@[simp] theorem State.nextTurn_sampleRate (s : State) : (s.nextTurn).sampleRate = s.sampleRate := rfl
@[simp] theorem State.nextTurn_log2n (s : State) : (s.nextTurn).log2n = s.log2n := rfl
@[simp] theorem State.nextTurn_flags (s : State) : (s.nextTurn).flags = s.flags := rfl
@[simp] theorem State.nextTurn_mem (s : State) : (s.nextTurn).mem = s.mem := rfl
@[simp] theorem State.nextTurn_sent (s : State) : (s.nextTurn).sent = s.sent := rfl
@[simp] theorem State.nextTurn_fftPort (s : State) : (s.nextTurn).fftPort = s.fftPort := rfl
@[simp] theorem State.nextTurn_env_turns (s : State) : (s.nextTurn).env.turns = s.env.turns.tail := rfl
@[simp] theorem State.nextTurn_env_source (s : State) : (s.nextTurn).env.source = s.env.source := rfl
@[simp] theorem State.nextTurn_env_sink (s : State) : (s.nextTurn).env.sink = s.env.sink := rfl
@[simp] theorem State.nextTurn_env_requests (s : State) : (s.nextTurn).env.requests = s.env.requests := rfl
@[simp] theorem State.nextTurn_env_hRdata (s : State) : (s.nextTurn).env.hRdata = s.env.hRdata := rfl
@[simp] theorem State.nextTurn_env_draws (s : State) : (s.nextTurn).env.draws = s.env.draws := rfl
@[simp] theorem State.nextTurn_env_epoch (s : State) : (s.nextTurn).env.epoch = s.env.epoch := rfl

/-! `State.pushTurn` -/

@[simp] theorem State.pushTurn_coefs (s : State) (t : Turn) : (s.pushTurn t).coefs = s.coefs := rfl
@[simp] theorem State.pushTurn_s1 (s : State) (t : Turn) : (s.pushTurn t).s1 = s.s1 := rfl
@[simp] theorem State.pushTurn_s2 (s : State) (t : Turn) : (s.pushTurn t).s2 = s.s2 := rfl
@[simp] theorem State.pushTurn_acc (s : State) (t : Turn) : (s.pushTurn t).acc = s.acc := rfl
@[simp] theorem State.pushTurn_pkPow (s : State) (t : Turn) : (s.pushTurn t).pkPow = s.pkPow := rfl
@[simp] theorem State.pushTurn_pkIdx (s : State) (t : Turn) : (s.pushTurn t).pkIdx = s.pkIdx := rfl
@[simp] theorem State.pushTurn_resFreq (s : State) (t : Turn) : (s.pushTurn t).resFreq = s.resFreq := rfl
@[simp] theorem State.pushTurn_resAmp (s : State) (t : Turn) : (s.pushTurn t).resAmp = s.resAmp := rfl
@[simp] theorem State.pushTurn_resRms (s : State) (t : Turn) : (s.pushTurn t).resRms = s.resRms := rfl
@[simp] theorem State.pushTurn_ctx (s : State) (t : Turn) : (s.pushTurn t).ctx = s.ctx := rfl
@[simp] theorem State.pushTurn_ctxv (s : State) (t : Turn) : (s.pushTurn t).ctxv = s.ctxv := rfl
@[simp] theorem State.pushTurn_phase (s : State) (t : Turn) : (s.pushTurn t).phase = s.phase := rfl
@[simp] theorem State.pushTurn_idx (s : State) (t : Turn) : (s.pushTurn t).idx = s.idx := rfl
@[simp] theorem State.pushTurn_wptr (s : State) (t : Turn) : (s.pushTurn t).wptr = s.wptr := rfl
@[simp] theorem State.pushTurn_stopf (s : State) (t : Turn) : (s.pushTurn t).stopf = s.stopf := rfl
@[simp] theorem State.pushTurn_err (s : State) (t : Turn) : (s.pushTurn t).err = s.err := rfl
@[simp] theorem State.pushTurn_sampleRate (s : State) (t : Turn) : (s.pushTurn t).sampleRate = s.sampleRate := rfl
@[simp] theorem State.pushTurn_log2n (s : State) (t : Turn) : (s.pushTurn t).log2n = s.log2n := rfl
@[simp] theorem State.pushTurn_flags (s : State) (t : Turn) : (s.pushTurn t).flags = s.flags := rfl
@[simp] theorem State.pushTurn_mem (s : State) (t : Turn) : (s.pushTurn t).mem = s.mem := rfl
@[simp] theorem State.pushTurn_sent (s : State) (t : Turn) : (s.pushTurn t).sent = s.sent := rfl
@[simp] theorem State.pushTurn_fftPort (s : State) (t : Turn) : (s.pushTurn t).fftPort = s.fftPort := rfl
@[simp] theorem State.pushTurn_env_turns (s : State) (t : Turn) : (s.pushTurn t).env.turns = t :: s.env.turns := rfl
@[simp] theorem State.pushTurn_env_source (s : State) (t : Turn) : (s.pushTurn t).env.source = s.env.source := rfl
@[simp] theorem State.pushTurn_env_sink (s : State) (t : Turn) : (s.pushTurn t).env.sink = s.env.sink := rfl
@[simp] theorem State.pushTurn_env_requests (s : State) (t : Turn) : (s.pushTurn t).env.requests = s.env.requests := rfl
@[simp] theorem State.pushTurn_env_hRdata (s : State) (t : Turn) : (s.pushTurn t).env.hRdata = s.env.hRdata := rfl
@[simp] theorem State.pushTurn_env_draws (s : State) (t : Turn) : (s.pushTurn t).env.draws = s.env.draws := rfl
@[simp] theorem State.pushTurn_env_epoch (s : State) (t : Turn) : (s.pushTurn t).env.epoch = s.env.epoch := rfl

/-! `State.request` -/

@[simp] theorem State.request_coefs (s : State) (op : BitVec 2) : (s.request op).coefs = s.coefs := rfl
@[simp] theorem State.request_s1 (s : State) (op : BitVec 2) : (s.request op).s1 = s.s1 := rfl
@[simp] theorem State.request_s2 (s : State) (op : BitVec 2) : (s.request op).s2 = s.s2 := rfl
@[simp] theorem State.request_acc (s : State) (op : BitVec 2) : (s.request op).acc = s.acc := rfl
@[simp] theorem State.request_pkPow (s : State) (op : BitVec 2) : (s.request op).pkPow = s.pkPow := rfl
@[simp] theorem State.request_pkIdx (s : State) (op : BitVec 2) : (s.request op).pkIdx = s.pkIdx := rfl
@[simp] theorem State.request_resFreq (s : State) (op : BitVec 2) : (s.request op).resFreq = s.resFreq := rfl
@[simp] theorem State.request_resAmp (s : State) (op : BitVec 2) : (s.request op).resAmp = s.resAmp := rfl
@[simp] theorem State.request_resRms (s : State) (op : BitVec 2) : (s.request op).resRms = s.resRms := rfl
@[simp] theorem State.request_ctx (s : State) (op : BitVec 2) : (s.request op).ctx = s.ctx := rfl
@[simp] theorem State.request_ctxv (s : State) (op : BitVec 2) : (s.request op).ctxv = s.ctxv := rfl
@[simp] theorem State.request_phase (s : State) (op : BitVec 2) : (s.request op).phase = s.phase := rfl
@[simp] theorem State.request_idx (s : State) (op : BitVec 2) : (s.request op).idx = s.idx := rfl
@[simp] theorem State.request_wptr (s : State) (op : BitVec 2) : (s.request op).wptr = s.wptr := rfl
@[simp] theorem State.request_stopf (s : State) (op : BitVec 2) : (s.request op).stopf = s.stopf := rfl
@[simp] theorem State.request_err (s : State) (op : BitVec 2) : (s.request op).err = s.err := rfl
@[simp] theorem State.request_sampleRate (s : State) (op : BitVec 2) : (s.request op).sampleRate = s.sampleRate := rfl
@[simp] theorem State.request_log2n (s : State) (op : BitVec 2) : (s.request op).log2n = s.log2n := rfl
@[simp] theorem State.request_flags (s : State) (op : BitVec 2) : (s.request op).flags = s.flags := rfl
@[simp] theorem State.request_mem (s : State) (op : BitVec 2) : (s.request op).mem = s.mem := rfl
@[simp] theorem State.request_sent (s : State) (op : BitVec 2) : (s.request op).sent = s.sent := rfl
@[simp] theorem State.request_fftPort (s : State) (op : BitVec 2) : (s.request op).fftPort = .requested (backendHdr op s.log2n) s.ctx := rfl
@[simp] theorem State.request_env_turns (s : State) (op : BitVec 2) : (s.request op).env.turns = s.env.turns := rfl
@[simp] theorem State.request_env_source (s : State) (op : BitVec 2) : (s.request op).env.source = s.env.source := rfl
@[simp] theorem State.request_env_sink (s : State) (op : BitVec 2) : (s.request op).env.sink = s.env.sink := rfl
@[simp] theorem State.request_env_requests (s : State) (op : BitVec 2) : (s.request op).env.requests = s.env.requests ++ [(backendHdr op s.log2n, s.ctx)] := rfl
@[simp] theorem State.request_env_hRdata (s : State) (op : BitVec 2) : (s.request op).env.hRdata = s.env.hRdata := rfl
@[simp] theorem State.request_env_draws (s : State) (op : BitVec 2) : (s.request op).env.draws = s.env.draws := rfl
@[simp] theorem State.request_env_epoch (s : State) (op : BitVec 2) : (s.request op).env.epoch = s.env.epoch := rfl

/-! `State.answer` -/

@[simp] theorem State.answer_coefs (s : State) : (s.answer).coefs = s.coefs := rfl
@[simp] theorem State.answer_s1 (s : State) : (s.answer).s1 = s.s1 := rfl
@[simp] theorem State.answer_s2 (s : State) : (s.answer).s2 = s.s2 := rfl
@[simp] theorem State.answer_acc (s : State) : (s.answer).acc = s.acc := rfl
@[simp] theorem State.answer_pkPow (s : State) : (s.answer).pkPow = s.pkPow := rfl
@[simp] theorem State.answer_pkIdx (s : State) : (s.answer).pkIdx = s.pkIdx := rfl
@[simp] theorem State.answer_resFreq (s : State) : (s.answer).resFreq = s.resFreq := rfl
@[simp] theorem State.answer_resAmp (s : State) : (s.answer).resAmp = s.resAmp := rfl
@[simp] theorem State.answer_resRms (s : State) : (s.answer).resRms = s.resRms := rfl
@[simp] theorem State.answer_ctx (s : State) : (s.answer).ctx = s.ctx := rfl
@[simp] theorem State.answer_ctxv (s : State) : (s.answer).ctxv = s.ctxv := rfl
@[simp] theorem State.answer_phase (s : State) : (s.answer).phase = s.phase := rfl
@[simp] theorem State.answer_idx (s : State) : (s.answer).idx = s.idx := rfl
@[simp] theorem State.answer_wptr (s : State) : (s.answer).wptr = s.wptr := rfl
@[simp] theorem State.answer_stopf (s : State) : (s.answer).stopf = s.stopf := rfl
@[simp] theorem State.answer_err (s : State) : (s.answer).err = s.err := rfl
@[simp] theorem State.answer_sampleRate (s : State) : (s.answer).sampleRate = s.sampleRate := rfl
@[simp] theorem State.answer_log2n (s : State) : (s.answer).log2n = s.log2n := rfl
@[simp] theorem State.answer_flags (s : State) : (s.answer).flags = s.flags := rfl
@[simp] theorem State.answer_mem (s : State) : (s.answer).mem = s.mem := rfl
@[simp] theorem State.answer_sent (s : State) : (s.answer).sent = s.sent := rfl
@[simp] theorem State.answer_fftPort (s : State) : (s.answer).fftPort = .done (Config.ctxAnswer s.env.draws) := rfl
@[simp] theorem State.answer_env_turns (s : State) : (s.answer).env.turns = s.env.turns := rfl
@[simp] theorem State.answer_env_source (s : State) : (s.answer).env.source = s.env.source := rfl
@[simp] theorem State.answer_env_sink (s : State) : (s.answer).env.sink = s.env.sink := rfl
@[simp] theorem State.answer_env_requests (s : State) : (s.answer).env.requests = s.env.requests := rfl
@[simp] theorem State.answer_env_hRdata (s : State) : (s.answer).env.hRdata = s.env.hRdata := rfl
@[simp] theorem State.answer_env_draws (s : State) : (s.answer).env.draws = s.env.draws + 1 := rfl
@[simp] theorem State.answer_env_epoch (s : State) : (s.answer).env.epoch = s.env.epoch := rfl

/-! The functions of one or two fields, over the updates that leave those fields alone. -/

@[simp] theorem State.enter_frameSize (s : State) (p : BitVec 5) : (s.enter p).frameSize = s.frameSize := rfl
@[simp] theorem State.enter_fits (s : State) (p : BitVec 5) : (s.enter p).fits = s.fits := rfl
@[simp] theorem State.enter_flagFreq (s : State) (p : BitVec 5) : (s.enter p).flagFreq = s.flagFreq := rfl
@[simp] theorem State.enter_flagAmp (s : State) (p : BitVec 5) : (s.enter p).flagAmp = s.flagAmp := rfl
@[simp] theorem State.enter_flagRms (s : State) (p : BitVec 5) : (s.enter p).flagRms = s.flagRms := rfl
@[simp] theorem State.enter_afterLoad (s : State) (p : BitVec 5) : (s.enter p).afterLoad = s.afterLoad := rfl
@[simp] theorem State.enter_afterRms (s : State) (p : BitVec 5) : (s.enter p).afterRms = s.afterRms := rfl
@[simp] theorem State.raiseFatal_frameSize (s : State) (c : BitVec 8) : (s.raiseFatal c).frameSize = s.frameSize := rfl
@[simp] theorem State.raiseFatal_fits (s : State) (c : BitVec 8) : (s.raiseFatal c).fits = s.fits := rfl
@[simp] theorem State.raiseFatal_flagFreq (s : State) (c : BitVec 8) : (s.raiseFatal c).flagFreq = s.flagFreq := rfl
@[simp] theorem State.raiseFatal_flagAmp (s : State) (c : BitVec 8) : (s.raiseFatal c).flagAmp = s.flagAmp := rfl
@[simp] theorem State.raiseFatal_flagRms (s : State) (c : BitVec 8) : (s.raiseFatal c).flagRms = s.flagRms := rfl
@[simp] theorem State.raiseFatal_afterLoad (s : State) (c : BitVec 8) : (s.raiseFatal c).afterLoad = s.afterLoad := rfl
@[simp] theorem State.raiseFatal_afterRms (s : State) (c : BitVec 8) : (s.raiseFatal c).afterRms = s.afterRms := rfl
@[simp] theorem State.storeWord_frameSize (s : State) (k : BufId) (i : Nat) (v : Word) : (s.storeWord k i v).frameSize = s.frameSize := rfl
@[simp] theorem State.storeWord_fits (s : State) (k : BufId) (i : Nat) (v : Word) : (s.storeWord k i v).fits = s.fits := rfl
@[simp] theorem State.storeWord_flagFreq (s : State) (k : BufId) (i : Nat) (v : Word) : (s.storeWord k i v).flagFreq = s.flagFreq := rfl
@[simp] theorem State.storeWord_flagAmp (s : State) (k : BufId) (i : Nat) (v : Word) : (s.storeWord k i v).flagAmp = s.flagAmp := rfl
@[simp] theorem State.storeWord_flagRms (s : State) (k : BufId) (i : Nat) (v : Word) : (s.storeWord k i v).flagRms = s.flagRms := rfl
@[simp] theorem State.storeWord_afterLoad (s : State) (k : BufId) (i : Nat) (v : Word) : (s.storeWord k i v).afterLoad = s.afterLoad := rfl
@[simp] theorem State.storeWord_afterRms (s : State) (k : BufId) (i : Nat) (v : Word) : (s.storeWord k i v).afterRms = s.afterRms := rfl
@[simp] theorem State.storeFrame_frameSize (s : State) (k : BufId) (ws : List Word) : (s.storeFrame k ws).frameSize = s.frameSize := rfl
@[simp] theorem State.storeFrame_fits (s : State) (k : BufId) (ws : List Word) : (s.storeFrame k ws).fits = s.fits := rfl
@[simp] theorem State.storeFrame_flagFreq (s : State) (k : BufId) (ws : List Word) : (s.storeFrame k ws).flagFreq = s.flagFreq := rfl
@[simp] theorem State.storeFrame_flagAmp (s : State) (k : BufId) (ws : List Word) : (s.storeFrame k ws).flagAmp = s.flagAmp := rfl
@[simp] theorem State.storeFrame_flagRms (s : State) (k : BufId) (ws : List Word) : (s.storeFrame k ws).flagRms = s.flagRms := rfl
@[simp] theorem State.storeFrame_afterLoad (s : State) (k : BufId) (ws : List Word) : (s.storeFrame k ws).afterLoad = s.afterLoad := rfl
@[simp] theorem State.storeFrame_afterRms (s : State) (k : BufId) (ws : List Word) : (s.storeFrame k ws).afterRms = s.afterRms := rfl
@[simp] theorem State.release_frameSize (s : State) : (s.release).frameSize = s.frameSize := rfl
@[simp] theorem State.release_fits (s : State) : (s.release).fits = s.fits := rfl
@[simp] theorem State.release_flagFreq (s : State) : (s.release).flagFreq = s.flagFreq := rfl
@[simp] theorem State.release_flagAmp (s : State) : (s.release).flagAmp = s.flagAmp := rfl
@[simp] theorem State.release_flagRms (s : State) : (s.release).flagRms = s.flagRms := rfl
@[simp] theorem State.release_afterLoad (s : State) : (s.release).afterLoad = s.afterLoad := rfl
@[simp] theorem State.release_afterRms (s : State) : (s.release).afterRms = s.afterRms := rfl
@[simp] theorem State.spend_frameSize (s : State) : (s.spend).frameSize = s.frameSize := rfl
@[simp] theorem State.spend_fits (s : State) : (s.spend).fits = s.fits := rfl
@[simp] theorem State.spend_flagFreq (s : State) : (s.spend).flagFreq = s.flagFreq := rfl
@[simp] theorem State.spend_flagAmp (s : State) : (s.spend).flagAmp = s.flagAmp := rfl
@[simp] theorem State.spend_flagRms (s : State) : (s.spend).flagRms = s.flagRms := rfl
@[simp] theorem State.spend_afterLoad (s : State) : (s.spend).afterLoad = s.afterLoad := rfl
@[simp] theorem State.spend_afterRms (s : State) : (s.spend).afterRms = s.afterRms := rfl
@[simp] theorem State.offerBeat_frameSize (s : State) (b : BitVec 33) : (s.offerBeat b).frameSize = s.frameSize := rfl
@[simp] theorem State.offerBeat_fits (s : State) (b : BitVec 33) : (s.offerBeat b).fits = s.fits := rfl
@[simp] theorem State.offerBeat_flagFreq (s : State) (b : BitVec 33) : (s.offerBeat b).flagFreq = s.flagFreq := rfl
@[simp] theorem State.offerBeat_flagAmp (s : State) (b : BitVec 33) : (s.offerBeat b).flagAmp = s.flagAmp := rfl
@[simp] theorem State.offerBeat_flagRms (s : State) (b : BitVec 33) : (s.offerBeat b).flagRms = s.flagRms := rfl
@[simp] theorem State.offerBeat_afterLoad (s : State) (b : BitVec 33) : (s.offerBeat b).afterLoad = s.afterLoad := rfl
@[simp] theorem State.offerBeat_afterRms (s : State) (b : BitVec 33) : (s.offerBeat b).afterRms = s.afterRms := rfl
@[simp] theorem State.dropBeat_frameSize (s : State) : (s.dropBeat).frameSize = s.frameSize := rfl
@[simp] theorem State.dropBeat_fits (s : State) : (s.dropBeat).fits = s.fits := rfl
@[simp] theorem State.dropBeat_flagFreq (s : State) : (s.dropBeat).flagFreq = s.flagFreq := rfl
@[simp] theorem State.dropBeat_flagAmp (s : State) : (s.dropBeat).flagAmp = s.flagAmp := rfl
@[simp] theorem State.dropBeat_flagRms (s : State) : (s.dropBeat).flagRms = s.flagRms := rfl
@[simp] theorem State.dropBeat_afterLoad (s : State) : (s.dropBeat).afterLoad = s.afterLoad := rfl
@[simp] theorem State.dropBeat_afterRms (s : State) : (s.dropBeat).afterRms = s.afterRms := rfl
@[simp] theorem State.nextTurn_frameSize (s : State) : (s.nextTurn).frameSize = s.frameSize := rfl
@[simp] theorem State.nextTurn_fits (s : State) : (s.nextTurn).fits = s.fits := rfl
@[simp] theorem State.nextTurn_flagFreq (s : State) : (s.nextTurn).flagFreq = s.flagFreq := rfl
@[simp] theorem State.nextTurn_flagAmp (s : State) : (s.nextTurn).flagAmp = s.flagAmp := rfl
@[simp] theorem State.nextTurn_flagRms (s : State) : (s.nextTurn).flagRms = s.flagRms := rfl
@[simp] theorem State.nextTurn_afterLoad (s : State) : (s.nextTurn).afterLoad = s.afterLoad := rfl
@[simp] theorem State.nextTurn_afterRms (s : State) : (s.nextTurn).afterRms = s.afterRms := rfl
@[simp] theorem State.pushTurn_frameSize (s : State) (t : Turn) : (s.pushTurn t).frameSize = s.frameSize := rfl
@[simp] theorem State.pushTurn_fits (s : State) (t : Turn) : (s.pushTurn t).fits = s.fits := rfl
@[simp] theorem State.pushTurn_flagFreq (s : State) (t : Turn) : (s.pushTurn t).flagFreq = s.flagFreq := rfl
@[simp] theorem State.pushTurn_flagAmp (s : State) (t : Turn) : (s.pushTurn t).flagAmp = s.flagAmp := rfl
@[simp] theorem State.pushTurn_flagRms (s : State) (t : Turn) : (s.pushTurn t).flagRms = s.flagRms := rfl
@[simp] theorem State.pushTurn_afterLoad (s : State) (t : Turn) : (s.pushTurn t).afterLoad = s.afterLoad := rfl
@[simp] theorem State.pushTurn_afterRms (s : State) (t : Turn) : (s.pushTurn t).afterRms = s.afterRms := rfl
@[simp] theorem State.request_frameSize (s : State) (op : BitVec 2) : (s.request op).frameSize = s.frameSize := rfl
@[simp] theorem State.request_fits (s : State) (op : BitVec 2) : (s.request op).fits = s.fits := rfl
@[simp] theorem State.request_flagFreq (s : State) (op : BitVec 2) : (s.request op).flagFreq = s.flagFreq := rfl
@[simp] theorem State.request_flagAmp (s : State) (op : BitVec 2) : (s.request op).flagAmp = s.flagAmp := rfl
@[simp] theorem State.request_flagRms (s : State) (op : BitVec 2) : (s.request op).flagRms = s.flagRms := rfl
@[simp] theorem State.request_afterLoad (s : State) (op : BitVec 2) : (s.request op).afterLoad = s.afterLoad := rfl
@[simp] theorem State.request_afterRms (s : State) (op : BitVec 2) : (s.request op).afterRms = s.afterRms := rfl
@[simp] theorem State.answer_frameSize (s : State) : (s.answer).frameSize = s.frameSize := rfl
@[simp] theorem State.answer_fits (s : State) : (s.answer).fits = s.fits := rfl
@[simp] theorem State.answer_flagFreq (s : State) : (s.answer).flagFreq = s.flagFreq := rfl
@[simp] theorem State.answer_flagAmp (s : State) : (s.answer).flagAmp = s.flagAmp := rfl
@[simp] theorem State.answer_flagRms (s : State) : (s.answer).flagRms = s.flagRms := rfl
@[simp] theorem State.answer_afterLoad (s : State) : (s.answer).afterLoad = s.afterLoad := rfl
@[simp] theorem State.answer_afterRms (s : State) : (s.answer).afterRms = s.afterRms := rfl

end Sys2Proof.Machine
end

