-- ==== Sys2Proof/Laws/Memory.lean ====
section
/-! SUPPORT. The laws of the buffers: a read after a write, what a write leaves alone, and that every buffer operation
keeps the canonical form. -/

namespace Sys2Proof.Machine

/-! One buffer: reading. -/

@[simp] theorem bufRead_nil (i : Nat) : bufRead [] i = none := rfl

theorem bufRead_cons (j : Nat) (w : Word) (b : Buf) (i : Nat) :
    bufRead ((j, w) :: b) i = if i = j then some w else bufRead b i := by
  unfold bufRead
  rw [List.lookup_cons]
  by_cases h : i = j
  · simp [h]
  · simp [h, beq_eq_false_iff_ne.mpr h]

theorem bufRead_bufWrite (b : Buf) (i : Nat) (v : Word) (j : Nat) :
    bufRead (bufWrite i v b) j = if j = i then some v else bufRead b j := by
  induction b with
  | nil => simp [bufWrite, bufRead_cons]
  | cons c rest ih =>
    obtain ⟨k, w⟩ := c
    unfold bufWrite
    split
    · simp [bufRead_cons]
    · split
      · rename_i h
        subst h
        simp only [bufRead_cons]
        split <;> rfl
      · rename_i h1 h2
        simp only [bufRead_cons, ih]
        by_cases hj : j = k
        · subst hj
          have : j ≠ i := fun h => h2 h.symm
          simp [this]
        · simp [hj]

theorem bufRead_frameCells_append (ws : List Word) (i : Nat) (b : Buf) (j : Nat) :
    bufRead (frameCells i ws ++ b) j =
      if j < i then bufRead b j else if h : j - i < ws.length then some ws[j - i] else bufRead b j := by
  induction ws generalizing i with
  | nil => simp [frameCells]
  | cons w ws ih =>
    simp only [frameCells, List.cons_append, bufRead_cons, ih]
    rcases lt_trichotomy j i with h | h | h
    · simp [h, Nat.ne_of_lt h, Nat.lt_succ_of_lt h]
    · subst h
      simp
    · have h1 : ¬ j < i := by omega
      have h2 : j ≠ i := by omega
      have h3 : ¬ j < i + 1 := by omega
      obtain ⟨k, hk⟩ : ∃ k, j - i = k + 1 := ⟨j - i - 1, by omega⟩
      have hk' : j - (i + 1) = k := by omega
      simp [h1, h2, h3, hk, hk']

theorem bufRead_filter (n : Nat) (b : Buf) (j : Nat) (h : n ≤ j) :
    bufRead (b.filter (fun c => decide (n ≤ c.1))) j = bufRead b j := by
  induction b with
  | nil => rfl
  | cons c rest ih =>
    obtain ⟨k, w⟩ := c
    by_cases hk : n ≤ k
    · simp [hk, bufRead_cons, ih]
    · have : j ≠ k := by omega
      simp [hk, bufRead_cons, ih, this]

/-- Reading after a frame has been written over a buffer. -/
theorem bufRead_bufOverlay (ws : List Word) (b : Buf) (j : Nat) :
    bufRead (bufOverlay ws b) j = if h : j < ws.length then some ws[j] else bufRead b j := by
  unfold bufOverlay
  rw [bufRead_frameCells_append]
  by_cases h : j < ws.length
  · simp [h]
  · simp [h, bufRead_filter ws.length b j (by omega)]

/-! One buffer: the canonical form. -/

theorem bufWf_iff (b : Buf) : bufWf b = true ↔ b.Pairwise (fun c d => c.1 < d.1) := by
  induction b with
  | nil => simp [bufWf]
  | cons c rest ih =>
    cases rest with
    | nil => simp [bufWf]
    | cons d rest =>
      rw [bufWf, Bool.and_eq_true, ih, List.pairwise_cons (a := c), decide_eq_true_eq]
      constructor
      · rintro ⟨h1, h2⟩
        refine ⟨?_, h2⟩
        intro e he
        rcases List.mem_cons.mp he with rfl | he
        · exact h1
        · exact Nat.lt_trans h1 ((List.pairwise_cons.mp h2).1 e he)
      · rintro ⟨h1, h2⟩
        exact ⟨h1 d List.mem_cons_self, h2⟩

theorem mem_bufWrite {b : Buf} {i : Nat} {v : Word} {c : Nat × Word} (h : c ∈ bufWrite i v b) :
    c = (i, v) ∨ c ∈ b := by
  induction b with
  | nil => simpa [bufWrite] using h
  | cons d rest ih =>
    obtain ⟨k, w⟩ := d
    unfold bufWrite at h
    split at h
    · simpa using h
    · split at h
      · rcases List.mem_cons.mp h with h | h
        · exact .inl h
        · exact .inr (List.mem_cons_of_mem _ h)
      · rcases List.mem_cons.mp h with h | h
        · exact .inr (h ▸ List.mem_cons_self)
        · rcases ih h with h | h
          · exact .inl h
          · exact .inr (List.mem_cons_of_mem _ h)

theorem bufWf_bufWrite {b : Buf} (i : Nat) (v : Word) (h : bufWf b = true) : bufWf (bufWrite i v b) = true := by
  rw [bufWf_iff] at h ⊢
  induction b with
  | nil => simp [bufWrite]
  | cons d rest ih =>
    obtain ⟨k, w⟩ := d
    have hk := List.pairwise_cons.mp h
    unfold bufWrite
    split
    · rename_i hlt
      refine List.pairwise_cons.mpr ⟨?_, h⟩
      intro e he
      rcases List.mem_cons.mp he with rfl | he
      · exact hlt
      · exact Nat.lt_trans hlt (hk.1 e he)
    · split
      · rename_i heq
        subst heq
        exact List.pairwise_cons.mpr ⟨hk.1, hk.2⟩
      · rename_i h1 h2
        refine List.pairwise_cons.mpr ⟨?_, ih hk.2⟩
        intro e he
        rcases mem_bufWrite he with rfl | he
        · simp only
          omega
        · exact hk.1 e he

theorem mem_frameCells {ws : List Word} {i : Nat} {c : Nat × Word} (h : c ∈ frameCells i ws) :
    i ≤ c.1 ∧ c.1 < i + ws.length := by
  induction ws generalizing i with
  | nil => simp [frameCells] at h
  | cons w ws ih =>
    rcases List.mem_cons.mp h with rfl | h
    · simp
    · have := ih h
      simp only [List.length_cons]
      omega

theorem pairwise_frameCells (i : Nat) (ws : List Word) : (frameCells i ws).Pairwise (fun c d => c.1 < d.1) := by
  induction ws generalizing i with
  | nil => simp [frameCells]
  | cons w ws ih =>
    refine List.pairwise_cons.mpr ⟨?_, ih (i + 1)⟩
    intro e he
    exact (mem_frameCells he).1

theorem mem_bufOverlay {ws : List Word} {b : Buf} {c : Nat × Word} (h : c ∈ bufOverlay ws b) :
    c.1 < ws.length ∨ c ∈ b := by
  rcases List.mem_append.mp h with h | h
  · have := mem_frameCells h
    exact .inl (by omega)
  · exact .inr (List.mem_filter.mp h).1

theorem bufWf_bufOverlay (ws : List Word) {b : Buf} (h : bufWf b = true) : bufWf (bufOverlay ws b) = true := by
  rw [bufWf_iff] at h ⊢
  refine List.pairwise_append.mpr ⟨pairwise_frameCells 0 ws, h.filter _, ?_⟩
  intro c hc d hd
  have h1 := (mem_frameCells hc).2
  have h2 := (List.mem_filter.mp hd).2
  simp only [decide_eq_true_eq] at h2
  omega

/-! The five buffers. -/

@[simp] theorem Buffers.get_set (m : Buffers) (k : BufId) (b : Buf) : (m.set k b).get k = b := by
  cases k <;> rfl

theorem Buffers.get_set_other (m : Buffers) {k l : BufId} (b : Buf) (h : l ≠ k) : (m.set k b).get l = m.get l := by
  cases k <;> cases l <;> first | rfl | exact absurd rfl h

theorem Buffers.wf_iff (m : Buffers) : m.wf = true ↔ ∀ k, bufWf (m.get k) = true := by
  constructor
  · intro h k
    simp only [Buffers.wf, Bool.and_eq_true] at h
    cases k <;> simp [Buffers.get, h]
  · intro h
    have := h .xbuf
    have := h .re
    have := h .im
    have := h .win
    have := h .ftab
    simp_all [Buffers.wf, Buffers.get]

/-- Replacing one buffer by a canonical one keeps the form. -/
theorem Buffers.wf_set {m : Buffers} {k : BufId} {b : Buf} (hm : m.wf = true) (hb : bufWf b = true) :
    (m.set k b).wf = true := by
  rw [Buffers.wf_iff] at hm ⊢
  intro l
  by_cases h : l = k
  · subst h
    simpa using hb
  · rw [Buffers.get_set_other m b h]
    exact hm l

/-- `MemWrite` keeps the canonical form. -/
theorem State.storeWord_wf {s : State} (k : BufId) (i : Nat) (v : Word) (h : s.mem.wf = true) :
    (s.storeWord k i v).mem.wf = true :=
  Buffers.wf_set h (bufWf_bufWrite i v ((Buffers.wf_iff _).mp h k))

/-- Writing a frame keeps the canonical form. -/
theorem State.storeFrame_wf {s : State} (k : BufId) (ws : List Word) (h : s.mem.wf = true) :
    (s.storeFrame k ws).mem.wf = true :=
  Buffers.wf_set h (bufWf_bufOverlay ws ((Buffers.wf_iff _).mp h k))

/-- Reset leaves every buffer in canonical form. -/
theorem State.resetWith_wf (e : Env) : (State.resetWith e).mem.wf = true := rfl

/-! Reading a word of the state. -/

/-- A word depends on the buffers and on the number of resets only. -/
theorem State.word_congr {s t : State} (hm : t.mem = s.mem) (he : t.env.epoch = s.env.epoch) (k : BufId) (i : Nat) :
    t.word k i = s.word k i := by
  unfold State.word
  rw [hm, he]

/-- A read after a `MemWrite`. -/
theorem State.word_storeWord (s : State) (k : BufId) (i : Nat) (v : Word) (l : BufId) (j : Nat) :
    (s.storeWord k i v).word l j = if l = k ∧ j = i then v else s.word l j := by
  unfold State.word
  simp only [State.storeWord_mem, State.storeWord_env]
  by_cases h : l = k
  · subst h
    simp only [Buffers.get_set, bufRead_bufWrite, true_and]
    split <;> simp
  · simp [Buffers.get_set_other _ _ h, h]

/-- A read after a frame has been written. -/
theorem State.word_storeFrame (s : State) (k : BufId) (ws : List Word) (l : BufId) (j : Nat) :
    (s.storeFrame k ws).word l j = if h : l = k ∧ j < ws.length then ws[j]'h.2 else s.word l j := by
  unfold State.word
  simp only [State.storeFrame_mem, State.storeFrame_env]
  by_cases h : l = k
  · subst h
    simp only [Buffers.get_set, bufRead_bufOverlay, true_and]
    split <;> simp
  · simp [Buffers.get_set_other _ _ h, h]

@[simp] theorem State.frame_length (s : State) (k : BufId) (n : Nat) : (s.frame k n).length = n := by
  simp [State.frame]

@[simp] theorem State.frame_getElem (s : State) (k : BufId) (n i : Nat) (h : i < (s.frame k n).length) :
    (s.frame k n)[i] = s.word k i := by
  simp [State.frame]

@[simp] theorem State.word_enter (s : State) (p : BitVec 5) (k : BufId) (i : Nat) : (s.enter p).word k i = s.word k i :=
  rfl

@[simp] theorem State.word_spend (s : State) (k : BufId) (i : Nat) : s.spend.word k i = s.word k i := rfl

@[simp] theorem State.word_request (s : State) (op : BitVec 2) (k : BufId) (i : Nat) :
    (s.request op).word k i = s.word k i := rfl

@[simp] theorem State.word_answer (s : State) (k : BufId) (i : Nat) : s.answer.word k i = s.word k i := rfl

@[simp] theorem State.word_release (s : State) (k : BufId) (i : Nat) : s.release.word k i = s.word k i := rfl

@[simp] theorem State.word_dropBeat (s : State) (k : BufId) (i : Nat) : s.dropBeat.word k i = s.word k i := rfl

@[simp] theorem State.word_nextTurn (s : State) (k : BufId) (i : Nat) : s.nextTurn.word k i = s.word k i := rfl

end Sys2Proof.Machine
end

