-- ==== Sys2Proof/Laws/Ops.lean ====
section
/-! SUPPORT. One lemma per shared operation that says once all it can do, for later proofs to cite instead of
unfolding it. -/

namespace Sys2Proof.Machine

/-! Outcomes. -/

theorem State.withBuffers_next {s t u : State} (h : s.withBuffers t = .next u) : s.fits = true ∧ u = t := by
  unfold State.withBuffers at h
  split at h
  · rename_i hf
    cases h
    exact ⟨hf, rfl⟩
  · cases h

theorem State.withBuffers_of_fits {s : State} (t : State) (h : s.fits = true) : s.withBuffers t = .next t := by
  simp [State.withBuffers, h]

theorem State.fits_iff (s : State) : s.fits = true ↔ s.log2n.toNat ≤ Config.maxLog2 := by
  simp [State.fits]

/-- The frame lies inside the buffers. -/
theorem State.frameSize_le {s : State} (h : s.fits = true) : s.frameSize ≤ 2 ^ Config.maxLog2 :=
  Nat.pow_le_pow_right (by decide) ((State.fits_iff s).mp h)

theorem State.frameSize_pos (s : State) : 0 < s.frameSize := Nat.two_pow_pos _

/-- `1 <= LOG2N` makes `N` even and greater than 1 (R21). -/
theorem State.two_mul_half {s : State} (h : 1 ≤ s.log2n.toNat) : 2 * (s.frameSize / 2) = s.frameSize := by
  obtain ⟨k, hk⟩ : ∃ k, s.log2n.toNat = k + 1 := ⟨s.log2n.toNat - 1, by omega⟩
  simp only [State.frameSize, hk, Nat.pow_succ]
  omega

/-- An index up to the depth of the buffers fits `MAXLOG2 + 1` bits (R12, R21). -/
theorem Index.toNat_ofNat {n : Nat} (h : n ≤ 2 ^ Config.maxLog2) : (BitVec.ofNat _ n : Index).toNat = n := by
  rw [BitVec.toNat_ofNat]
  refine Nat.mod_eq_of_lt ?_
  have := Nat.two_pow_pos Config.maxLog2
  rw [Nat.pow_succ]
  omega

theorem Index.toNat_one : (1#_ : Index).toNat = 1 := Index.toNat_ofNat (Nat.two_pow_pos _)

/-- Counting a sample does not wrap (R21). -/
theorem State.wptr_succ {s : State} (hf : s.fits = true) (hw : s.wptr.toNat < s.frameSize) :
    (s.wptr + 1#_).toNat = s.wptr.toNat + 1 := by
  have := State.frameSize_le hf
  have h : s.wptr + 1#_ = (BitVec.ofNat _ (s.wptr.toNat + 1) : Index) := by
    rw [BitVec.ofNat_add]
    simp
  rw [h]
  exact Index.toNat_ofNat (by omega)

/-! The output port. -/

/-- `acceptBeat` transfers the beat on offer, and only it (R84). -/
theorem State.acceptBeat_cases (s : State) (w : BitVec 34) :
    (s.offered = some w ∧
      s.acceptBeat w = { s with sent := s.sent + 1, env := { s.env with sink := s.env.sink ++ [w] } }) ∨
    (s.offered ≠ some w ∧ s.acceptBeat w = s) := by
  unfold State.acceptBeat
  by_cases h : s.offered = some w
  · exact .inl ⟨h, by simp [h]⟩
  · exact .inr ⟨h, by simp [h]⟩

/-- A beat is on offer only in `EMIT`, and it is the next one of the line. -/
theorem State.offered_eq_some {s : State} {w : BitVec 34} (h : s.offered = some w) :
    s.phase = Phase.emit ∧ s.line[s.sent]? = some w := by
  unfold State.offered at h
  split at h
  · rename_i hp
    exact ⟨hp, h⟩
  · cases h

theorem State.offered_lt {s : State} {w : BitVec 34} (h : s.offered = some w) : s.sent < s.line.length := by
  have := (State.offered_eq_some h).2
  exact (List.getElem?_eq_some_iff.mp this).1

/-- A line is one to four beats long. -/
theorem State.line_length (s : State) :
    s.line.length = s.flagFreq.toNat + s.flagAmp.toNat + s.flagRms.toNat + 1 := by
  unfold State.line
  cases s.flagFreq <;> cases s.flagAmp <;> cases s.flagRms <;> rfl

/-- The line depends on FLAGS and the results only. -/
theorem State.line_congr {s t : State} (hf : t.flags = s.flags) (h1 : t.resFreq = s.resFreq) (h2 : t.resAmp = s.resAmp)
    (h3 : t.resRms = s.resRms) : t.line = s.line := by
  unfold State.line State.flagFreq State.flagAmp State.flagRms
  rw [hf, h1, h2, h3]

/-- Each beat of a line is one of its kinds. -/
theorem State.mem_line {s : State} {w : BitVec 34} (h : w ∈ s.line) :
    w = outputWord 0b00#2 s.resFreq ∨ w = outputWord 0b01#2 s.resAmp ∨ w = outputWord 0b10#2 s.resRms ∨
      w = outputWord 0b11#2 0#32 := by
  unfold State.line at h
  cases hf : s.flagFreq <;> cases ha : s.flagAmp <;> cases hr : s.flagRms <;> simp [hf, ha, hr] at h <;> tauto

/-! The backend port. -/

/-- The request read back from the port is the one the table spells. -/
theorem State.outstanding_eq_some {s : State} {i : Instr} (h : s.outstanding = some i) :
    ∃ hdr ctx, s.fftPort = .requested hdr ctx ∧ decodeBackend hdr ctx = .ok i := by
  unfold State.outstanding at h
  split at h
  · rename_i hdr ctx hp
    split at h
    · rename_i j hj
      cases h
      exact ⟨hdr, ctx, hp, hj⟩
    · cases h
  · cases h
  · cases h

theorem State.outstanding_of_requested {s : State} {hdr : BitVec 8} {ctx : Ctx} {i : Instr}
    (hp : s.fftPort = .requested hdr ctx) (hd : decodeBackend hdr ctx = .ok i) : s.outstanding = some i := by
  simp [State.outstanding, hp, hd]

/-! Control transfer. -/

theorem State.raiseFatal_eq (s : State) (code : BitVec 8) :
    s.raiseFatal code = { s with err := code, phase := Phase.fatal } := rfl

theorem State.loadNext_of_full {s : State} (h : s.frameSize ≤ s.wptr.toNat) : s.loadNext = s.enter s.afterLoad :=
  if_neg (Nat.not_lt_of_le h)

/-- `loadNext` changes nothing while the frame has room, and leaves LOAD when it is full (R174). -/
theorem State.loadNext_cases (s : State) :
    (s.wptr.toNat < s.frameSize ∧ s.loadNext = s) ∨ (s.frameSize ≤ s.wptr.toNat ∧ s.loadNext = s.enter s.afterLoad) := by
  rcases Nat.lt_or_ge s.wptr.toNat s.frameSize with h | h
  · exact .inl ⟨h, if_pos h⟩
  · exact .inr ⟨h, State.loadNext_of_full h⟩

@[simp] theorem State.word_loadNext (s : State) (k : BufId) (i : Nat) : s.loadNext.word k i = s.word k i := by
  rcases s.loadNext_cases with ⟨_, h⟩ | ⟨_, h⟩ <;> rw [h]
  rfl

/-- LOAD takes a sample beat: it is stored, counted, and tried as the last of the frame (R174). -/
theorem execLoad_of_sample {s : State} {beat : BitVec 33} {rest : List (BitVec 33)} (hf : s.fits = true)
    (hw : s.wptr.toNat < s.frameSize) (hs : s.env.source = beat :: rest) (hb : beatShort beat = false) :
    execLoad s = .next
      (State.loadNext { s.dropBeat.storeWord .xbuf s.wptr.toNat (beatData beat) with wptr := s.wptr + 1#_ }) := by
  rw [execLoad, if_pos hw]
  simp [hs, hb, State.withBuffers_of_fits _ hf]

theorem State.afterLoad_cases (s : State) :
    (s.flagRms = true ∧ s.afterLoad = Phase.rms) ∨
    (s.flagRms = false ∧ s.flagFreq = true ∧ s.afterLoad = Phase.bq1) ∨
    (s.flagRms = false ∧ s.flagFreq = false ∧ s.afterLoad = Phase.emit) := by
  unfold State.afterLoad
  cases s.flagRms <;> cases s.flagFreq <;> simp

theorem State.afterRms_cases (s : State) :
    (s.flagFreq = true ∧ s.afterRms = Phase.bq1) ∨ (s.flagFreq = false ∧ s.afterRms = Phase.emit) := by
  unfold State.afterRms
  cases s.flagFreq <;> simp

/-! The step. -/

/-- All a step can do: pass a turn of the sink or the backend, run the decoded instruction, or stay stuck. -/
theorem step_cases (s : State) :
    (s.fetch = none ∧ step s = .next s.nextTurn) ∨
    (∃ raw i, s.fetch = some raw ∧ decode raw = .ok i ∧ step s = exec i s.nextTurn) ∨
    (∃ raw why, s.fetch = some raw ∧ decode raw = .error why ∧ step s = .fault (.stuckOn why)) := by
  unfold step
  cases hf : s.fetch with
  | none => exact .inl ⟨rfl, rfl⟩
  | some raw =>
    cases hd : decode raw with
    | ok i => exact .inr (.inl ⟨raw, i, rfl, hd, by simp [hd]⟩)
    | error why => exact .inr (.inr ⟨raw, why, rfl, hd, by simp [hd]⟩)

/-- What a step fetches, by the turn at the head of the list. -/
theorem fetch_cases {s : State} {raw : Raw} (h : s.fetch = some raw) :
    (s.sequencerNext ∧ raw = .phase s.phase) ∨
    (∃ w, s.env.turns.head? = some (.host w) ∧ raw = .host w) ∨
    (∃ w, s.env.turns.head? = some (.source w) ∧ raw = .input w) ∨
    (∃ w, s.env.turns.head? = some .sink ∧ s.offered = some w ∧ raw = .output w) ∨
    (∃ hdr ctx, s.env.turns.head? = some .backend ∧ s.fftPort = .requested hdr ctx ∧ raw = .backend hdr ctx) ∨
    (s.env.turns.head? = some .stopReq ∧ raw = .stopPin 1#1) ∨
    (s.env.turns.head? = some .rst ∧ raw = .rstPin 1#1) := by
  unfold State.fetch at h
  unfold State.sequencerNext
  split at h <;> rename_i ht
  · cases h
    exact .inl ⟨.inl ht, rfl⟩
  · cases h
    exact .inl ⟨.inr (by simp [ht]), rfl⟩
  · cases h
    exact .inr (.inl ⟨_, by simp [ht], rfl⟩)
  · cases h
    exact .inr (.inr (.inl ⟨_, by simp [ht], rfl⟩))
  · rcases ho : s.offered with _ | w
    · simp [ho] at h
    · simp only [ho, Option.map_some, Option.some.injEq] at h
      exact .inr (.inr (.inr (.inl ⟨w, by simp [ht], rfl, h.symm⟩)))
  · split at h
    · rename_i hdr ctx hp
      cases h
      exact .inr (.inr (.inr (.inr (.inl ⟨hdr, ctx, by simp [ht], hp, rfl⟩))))
    · cases h
    · cases h
  · cases h
    exact .inr (.inr (.inr (.inr (.inr (.inl ⟨by simp [ht], rfl⟩)))))
  · cases h
    exact .inr (.inr (.inr (.inr (.inr (.inr ⟨by simp [ht], rfl⟩)))))

end Sys2Proof.Machine
end

