-- ==== Sys2Proof/Laws/Invariant.lean ====
section
/-! SUPPORT. How the shared operations meet the invariant of Safety.lean, piece by piece. -/

namespace Sys2Proof.Machine

/-- What the invariant says of everything but the operation in `PHASE`. -/
structure State.Base (s : State) : Prop where
  mem_wf : s.mem.wf = true
  mem_inside : ∀ k c, c ∈ s.mem.get k → c.1 < 2 ^ Config.maxLog2
  wptr_bound : s.wptr.toNat ≤ 2 ^ Config.maxLog2
  idx_zero : s.idx = 0#_

/-- The part of the invariant that does not speak of the operation in `PHASE`. -/
theorem State.Inv.base {s : State} (h : s.Inv) : s.Base :=
  ⟨h.mem_wf, h.mem_inside, h.wptr_bound, h.idx_zero⟩

/-- Starting an operation keeps the base. -/
theorem State.Base.enter {s : State} (h : s.Base) (p : BitVec 5) : (s.enter p).Base where
  mem_wf := h.mem_wf
  mem_inside := h.mem_inside
  wptr_bound := by
    have := h.wptr_bound
    simp only [State.enter_wptr]
    split
    · simp
    · exact this
  idx_zero := by
    have := h.idx_zero
    simp only [State.enter_idx]
    split <;> simp [*]

/-- Entering operation `p` with a quiet port gives the invariant, if what it says of phase `p` holds. -/
theorem State.inv_enter {s : State} {p : BitVec 5} (hb : s.Base) (legal : p.toNat ≤ 0x11)
    (config_valid : 0x02 ≤ p.toNat → p.toNat ≤ 0x10 → s.validConfig)
    (ctx_live : s.ctxv = true ↔ 0x06 ≤ p.toNat ∧ p.toNat ≤ 0x0F)
    (err_fatal : s.err ≠ 0x00#8 ↔ p = Phase.fatal)
    (err_cause : p = Phase.fatal →
      (s.err = 0x01#8 ∧ s.flagAmp = true ∧ s.flagFreq = false) ∨
      (s.err = 0x02#8 ∧ (s.log2n.toNat = 0 ∨ Config.maxLog2 < s.log2n.toNat)))
    (stop_taken : p = Phase.stopping ∨ p = Phase.stopped → s.stopf = true)
    (port_quiet : s.fftPort = .idle)
    (peak_found : p = Phase.emit → s.flagFreq = true → s.pkIdx.toNat < s.frameSize / 2)
    (freq_path : 0x09 ≤ p.toNat → p.toNat ≤ 0x0D → s.flagFreq = true)
    (rms_path : p = Phase.rms → s.flagRms = true) : (s.enter p).Inv where
  phase_legal := legal
  mem_wf := hb.mem_wf
  mem_inside := hb.mem_inside
  config_valid := config_valid
  ctx_live := ctx_live
  err_fatal := err_fatal
  err_cause := err_cause
  stop_taken := stop_taken
  port_quiet := fun h => absurd port_quiet h
  port_word := fun hdr ctx h => by
    rw [State.enter_fftPort, port_quiet] at h
    cases h
  loading := fun h => by
    have h' : p = Phase.load := h
    simp [h', State.frameSize_pos]
  wptr_bound := (hb.enter p).wptr_bound
  idx_zero := (hb.enter p).idx_zero
  pkIdx_bound := peak_found
  line_bound := fun h => by
    have h' : p = Phase.emit := h
    simp [h']
  freq_path := freq_path
  rms_path := rms_path

/-- Writing a frame inside the buffers keeps the base. -/
theorem State.Base.storeFrame {s : State} (h : s.Base) (k : BufId) (ws : List Word)
    (hl : ws.length ≤ 2 ^ Config.maxLog2) : (s.storeFrame k ws).Base where
  mem_wf := State.storeFrame_wf k ws h.mem_wf
  mem_inside := by
    intro l c hc
    simp only [State.storeFrame_mem] at hc
    by_cases hk : l = k
    · subst hk
      rw [Buffers.get_set] at hc
      rcases mem_bufOverlay hc with h1 | h1
      · omega
      · exact h.mem_inside _ _ h1
    · rw [Buffers.get_set_other _ _ hk] at hc
      exact h.mem_inside _ _ hc
  wptr_bound := h.wptr_bound
  idx_zero := h.idx_zero

/-- Writing a word inside the buffers keeps the base. -/
theorem State.Base.storeWord {s : State} (h : s.Base) (k : BufId) (i : Nat) (v : Word)
    (hi : i < 2 ^ Config.maxLog2) : (s.storeWord k i v).Base where
  mem_wf := State.storeWord_wf k i v h.mem_wf
  mem_inside := by
    intro l c hc
    simp only [State.storeWord_mem] at hc
    by_cases hk : l = k
    · subst hk
      rw [Buffers.get_set] at hc
      rcases mem_bufWrite hc with h1 | h1
      · subst h1
        exact hi
      · exact h.mem_inside _ _ h1
    · rw [Buffers.get_set_other _ _ hk] at hc
      exact h.mem_inside _ _ hc
  wptr_bound := h.wptr_bound
  idx_zero := h.idx_zero

/-- Only the environment differs: the invariant carries over. -/
theorem State.Inv.withEnv {s : State} (h : s.Inv) (e : Env) : ({ s with env := e } : State).Inv :=
  ⟨h.1, h.2, h.3, h.4, h.5, h.6, h.7, h.8, h.9, h.10, h.11, h.12, h.13, h.14, h.15, h.16, h.17⟩

/-- Setting `STOPF` keeps the invariant, in every phase (60_exceptions R206). -/
theorem State.Inv.setStop {s : State} (h : s.Inv) : ({ s with stopf := true } : State).Inv :=
  ⟨h.1, h.2, h.3, h.4, h.5, h.6, h.7, fun _ => rfl, h.9, h.10, h.11, h.12, h.13, h.14, h.15, h.16, h.17⟩

/-- `fft_done` may come at any time a request waits. -/
theorem State.Inv.answer {s : State} (h : s.Inv)
    (hp : s.phase = Phase.fftinit ∨ s.phase = Phase.fft ∨ s.phase = Phase.stopping) : s.answer.Inv :=
  ⟨h.1, h.2, h.3, h.4, h.5, h.6, h.7, h.8, fun _ => hp, fun _ _ hh => by simp at hh, h.11, h.12, h.13, h.14, h.15, h.16, h.17⟩

/-- Outside its three operations the backend port is quiet. -/
theorem State.Inv.quiet_of {s : State} (h : s.Inv) (h1 : s.phase ≠ Phase.fftinit) (h2 : s.phase ≠ Phase.fft)
    (h3 : s.phase ≠ Phase.stopping) : s.fftPort = .idle := by
  by_contra hc
  rcases h.port_quiet hc with h | h | h <;> contradiction

end Sys2Proof.Machine
end

