-- ==== Sys2Proof/Laws/Numeric.lean ====
section
/-! SUPPORT. The fields of the words that the arithmetic builds, and the closure of NaN under the operations. -/

namespace Sys2Proof.Machine

/-- Every drawn NaN is a NaN (93_implementation_defined U1). -/
@[simp] theorem isNaN_nanWord (d : Draw) : isNaN (nanWord d) = true := by
  have hf : (Config.nanFracPred d).val + 1 < 2 ^ 23 := by
    have := (Config.nanFracPred d).isLt
    omega
  have he : (nanWord d).extractLsb' 23 8 = 0xFF#8 := by
    apply BitVec.eq_of_getLsbD_eq
    intro k hk
    simp only [nanWord, BitVec.getLsbD_extractLsb', BitVec.getLsbD_append]
    have h1 : ¬ (23 + k < 23) := by omega
    have h2 : 23 + k - 23 = k := by omega
    simp [h1, h2, hk]
  have hr : (nanWord d).extractLsb' 0 23 = BitVec.ofNat 23 ((Config.nanFracPred d).val + 1) := by
    apply BitVec.eq_of_getLsbD_eq
    intro k hk
    simp only [nanWord, BitVec.getLsbD_extractLsb', BitVec.getLsbD_append]
    have h1 : 0 + k < 23 := by omega
    simp [hk]
  have hm : ((Config.nanFracPred d).val + 1) % 8388608 = (Config.nanFracPred d).val + 1 := Nat.mod_eq_of_lt (by omega)
  simp [isNaN, expField, fracField, he, hr, hm]

/-- The fields of a packed word, its magnitude pattern below 2^31. -/
theorem packWord_fields (neg : Bool) (m : Nat) (hm : m < 2 ^ 31) :
    signBit (packWord neg m) = neg ∧ expField (packWord neg m) = m / 2 ^ 23 ∧ fracField (packWord neg m) = m % 2 ^ 23 := by
  have hv : (packWord neg m).toNat = (if neg then 2 ^ 31 else 0) + m := by
    simp only [packWord, BitVec.toNat_append, BitVec.toNat_ofNat, Nat.mod_eq_of_lt hm]
    rw [Nat.shiftLeft_eq, Nat.mul_comm, ← Nat.two_pow_add_eq_or_of_lt hm]
    cases neg <;> simp
  refine ⟨?_, ?_, ?_⟩
  · have : ((packWord neg m).extractLsb' 31 1).toNat = neg.toNat := by
      simp only [BitVec.extractLsb'_toNat, hv, Nat.shiftRight_eq_div_pow]
      cases neg <;> simp <;> omega
    unfold signBit
    cases neg
    · have h : (packWord false m).extractLsb' 31 1 = 0#1 := BitVec.eq_of_toNat_eq (by simpa using this)
      rw [h]
      rfl
    · have h : (packWord true m).extractLsb' 31 1 = 1#1 := BitVec.eq_of_toNat_eq (by simpa using this)
      rw [h]
      rfl
  · simp only [expField, BitVec.extractLsb'_toNat, hv, Nat.shiftRight_eq_div_pow]
    cases neg <;> simp <;> omega
  · simp only [fracField, BitVec.extractLsb'_toNat, hv, Nat.shiftRight_eq_div_pow]
    cases neg <;> simp <;> omega

/-- The magnitude of a pattern `b * 2^23 + m`, `m` being the significand of the binade or the carry out of it (R13). -/
theorem magUnits_packWord (neg : Bool) (b m : Nat) (hm : m ≤ 2 ^ 24) (hb : b = 0 ∨ 2 ^ 23 ≤ m)
    (hp : b * 2 ^ 23 + m < infBits) : magUnits (packWord neg (b * 2 ^ 23 + m)) = m * 2 ^ b := by
  obtain ⟨-, he, hf⟩ := packWord_fields neg (b * 2 ^ 23 + m) (by simp only [infBits] at hp; omega)
  unfold magUnits
  rw [he, hf]
  rcases Nat.lt_or_ge m (2 ^ 23) with h1 | h1
  · have hb0 : b = 0 := hb.resolve_right (by omega)
    subst hb0
    have e1 : (0 * 2 ^ 23 + m) / 2 ^ 23 = 0 := by omega
    rw [e1, if_pos rfl]
    omega
  · rcases Nat.lt_or_ge m (2 ^ 24) with h2 | h2
    · have e1 : (b * 2 ^ 23 + m) / 2 ^ 23 = b + 1 := by omega
      have e2 : (b * 2 ^ 23 + m) % 2 ^ 23 = m - 2 ^ 23 := by omega
      rw [e1, e2, if_neg (by omega), show 2 ^ 23 + (m - 2 ^ 23) = m by omega, show b + 1 - 1 = b by omega]
    · have e0 : m = 2 ^ 24 := by omega
      have e1 : (b * 2 ^ 23 + m) / 2 ^ 23 = b + 2 := by omega
      have e2 : (b * 2 ^ 23 + m) % 2 ^ 23 = 0 := by omega
      rw [e1, e2, if_neg (by omega), e0, show b + 2 - 1 = b + 1 by omega, Nat.pow_succ]
      omega

/-- Rounding a quotient to a whole number: within one half, and even on a tie. -/
theorem roundHalfEven_spec (num ulp : Nat) (hu : 0 < ulp) :
    let m := roundHalfEven (num / ulp) (num % ulp) ulp
    (2 * m * ulp ≤ 2 * num + ulp) ∧ (2 * num ≤ 2 * m * ulp + ulp) ∧
    (2 * m * ulp = 2 * num + ulp ∨ 2 * num = 2 * m * ulp + ulp → m % 2 = 0) ∧
    num / ulp ≤ m ∧ m ≤ num / ulp + 1 := by
  have hd := Nat.div_add_mod num ulp
  have hr := Nat.mod_lt num hu
  generalize num / ulp = q at *
  generalize num % ulp = r at *
  have e1 : 2 * q * ulp = 2 * (ulp * q) := by rw [Nat.mul_assoc, Nat.mul_comm q]
  have e2 : 2 * (q + 1) * ulp = 2 * (ulp * q) + 2 * ulp := by
    rw [Nat.mul_assoc, Nat.add_mul, Nat.mul_comm q]
    omega
  simp only [roundHalfEven]
  split
  · rw [e2]
    omega
  · rw [e1]
    omega

/-- All that rounding a magnitude does (R14): the pattern is `b * 2^23 + m`, cut off at infinity, where `m * 2^b` is the
multiple of `2^b` nearest to `num / den`, even on a tie, and `2^b` is the spacing of the binade `num / den` lies in. -/
theorem roundUnits_spec (num den : Nat) (hd : 0 < den) :
    ∃ b m, roundUnits num den = min (b * 2 ^ 23 + m) infBits ∧ m ≤ 2 ^ 24 ∧ (b = 0 ∨ 2 ^ 23 ≤ m) ∧
      num < 2 ^ 24 * (den * 2 ^ b) ∧ (b = 0 ∨ 2 ^ 23 * (den * 2 ^ b) ≤ num) ∧
      2 * m * (den * 2 ^ b) ≤ 2 * num + den * 2 ^ b ∧ 2 * num ≤ 2 * m * (den * 2 ^ b) + den * 2 ^ b ∧
      (2 * m * (den * 2 ^ b) = 2 * num + den * 2 ^ b ∨ 2 * num = 2 * m * (den * 2 ^ b) + den * 2 ^ b → m % 2 = 0) := by
  have hu : 0 < den * 2 ^ step23 (num / den) := Nat.mul_pos hd (Nat.two_pow_pos _)
  have hq : num / (den * 2 ^ step23 (num / den)) < 2 ^ 24 ∧
      (step23 (num / den) = 0 ∨ 2 ^ 23 ≤ num / (den * 2 ^ step23 (num / den))) := by
    rw [← Nat.div_div_eq_div_mul]
    generalize num / den = n
    rcases Nat.eq_zero_or_pos n with h0 | h0
    · subst h0
      simp [step23]
    · have h1 : n < 2 ^ (Nat.log2 n + 1) := Nat.lt_log2_self
      have h2 : 2 ^ Nat.log2 n ≤ n := Nat.log2_self_le (by omega)
      unfold step23
      rcases Nat.lt_or_ge (Nat.log2 n) 23 with h3 | h3
      · rw [Nat.sub_eq_zero_of_le (by omega)]
        refine ⟨?_, .inl rfl⟩
        have := Nat.pow_le_pow_right (n := 2) (by decide) (show Nat.log2 n + 1 ≤ 24 by omega)
        simp
        omega
      · obtain ⟨k, hk⟩ : ∃ k, Nat.log2 n = 23 + k := ⟨Nat.log2 n - 23, by omega⟩
        rw [hk] at h1 h2
        rw [hk, show 23 + k - 23 = k by omega]
        refine ⟨?_, .inr ?_⟩
        · rw [Nat.div_lt_iff_lt_mul (Nat.two_pow_pos _), ← Nat.pow_add]
          rwa [show 24 + k = 23 + k + 1 by omega]
        · rw [Nat.le_div_iff_mul_le (Nat.two_pow_pos _), ← Nat.pow_add]
          exact h2
  obtain ⟨s1, s2, s3, s4, s5⟩ := roundHalfEven_spec num _ hu
  refine ⟨step23 (num / den), _, rfl, ?_, ?_, ?_, ?_, s1, s2, s3⟩
  · omega
  · exact hq.2.imp id (fun h => by omega)
  · exact (Nat.div_lt_iff_lt_mul hu).mp hq.1
  · exact hq.2.imp id (fun h => (Nat.le_div_iff_mul_le hu).mp h)

/-- `sqrtBits` finds the whole square root among the numbers from `acc` to `acc + 2^k - 1`. -/
theorem sqrtBits_spec (x k acc : Nat) (h1 : acc * acc ≤ x) (h2 : x < (acc + 2 ^ k) * (acc + 2 ^ k)) :
    let r := sqrtBits x k acc
    r * r ≤ x ∧ x < (r + 1) * (r + 1) ∧ acc ≤ r ∧ r < acc + 2 ^ k := by
  induction k generalizing acc with
  | zero => simpa [sqrtBits] using ⟨h1, h2⟩
  | succ k ih =>
    have hp : 2 ^ (k + 1) = 2 ^ k + 2 ^ k := by omega
    simp only [sqrtBits]
    split
    · rename_i hc
      have := ih (acc + 2 ^ k) hc (by rwa [Nat.add_assoc, ← hp])
      simp only at this
      omega
    · rename_i hc
      have := ih acc h1 (by omega)
      simp only at this
      omega

/-- A rounded magnitude is at most the pattern of infinity. -/
theorem roundUnits_le (num den : Nat) : roundUnits num den ≤ infBits := Nat.min_le_right _ _

/-- Sign reversal keeps the magnitude and turns the sign (R14: the difference is the sum with `-b`). -/
theorem fneg_fields (a : Word) :
    signBit (fneg a) = !signBit a ∧ expField (fneg a) = expField a ∧ fracField (fneg a) = fracField a := by
  have hl : ∀ k, k < 31 → (fneg a).getLsbD k = a.getLsbD k := by
    intro k hk
    have h32 : k < 32 := by omega
    have : (0x80000000#32).getLsbD k = false := by
      interval_cases k <;> rfl
    simp [fneg, this]
  have he : (fneg a).extractLsb' 23 8 = a.extractLsb' 23 8 := by
    apply BitVec.eq_of_getLsbD_eq
    intro k hk
    simp [hk, hl (23 + k) (by omega)]
  have hf : (fneg a).extractLsb' 0 23 = a.extractLsb' 0 23 := by
    apply BitVec.eq_of_getLsbD_eq
    intro k hk
    simp [hk, hl k (by omega)]
  refine ⟨?_, by simp only [expField, he], by simp only [fracField, hf]⟩
  have hx : (fneg a).extractLsb' 31 1 = a.extractLsb' 31 1 ^^^ 1#1 := by
    apply BitVec.eq_of_getLsbD_eq
    intro k hk
    have : k = 0 := by omega
    subst this
    simp [fneg]
  have key : ∀ b : BitVec 1, (b ^^^ 1#1 == 1#1) = !(b == 1#1) := by decide
  simp only [signBit, hx, key]

@[simp] theorem isNaN_fneg (a : Word) : isNaN (fneg a) = isNaN a := by
  simp [isNaN, (fneg_fields a).2.1, (fneg_fields a).2.2]

@[simp] theorem isInf_fneg (a : Word) : isInf (fneg a) = isInf a := by
  simp [isInf, (fneg_fields a).2.1, (fneg_fields a).2.2]

@[simp] theorem isZero_fneg (a : Word) : isZero (fneg a) = isZero a := by
  simp [isZero, (fneg_fields a).2.1, (fneg_fields a).2.2]

@[simp] theorem isFinite_fneg (a : Word) : isFinite (fneg a) = isFinite a := by
  simp [isFinite, (fneg_fields a).2.1]

@[simp] theorem valUnits_fneg (a : Word) : valUnits (fneg a) = -valUnits a := by
  simp only [valUnits, magUnits, (fneg_fields a).1, (fneg_fields a).2.1, (fneg_fields a).2.2]
  cases signBit a <;> simp

end Sys2Proof.Machine
end

