-- ==== Sys2Proof/Laws/PerInstr.lean ====
section
/-! SUPPORT. Facts about every instruction as syntax, one lemma per constructor. -/

namespace Sys2Proof.Laws

/-- An instruction is written in the format of its row (30_encoding R100, R104). -/
def EncodeFormat.Statement (i : Instr) : Prop := (encode i).format = i.format

theorem EncodeFormat.idle : EncodeFormat.Statement .idle := rfl

theorem EncodeFormat.validate : EncodeFormat.Statement .validate := rfl

theorem EncodeFormat.coef : EncodeFormat.Statement .coef := rfl

theorem EncodeFormat.wingen : EncodeFormat.Statement .wingen := rfl

theorem EncodeFormat.ftgen : EncodeFormat.Statement .ftgen := rfl

theorem EncodeFormat.fftinit : EncodeFormat.Statement .fftinit := rfl

theorem EncodeFormat.check : EncodeFormat.Statement .check := rfl

theorem EncodeFormat.load : EncodeFormat.Statement .load := rfl

theorem EncodeFormat.rms : EncodeFormat.Statement .rms := rfl

theorem EncodeFormat.bq1 : EncodeFormat.Statement .bq1 := rfl

theorem EncodeFormat.bq2 : EncodeFormat.Statement .bq2 := rfl

theorem EncodeFormat.window : EncodeFormat.Statement .window := rfl

theorem EncodeFormat.fft : EncodeFormat.Statement .fft := rfl

theorem EncodeFormat.peak : EncodeFormat.Statement .peak := rfl

theorem EncodeFormat.emit : EncodeFormat.Statement .emit := rfl

theorem EncodeFormat.stopping : EncodeFormat.Statement .stopping := rfl

theorem EncodeFormat.stopped : EncodeFormat.Statement .stopped := rfl

theorem EncodeFormat.fatal : EncodeFormat.Statement .fatal := rfl

theorem EncodeFormat.start : EncodeFormat.Statement .start := rfl

theorem EncodeFormat.stop : EncodeFormat.Statement .stop := rfl

theorem EncodeFormat.wr (a : BitVec 4) (b : Word) : EncodeFormat.Statement (.wr a b) := rfl

theorem EncodeFormat.rd (a : BitVec 4) : EncodeFormat.Statement (.rd a) := rfl

theorem EncodeFormat.sample (a : Word) : EncodeFormat.Statement (.sample a) := rfl

theorem EncodeFormat.short : EncodeFormat.Statement .short := rfl

theorem EncodeFormat.freq (a : Word) : EncodeFormat.Statement (.freq a) := rfl

theorem EncodeFormat.amp (a : Word) : EncodeFormat.Statement (.amp a) := rfl

theorem EncodeFormat.rmsv (a : Word) : EncodeFormat.Statement (.rmsv a) := rfl

theorem EncodeFormat.eol : EncodeFormat.Statement .eol := rfl

theorem EncodeFormat.reqInit (a : BitVec 5) : EncodeFormat.Statement (.reqInit a) := rfl

theorem EncodeFormat.reqApply (a : BitVec 5) (b : Ctx) : EncodeFormat.Statement (.reqApply a b) := rfl

theorem EncodeFormat.reqDestroy (a : Ctx) : EncodeFormat.Statement (.reqDestroy a) := rfl

theorem EncodeFormat.stopreq : EncodeFormat.Statement .stopreq := rfl

theorem EncodeFormat.reset : EncodeFormat.Statement .reset := rfl

end Sys2Proof.Laws
end

