-- ==== Sys2Proof/Laws/Rounding.lean ====
section
/-! SUPPORT. That the nearest multiple of the binade's spacing is the correctly rounded value (00_scope R14). -/

namespace Sys2Proof.Machine

/-- A finite value is a 24-bit significand times a power of two (R13). -/
theorem magUnits_form (v : Word) : ∃ k c, magUnits v = k * 2 ^ c ∧ k < 2 ^ 24 := by
  have hf : fracField v < 2 ^ 23 := (v.extractLsb' 0 23).isLt
  unfold magUnits
  split
  · exact ⟨fracField v, 0, by simp, by omega⟩
  · exact ⟨_, _, rfl, by omega⟩

/-- Beside the spacing `2^b`, a representable value is a multiple of it or below its binade. -/
theorem valUnits_spaced (v : Word) (b : Nat) :
    (∃ j : Int, valUnits v = j * 2 ^ b) ∨ (b ≠ 0 ∧ valUnits v < 2 ^ 23 * 2 ^ b) := by
  obtain ⟨k, c, hv, hk⟩ := magUnits_form v
  rcases Nat.lt_or_ge c b with h | h
  · refine .inr ?_
    have h1 : magUnits v < 2 ^ 23 * 2 ^ b := by
      have h2 : k * 2 ^ c < 2 ^ 24 * 2 ^ c := Nat.mul_lt_mul_of_pos_right hk (Nat.two_pow_pos _)
      have h3 : 2 ^ (c + 1) ≤ 2 ^ b := Nat.pow_le_pow_right (by decide) (by omega)
      have h4 : 2 ^ (c + 1) = 2 ^ c + 2 ^ c := by omega
      rw [hv]
      omega
    have h2 : valUnits v ≤ magUnits v := by
      unfold valUnits
      split <;> omega
    refine ⟨by omega, ?_⟩
    calc valUnits v ≤ magUnits v := h2
      _ < 2 ^ 23 * 2 ^ b := by exact_mod_cast h1
  · refine .inl ?_
    obtain ⟨e, rfl⟩ : ∃ e, c = b + e := ⟨c - b, by omega⟩
    refine ⟨if signBit v then -(k * 2 ^ e : Nat) else (k * 2 ^ e : Nat), ?_⟩
    unfold valUnits
    rw [hv]
    split <;> push_cast <;> ring

/-- Sign reversal carries correct rounding over to the negated number. -/
theorem RoundsTo.neg {x : ℝ} {w : Word} (h : RoundsTo x w) : RoundsTo (-x) (fneg w) := by
  obtain ⟨h1, h2, h3⟩ := h
  refine ⟨fun hx => ?_, fun hx => ?_, fun hx => ?_⟩
  · rw [h2 (by linarith)]
    decide
  · rw [h1 (by linarith)]
    decide
  · rw [abs_neg] at hx
    obtain ⟨hf, hn⟩ := h3 hx
    refine ⟨by simpa using hf, fun v hv => ?_⟩
    have hd : ∀ y : ℝ, |-x - y| = |x - -y| := fun y => by
      rw [← abs_neg]
      congr 1
      ring
    have key := hn (fneg v) (by simpa using hv)
    rw [hd, hd, (fneg_fields w).2.2]
    simp only [valUnits_fneg, Int.cast_neg, neg_neg] at key ⊢
    rcases key with key | ⟨k1, k2 | k2⟩
    · exact .inl key
    · exact .inr ⟨k1, .inl (by omega)⟩
    · exact .inr ⟨k1, .inr k2⟩

/-- The nearest multiple `m * 2^b` of the spacing of the binade of `X`, even on a tie, is `X` correctly rounded. -/
theorem roundsTo_of_nearest {X : ℝ} {b m : Nat} (hX : 0 ≤ X) (hm : m ≤ 2 ^ 24) (hb : b = 0 ∨ 2 ^ 23 ≤ m)
    (hlo : b = 0 ∨ (2 : ℝ) ^ 23 * 2 ^ b ≤ X) (h1 : (m : ℝ) * 2 ^ b ≤ X + 2 ^ b / 2) (h2 : X ≤ m * 2 ^ b + 2 ^ b / 2)
    (htie : (m : ℝ) * 2 ^ b = X + 2 ^ b / 2 ∨ X = m * 2 ^ b + 2 ^ b / 2 → m % 2 = 0) :
    RoundsTo X (packWord false (min (b * 2 ^ 23 + m) infBits)) := by
  have hover : (overflowUnits : ℝ) = (2 ^ 25 - 1) * 2 ^ 252 := by
    unfold overflowUnits
    norm_num
  have hpos : (0 : ℝ) < overflowUnits := by rw [hover]; positivity
  have hm' : (m : ℝ) ≤ 2 ^ 24 := by exact_mod_cast hm
  have hbig : (overflowUnits : ℝ) ≤ X → infBits ≤ b * 2 ^ 23 + m := by
    intro hx
    rw [hover] at hx
    rcases Nat.lt_trichotomy b 253 with hb1 | hb1 | hb1
    · have hp : (2 : ℝ) ^ b ≤ 2 ^ 252 := pow_le_pow_right₀ (by norm_num) (by omega)
      exfalso
      have : (m : ℝ) * 2 ^ b ≤ 2 ^ 24 * 2 ^ 252 := mul_le_mul hm' hp (by positivity) (by positivity)
      nlinarith
    · subst hb1
      have hge : 2 ^ 24 - 1 ≤ m := by
        by_contra hc
        have : (m : ℝ) + 1 ≤ 2 ^ 24 - 1 := by
          have : m + 2 ≤ 2 ^ 24 := by omega
          have : (m : ℝ) + 2 ≤ 2 ^ 24 := by exact_mod_cast this
          linarith
        nlinarith [show (2 : ℝ) ^ 253 = 2 * 2 ^ 252 by norm_num]
      rcases Nat.lt_or_ge m (2 ^ 24) with hl | hl
      · have he : m = 2 ^ 24 - 1 := by omega
        have hr : (m : ℝ) = 2 ^ 24 - 1 := by
          rw [he]
          norm_num
        have := htie (.inr (le_antisymm h2 (by
          rw [hr]
          nlinarith [show (2 : ℝ) ^ 253 = 2 * 2 ^ 252 by norm_num])))
        omega
      · unfold infBits
        omega
    · have : 2 ^ 23 ≤ m := hb.resolve_left (by omega)
      unfold infBits
      omega
  have hsmall : X < (overflowUnits : ℝ) → b * 2 ^ 23 + m < infBits := by
    intro hx
    rw [hover] at hx
    by_contra hc
    have hc : infBits ≤ b * 2 ^ 23 + m := Nat.le_of_not_lt hc
    unfold infBits at hc
    rcases Nat.lt_or_ge b 254 with hb1 | hb1
    · have hb2 : b = 253 := by omega
      have hm2 : m = 2 ^ 24 := by omega
      subst hb2
      have hr : (m : ℝ) = 2 ^ 24 := by
        rw [hm2]
        norm_num
      rw [hr] at h1
      nlinarith [show (2 : ℝ) ^ 253 = 2 * 2 ^ 252 by norm_num]
    · have hl := hlo.resolve_left (by omega)
      have hp : (2 : ℝ) ^ 254 ≤ 2 ^ b := pow_le_pow_right₀ (by norm_num) hb1
      nlinarith [show (2 : ℝ) ^ 254 = 4 * 2 ^ 252 by norm_num]
  refine ⟨fun hx => ?_, fun hx => ?_, fun hx => ?_⟩
  · rw [Nat.min_eq_right (hbig hx)]
    rfl
  · linarith
  · rw [abs_of_nonneg hX] at hx
    have hP := hsmall hx
    rw [Nat.min_eq_left (Nat.le_of_lt hP)]
    obtain ⟨hs, he, hf⟩ := packWord_fields false (b * 2 ^ 23 + m) (by simp only [infBits] at hP; omega)
    have hw : (valUnits (packWord false (b * 2 ^ 23 + m)) : ℝ) = m * 2 ^ b := by
      simp only [valUnits, hs, magUnits_packWord false b m hm hb hP]
      push_cast
      rfl
    have habs : |X - m * 2 ^ b| ≤ 2 ^ b / 2 := by
      rw [abs_le]
      constructor <;> linarith
    -- among the multiples of the spacing
    have hmul : ∀ j : Int, |X - m * 2 ^ b| < |X - j * 2 ^ b| ∨
        |X - m * 2 ^ b| = |X - j * 2 ^ b| ∧ (j = m ∨ m % 2 = 0) := by
      intro j
      by_cases hj : j = m
      · exact .inr ⟨by rw [hj]; simp, .inl hj⟩
      · have hd : (2 : ℝ) ^ b ≤ |(j : ℝ) * 2 ^ b - m * 2 ^ b| := by
          rw [← sub_mul, abs_mul, abs_of_pos (show (0 : ℝ) < 2 ^ b by positivity)]
          have : (1 : ℝ) ≤ |(j : ℝ) - m| := by
            have h : (1 : Int) ≤ |j - m| := Int.one_le_abs (sub_ne_zero.mpr hj)
            exact_mod_cast h
          nlinarith [show (0 : ℝ) < 2 ^ b by positivity]
        have ht : |(j : ℝ) * 2 ^ b - m * 2 ^ b| ≤ |X - j * 2 ^ b| + |X - m * 2 ^ b| := by
          rw [show (j : ℝ) * 2 ^ b - m * 2 ^ b = (X - m * 2 ^ b) - (X - j * 2 ^ b) by ring]
          have := abs_sub (X - (m : ℝ) * 2 ^ b) (X - j * 2 ^ b)
          linarith
        rcases lt_or_eq_of_le (show |X - m * 2 ^ b| ≤ |X - j * 2 ^ b| by linarith) with h | h
        · exact .inl h
        · refine .inr ⟨h, .inr (htie ?_)⟩
          have hh : |X - m * 2 ^ b| = 2 ^ b / 2 := by linarith
          rcases abs_eq (show (0 : ℝ) ≤ 2 ^ b / 2 by positivity) |>.mp hh with h | h
          · exact .inr (by linarith)
          · exact .inl (by linarith)
    refine ⟨?_, fun v _ => ?_⟩
    · have hlt : (b * 2 ^ 23 + m) / 2 ^ 23 < 255 := by
        unfold infBits at hP
        omega
      have hne : (b * 2 ^ 23 + m) / 2 ^ 23 ≠ 255 := by omega
      simp only [isFinite, he, bne_iff_ne, ne_eq]
      exact hne
    · rw [hw, hf]
      have hpar : (b * 2 ^ 23 + m) % 2 ^ 23 % 2 = m % 2 := by omega
      rw [hpar]
      rcases valUnits_spaced v b with ⟨j, hj⟩ | ⟨hb0, hlow⟩
      · have hj' : (valUnits v : ℝ) = j * 2 ^ b := by
          rw [hj]
          push_cast
          rfl
        have hjm : j = m → valUnits v = valUnits (packWord false (b * 2 ^ 23 + m)) := by
          intro h
          have : (valUnits v : ℝ) = valUnits (packWord false (b * 2 ^ 23 + m)) := by
            rw [hj', hw, h]
            simp
          exact_mod_cast this
        rw [hj']
        rcases hmul j with h | ⟨h, h'⟩
        · exact .inl h
        · exact .inr ⟨h, h'.imp hjm id⟩
      · have hl := hlo.resolve_left hb0
        have hlow' : (valUnits v : ℝ) < 2 ^ 23 * 2 ^ b := by exact_mod_cast hlow
        have hL := hmul (2 ^ 23)
        rw [show (((2 ^ 23 : Int) : ℝ)) = 2 ^ 23 by norm_num] at hL
        have hXL : |X - 2 ^ 23 * 2 ^ b| = X - 2 ^ 23 * 2 ^ b := abs_of_nonneg (by linarith)
        have hXV : |X - valUnits v| = X - valUnits v := abs_of_nonneg (by linarith)
        rw [hXL] at hL
        rw [hXV]
        refine .inl ?_
        rcases hL with h | ⟨h, -⟩ <;> linarith

/-- A rounded quotient is the exact quotient correctly rounded. -/
theorem roundsTo_roundUnits (num den : Nat) (hd : 0 < den) :
    RoundsTo ((num : ℝ) / den) (packWord false (roundUnits num den)) := by
  obtain ⟨b, m, hr, hm, hb, -, hlo, s1, s2, s3⟩ := roundUnits_spec num den hd
  have hD : (0 : ℝ) < den := by exact_mod_cast hd
  have hc : ∀ y : ℝ, y = y / den * den := fun y => by field_simp
  rw [hr]
  refine roundsTo_of_nearest (by positivity) hm hb (hlo.imp id fun h => ?_) ?_ ?_ (fun h => s3 (h.imp ?_ ?_))
  · rw [le_div_iff₀ hD]
    have : (2 : ℝ) ^ 23 * (den * 2 ^ b) ≤ num := by exact_mod_cast h
    linarith
  · have : 2 * (m : ℝ) * (den * 2 ^ b) ≤ 2 * num + den * 2 ^ b := by exact_mod_cast s1
    rw [← sub_le_iff_le_add, le_div_iff₀ hD]
    linarith
  · have : 2 * (num : ℝ) ≤ 2 * m * (den * 2 ^ b) + den * 2 ^ b := by exact_mod_cast s2
    rw [div_le_iff₀ hD]
    linarith
  · intro h
    have h' : (m : ℝ) * 2 ^ b * den = num + 2 ^ b / 2 * den := by
      rw [h, add_mul, ← hc]
    have : 2 * (m : ℝ) * (den * 2 ^ b) = 2 * num + den * 2 ^ b := by linarith
    exact_mod_cast this
  · intro h
    have h' : (num : ℝ) = (m * 2 ^ b + 2 ^ b / 2) * den := by
      rw [← h, ← hc]
    have : 2 * (num : ℝ) = 2 * m * (den * 2 ^ b) + den * 2 ^ b := by linarith
    exact_mod_cast this

/-- The two signs of a magnitude pattern are each other's reversal. -/
theorem fneg_packWord (m : Nat) : fneg (packWord false m) = packWord true m := by
  have key : ∀ x : BitVec 31, (0#1 ++ x : BitVec 32) ^^^ 0x80000000#32 = (1#1 ++ x : BitVec 32) := by
    intro x
    rw [show (0x80000000#32) = (1#1 ++ 0#31 : BitVec 32) from rfl, BitVec.xor_append]
    simp
  exact key _

/-- The root that `roundSqrtUnits` rounds: the nearest multiple of `2^b` to the root of `z * 2^149`, by squares. -/
theorem roundSqrtUnits_spec (z : Nat) (hz : 0 < z) (hz' : z < 2 ^ 24 * 2 ^ 253) :
    ∃ b m, roundSqrtUnits z = b * 2 ^ 23 + m ∧ m ≤ 2 ^ 24 ∧ 2 ^ 23 ≤ m ∧ b < 200 ∧
      (2 ^ 23 * 2 ^ b) * (2 ^ 23 * 2 ^ b) ≤ z * 2 ^ 149 ∧
      ((2 * m - 1) * 2 ^ b) * ((2 * m - 1) * 2 ^ b) ≤ 4 * (z * 2 ^ 149) ∧
      4 * (z * 2 ^ 149) ≤ ((2 * m + 1) * 2 ^ b) * ((2 * m + 1) * 2 ^ b) ∧
      (((2 * m - 1) * 2 ^ b) * ((2 * m - 1) * 2 ^ b) = 4 * (z * 2 ^ 149) ∨
        4 * (z * 2 ^ 149) = ((2 * m + 1) * 2 ^ b) * ((2 * m + 1) * 2 ^ b) → m % 2 = 0) := by
  have hx : 2 ^ 149 ≤ z * 2 ^ 149 := Nat.le_mul_of_pos_left _ hz
  have hx' : z * 2 ^ 149 < 2 ^ (24 + 253 + 149) := by
    rw [Nat.pow_add, Nat.pow_add]
    exact Nat.mul_lt_mul_of_pos_right hz' (Nat.two_pow_pos _)
  clear hz'
  unfold roundSqrtUnits
  generalize z * 2 ^ 149 = x at *
  dsimp only
  have h1 : x < 2 ^ (Nat.log2 x + 1) := Nat.lt_log2_self
  have h2 : 2 ^ Nat.log2 x ≤ x := Nat.log2_self_le (by have := Nat.two_pow_pos 149; omega)
  have hl : 149 ≤ Nat.log2 x := by
    have : 2 ^ 149 < 2 ^ (Nat.log2 x + 1) := by omega
    have := (Nat.pow_lt_pow_iff_right (by decide : 1 < 2)).mp this
    omega
  have hl' : Nat.log2 x < 426 := (Nat.pow_lt_pow_iff_right (by decide : 1 < 2)).mp (by omega)
  generalize Nat.log2 x = l at *
  obtain ⟨b, hb⟩ : ∃ b, l / 2 = b + 23 := ⟨l / 2 - 23, by omega⟩
  rw [hb, Nat.add_sub_cancel]
  have hlo : 4 ^ 23 * 4 ^ b ≤ x := by
    refine Nat.le_trans ?_ h2
    rw [← Nat.pow_add, show (4 : Nat) = 2 ^ 2 by rfl, ← Nat.pow_mul]
    exact Nat.pow_le_pow_right (by decide) (by omega)
  have hhi : x < 4 ^ 24 * 4 ^ b := by
    refine Nat.lt_of_lt_of_le h1 ?_
    rw [← Nat.pow_add, show (4 : Nat) = 2 ^ 2 by rfl, ← Nat.pow_mul]
    exact Nat.pow_le_pow_right (by decide) (by omega)
  have h4 : 4 ^ b = 2 ^ b * 2 ^ b := by rw [← Nat.mul_pow]
  have hp : 0 < 4 ^ b := Nat.pow_pos (by decide)
  have hy1 : 4 ^ 23 ≤ x / 4 ^ b := (Nat.le_div_iff_mul_le hp).mpr hlo
  have hy2 : x / 4 ^ b < 4 ^ 24 := (Nat.div_lt_iff_lt_mul hp).mpr hhi
  obtain ⟨q1, q2, -, q4⟩ := sqrtBits_spec (x / 4 ^ b) 24 0 (by simp) (by norm_num at hy2 ⊢; exact hy2)
  have hd1 : x / 4 ^ b * 4 ^ b ≤ x := Nat.div_mul_le_self _ _
  have hd2 : x < (x / 4 ^ b + 1) * 4 ^ b := by
    rw [Nat.mul_comm]
    exact Nat.lt_mul_div_succ x hp
  generalize sqrtBits (x / 4 ^ b) 24 0 = q at *
  generalize x / 4 ^ b = y at *
  have hq : 2 ^ 23 ≤ q := by
    by_contra hc
    have : (q + 1) * (q + 1) ≤ 2 ^ 23 * 2 ^ 23 := Nat.mul_le_mul (by omega) (by omega)
    norm_num at this hy1
    omega
  have hxl : q * q * 4 ^ b ≤ x := Nat.le_trans (Nat.mul_le_mul_right _ q1) hd1
  have hxu : x < (q + 1) * (q + 1) * 4 ^ b := Nat.lt_of_lt_of_le hd2 (Nat.mul_le_mul_right _ q2)
  have hsq : ∀ a : Nat, (a * 2 ^ b) * (a * 2 ^ b) = a * a * 4 ^ b := fun a => by
    rw [h4]
    ring
  refine ⟨b, _, rfl, ?_⟩
  simp only [hsq]
  generalize 4 ^ b = u at *
  obtain ⟨r, rfl⟩ : ∃ r, q = r + 1 := ⟨q - 1, by omega⟩
  have hlo' : 2 ^ 23 * 2 ^ 23 * u ≤ x := by
    norm_num at hlo ⊢
    exact hlo
  by_cases hc : (2 * (r + 1) + 1) * (2 * (r + 1) + 1) * u < 4 * x ∨
      (2 * (r + 1) + 1) * (2 * (r + 1) + 1) * u = 4 * x ∧ (r + 1) % 2 = 1
  · simp only [if_pos hc]
    refine ⟨by omega, by omega, by omega, hlo', ?_, ?_, ?_⟩
    · rw [show 2 * (r + 1 + 1) - 1 = 2 * (r + 1) + 1 by omega]
      omega
    · nlinarith
    · rintro (h | h)
      · rw [show 2 * (r + 1 + 1) - 1 = 2 * (r + 1) + 1 by omega] at h
        omega
      · exfalso
        nlinarith
  · simp only [if_neg hc]
    refine ⟨by omega, by omega, by omega, hlo', ?_, by omega, ?_⟩
    · rw [show 2 * (r + 1) - 1 = 2 * r + 1 by omega]
      nlinarith
    · rintro (h | h)
      · exfalso
        rw [show 2 * (r + 1) - 1 = 2 * r + 1 by omega] at h
        nlinarith
      · omega

end Sys2Proof.Machine
end

