-- ==== Sys2Proof/Laws/Walks.lean ====
section
/-! SUPPORT. The walks over a frame: the filter, the sum of squares, the peak search. -/

namespace Sys2Proof.Machine

/-- A filtered frame has the length of its input. -/
@[simp] theorem bqFrame_length (serial : Nat) (c : Coefs) (e : Nat) (cells : Cells) (xs : List Word) :
    (bqFrame serial c e cells xs).1.length = xs.length := by
  induction xs generalizing e cells with
  | nil => rfl
  | cons x xs ih => simp [bqFrame, ih]

/-- Filtering two frames one after the other is filtering their concatenation (40_biquad R135: the cells persist). -/
theorem bqFrame_append (serial : Nat) (c : Coefs) (e : Nat) (cells : Cells) (xs ys : List Word) :
    bqFrame serial c e cells (xs ++ ys) =
      let r := bqFrame serial c e cells xs
      let q := bqFrame serial c (e + xs.length) r.2 ys
      (r.1 ++ q.1, q.2) := by
  induction xs generalizing e cells with
  | nil => simp [bqFrame]
  | cons x xs ih => simp [bqFrame, ih, Nat.add_assoc, Nat.add_comm 1]

/-- The sum over two pieces of a frame. -/
theorem sumSquares_append (serial i : Nat) (acc : Word) (xs ys : List Word) :
    sumSquares serial i acc (xs ++ ys) = sumSquares serial (i + xs.length) (sumSquares serial i acc xs) ys := by
  induction xs generalizing i acc with
  | nil => simp [sumSquares]
  | cons x xs ih => simp [sumSquares, ih, Nat.add_assoc, Nat.add_comm 1]

/-- The search over two pieces of the bins. -/
theorem peakScan_append (serial k : Nat) (pow : Word) (at_ : Nat) (l m : List (Word × Word)) :
    peakScan serial k pow at_ (l ++ m) =
      peakScan serial (k + l.length) (peakScan serial k pow at_ l).1 (peakScan serial k pow at_ l).2 m := by
  induction l generalizing k pow at_ with
  | nil => simp [peakScan]
  | cons b l ih =>
    obtain ⟨re, im⟩ := b
    simp only [List.cons_append, peakScan, List.length_cons]
    split <;> simp [ih, Nat.add_assoc, Nat.add_comm 1]

/-- The reported bin is the one given at the start or one of those scanned. -/
theorem peakScan_index (serial k : Nat) (pow : Word) (at_ : Nat) (l : List (Word × Word)) :
    (peakScan serial k pow at_ l).2 = at_ ∨
      k ≤ (peakScan serial k pow at_ l).2 ∧ (peakScan serial k pow at_ l).2 < k + l.length := by
  induction l generalizing k pow at_ with
  | nil => exact .inl rfl
  | cons c l ih =>
    obtain ⟨re, im⟩ := c
    unfold peakScan
    simp only [List.length_cons]
    split
    · have := ih (k + 1) (binPower serial k re im) k
      omega
    · have := ih (k + 1) pow at_
      omega

end Sys2Proof.Machine
end

