-- ==== Sys2Proof/Tests/Slice0.lean ====
section
/-! SUPPORT. Tests. Expected values are the spec's: the examples of its rules and the vectors of 95_test_vectors, named
beside each theorem. The second half gives, for each statement of Obligations.lean with hypotheses, a state that meets
them together. -/

namespace Sys2Proof.Machine

/-! WellFormed. -/

theorem test_wr_cmd_start_is_ill_formed : (Instr.wr 0x0#4 0xFFFFFFF1#32).wellFormed = false := by decide
theorem test_wr_cmd_stop_is_ill_formed : (Instr.wr 0x0#4 0x00000002#32).wellFormed = false := by decide
theorem test_wr_cmd_reserved_is_well_formed : (Instr.wr 0x0#4 0x00000003#32).wellFormed = true := by decide
theorem test_wr_other_is_well_formed : (Instr.wr 0x5#4 0x00000001#32).wellFormed = true := by decide

/-! Decode: words written out from R102, R103, R107 to R110 and vectors L2-39, L2-73, L2-74, L2-75. -/

theorem test_decode_phases :
    decodePhase 0b00000#5 = .ok .idle ∧ decodePhase 0b00001#5 = .ok .validate ∧ decodePhase 0b00010#5 = .ok .coef ∧
    decodePhase 0b00011#5 = .ok .wingen ∧ decodePhase 0b00100#5 = .ok .ftgen ∧ decodePhase 0b00101#5 = .ok .fftinit ∧
    decodePhase 0b00110#5 = .ok .check ∧ decodePhase 0b00111#5 = .ok .load ∧ decodePhase 0b01000#5 = .ok .rms ∧
    decodePhase 0b01001#5 = .ok .bq1 ∧ decodePhase 0b01010#5 = .ok .bq2 ∧ decodePhase 0b01011#5 = .ok .window ∧
    decodePhase 0b01100#5 = .ok .fft ∧ decodePhase 0b01101#5 = .ok .peak ∧ decodePhase 0b01110#5 = .ok .emit ∧
    decodePhase 0b01111#5 = .ok .stopping ∧ decodePhase 0b10000#5 = .ok .stopped ∧
    decodePhase 0b10001#5 = .ok .fatal ∧ decodePhase 0b10010#5 = .error .reservedPhase := by
  refine ⟨?_, ?_, ?_, ?_, ?_, ?_, ?_, ?_, ?_, ?_, ?_, ?_, ?_, ?_, ?_, ?_, ?_, ?_, ?_⟩ <;> rfl

theorem test_decode_host :
    decodeHost 0x0100000000#37 = .rd 0x1#4 ∧ decodeHost 0x0F00000000#37 = .rd 0xF#4 ∧
    decodeHost 0x1000000001#37 = .start ∧ decodeHost 0x10FFFFFFF1#37 = .start ∧
    decodeHost 0x1000000002#37 = .stop ∧ decodeHost 0x1000000003#37 = .wr 0x0#4 0x00000003#32 ∧
    decodeHost 0x0000000001#37 = .rd 0x0#4 ∧ decodeHost 0x1500000001#37 = .wr 0x5#4 0x00000001#32 := by
  refine ⟨?_, ?_, ?_, ?_, ?_, ?_, ?_, ?_⟩ <;> rfl

theorem test_decode_input :
    decodeInput 0x03F800000#33 = .sample 0x3F800000#32 ∧ decodeInput 0x07FC00000#33 = .sample 0x7FC00000#32 ∧
    decodeInput 0x100000000#33 = .short ∧ decodeInput 0x1DEADBEEF#33 = .short := by
  refine ⟨?_, ?_, ?_, ?_⟩ <;> rfl

theorem test_decode_output :
    decodeOutput 0x0447A0000#34 = .ok (.freq 0x447A0000#32) ∧ decodeOutput 0x141C80000#34 = .ok (.amp 0x41C80000#32) ∧
    decodeOutput 0x23F000000#34 = .ok (.rmsv 0x3F000000#32) ∧ decodeOutput 0x300000000#34 = .ok .eol ∧
    decodeOutput 0x300000001#34 = .error .eolWithData := by
  refine ⟨?_, ?_, ?_, ?_, ?_⟩ <;> rfl

theorem test_decode_backend (ctx : Ctx) :
    decodeBackend 0b01000110#8 ctx = .ok (.reqInit 3#5) ∧ decodeBackend 0b10000110#8 ctx = .ok (.reqApply 3#5 ctx) ∧
    decodeBackend 0b11010101#8 ctx = .ok (.reqDestroy ctx) ∧ decodeBackend 0b01011010#8 ctx = .ok (.reqInit 13#5) ∧
    decodeBackend 0b00000110#8 ctx = .error .noRequest ∧ decodeBackend 0b10000111#8 ctx = .error .inverseRequest := by
  refine ⟨?_, ?_, ?_, ?_, ?_, ?_⟩ <;> rfl

theorem test_decode_pins :
    decode (.stopPin 1#1) = .ok .stopreq ∧ decode (.rstPin 1#1) = .ok .reset ∧ decode (.stopPin 0#1) = .error .pinLow := by
  refine ⟨?_, ?_, ?_⟩ <;> rfl

theorem test_table_word_load : decodeTableWord 8 0x07 = some .load := by rfl
theorem test_table_word_start : decodeTableWord 40 0x1000000001 = some .start := by rfl

/-! Numerics. -/

/-- Some draw; no test's value depends on it. -/
def someDraw : Draw := ⟨0, 0, 0⟩

/-- 0.1 + 0.2, 1.0 - 1.0, the largest value + itself (R14). -/
theorem test_fadd :
    fadd someDraw 0x3DCCCCCD#32 0x3E4CCCCD#32 = 0x3E99999A#32 ∧ fadd someDraw 0x3F800000#32 0xBF800000#32 = 0x00000000#32 ∧
    fadd someDraw 0x7F7FFFFF#32 0x7F7FFFFF#32 = 0x7F800000#32 := by
  decide +kernel

/-- L2-59: 2^-75 squared is 2^-150, a tie, rounded to zero; L2-57: overflow of a square. -/
theorem test_fmul :
    fmul someDraw 0x1A000000#32 0x1A000000#32 = 0x00000000#32 ∧ fmul someDraw 0x7F61B1E6#32 0x7F61B1E6#32 = 0x7F800000#32 := by
  decide +kernel

/-- L2-54: the root of 0.5; R14: the root of -0. -/
theorem test_fsqrt :
    fsqrt someDraw 0x3F000000#32 = 0x3F3504F3#32 ∧ fsqrt someDraw 0x80000000#32 = 0x80000000#32 := by
  decide +kernel

/-- R16's examples. -/
theorem test_i2f :
    i2f 2147483647 = 0x4F000000#32 ∧ i2f (-2147483648) = 0xCF000000#32 ∧ i2f 16777217 = 0x4B800000#32 := by
  decide +kernel

/-- R15: the zeros are equal, -inf is below every finite value, a NaN compares false. -/
theorem test_fgt :
    fgt 0x00000000#32 0x80000000#32 = false ∧ fgt 0xFF7FFFFF#32 0xFF800000#32 = true ∧
    fgt 0x7FC00000#32 0x00000000#32 = false := by decide

/-- R77. -/
theorem test_pack_sample :
    packSample .little 0x00#8 0x00#8 0x80#8 0x3F#8 = 0x3F800000#32 ∧
    packSample .big 0x00#8 0x00#8 0x80#8 0x3F#8 = 0x0000803F#32 := by decide

/-! The meanings. -/

/-- R131's example (L2-7): A = (-0.5, 0.25), B = (0.25, 0.5, 0.25). -/
def dyadic : Coefs :=
  { a0 := 0xBF000000#32, a1 := 0x3E800000#32, b0 := 0x3E800000#32, b1 := 0x3F000000#32, b2 := 0x3E800000#32 }

theorem test_bq_step :
    bqOut 0 0 dyadic ⟨0x3F800000#32, 0x40000000#32, 0x40400000#32, 0x40800000#32⟩ 0x40A00000#32 = 0x40300000#32 := by
  decide +kernel

/-- R132's example: the impulse through the first instance. -/
theorem test_bq1_frame :
    bqFrame 0 dyadic 0 ⟨0#32, 0#32, 0#32, 0#32⟩ [0x3F800000#32, 0#32, 0#32, 0#32] =
      ([0x3E800000#32, 0x3F200000#32, 0x3F000000#32, 0x3DC00000#32], ⟨0#32, 0#32, 0x3DC00000#32, 0x3F000000#32⟩) := by
  decide +kernel

/-- R133's example: the second instance after it. -/
theorem test_bq2_frame :
    bqFrame 0 dyadic 0 ⟨0#32, 0#32, 0#32, 0#32⟩ [0x3E800000#32, 0x3F200000#32, 0x3F000000#32, 0x3DC00000#32] =
      ([0x3D800000#32, 0x3EA00000#32, 0x3F240000#32, 0x3F2C0000#32],
        ⟨0x3DC00000#32, 0x3F000000#32, 0x3F2C0000#32, 0x3F240000#32⟩) := by
  decide +kernel

/-- R140 at the last index for N = 8192: the argument is TWO_PI. -/
theorem test_wingen_argument :
    fdiv someDraw (fmul someDraw fTwoPi (i2f 8191)) (i2f 8191) = 0x40C90FDB#32 := by decide +kernel

/-- L2-30 and L2-37: SAMPLE_RATE 8000 at N = 8, -8000 at N = 4. -/
theorem test_ftgen :
    tableWord 0 8000 8 7 = 0x45DAC000#32 ∧ tableWord 0 8000 8 0 = 0x00000000#32 ∧
    tableWord 0 (-8000) 4 0 = 0x80000000#32 ∧ tableWord 0 (-8000) 4 1 = 0xC4FA0000#32 := by
  decide +kernel

/-- L2-40: powers 1, 25, 25, 25. -/
theorem test_peak_tie :
    peakScan 0 0 fZero 0 [(0x3F800000#32, 0#32), (0x40400000#32, 0x40800000#32), (0#32, 0x40A00000#32),
      (0x40400000#32, 0xC0800000#32)] = (0x41C80000#32, 1) := by decide +kernel

/-- L2-44: the first bin of infinite power wins. -/
theorem test_peak_infinity :
    peakScan 0 0 fZero 0 [(0x3F800000#32, 0#32), (0x7F800000#32, 0#32), (0x7F800000#32, 0#32), (0x40000000#32, 0#32)] =
      (0x7F800000#32, 1) := by decide +kernel

/-- L2-55 and L2-60. -/
theorem test_rms :
    rootMean 0 4 (sumSquares 0 0 fZero [0x40400000#32, 0x40800000#32, 0#32, 0#32]) = 0x40200000#32 ∧
    rootMean 0 4 (sumSquares 0 0 fZero [0x3FC00000#32, 0x40200000#32, 0xC0600000#32, 0x3E800000#32]) = 0x4011FC7E#32 := by
  decide +kernel

/-- R165's pseudocode, worked by hand where R167 promises more: 16 samples of 4091 sum to 267780544, not to
267780496, and the root is two units in the last place above 4091 (log 25). -/
theorem test_rms_constant_frame :
    sumSquares 0 0 fZero (List.replicate 16 0x457FB000#32) = 0x4D7F601C#32 ∧ rootMean 0 16 0x4D7F601C#32 = 0x457FB002#32 := by
  decide +kernel

/-! Small states: `N = 2`, `FLAGS = FREQ + RMS`, every buffer word listed, a stop pending. They exist for every `MAXLOG2`. -/

def tinyMem : Buffers :=
  { xbuf := [(0, 0x3F800000#32), (1, 0x40000000#32)], re := [(0, 0x3F800000#32), (1, 0x40400000#32)]
    im := [(0, 0x00000000#32), (1, 0x00000000#32)], win := [(0, 0x00000000#32), (1, 0x00000000#32)]
    ftab := [(0, 0x00000000#32), (1, 0x457A0000#32)] }

def tiny (p : BitVec 5) (turns : List Turn) (source : List (BitVec 33)) : State :=
  { State.reset with
    log2n := 1#5, flags := 0b101#3, phase := p, ctxv := decide (0x06 ≤ p.toNat ∧ p.toNat ≤ 0x0F), stopf := true
    pkIdx := 0#_, mem := tinyMem, env := { Env.initial with turns := turns, source := source } }

@[simp] theorem tiny_fits (p : BitVec 5) (ts : List Turn) (src : List (BitVec 33)) : (tiny p ts src).fits = true := by
  simpa [State.fits, tiny] using Config.one_le_maxLog2

theorem tiny_validConfig (p : BitVec 5) (ts : List Turn) (src : List (BitVec 33)) : (tiny p ts src).validConfig :=
  ⟨fun _ => by simp [State.flagFreq, tiny], by simp [tiny], by simpa [tiny] using Config.one_le_maxLog2⟩

theorem two_le_depth : 2 ≤ 2 ^ Config.maxLog2 := by
  have := Nat.pow_le_pow_right (n := 2) (by decide) Config.one_le_maxLog2
  simpa using this

theorem tiny_inv (p : BitVec 5) (ts : List Turn) (src : List (BitVec 33)) (hp : p.toNat ≤ 0x10) :
    (tiny p ts src).Inv where
  phase_legal := by show p.toNat ≤ 0x11; omega
  mem_wf := by show tinyMem.wf = true; decide
  mem_inside := by
    have := two_le_depth
    intro k c hc
    cases k <;> simp [tiny, tinyMem, Buffers.get] at hc <;> rcases hc with rfl | rfl <;> simp only <;> omega
  config_valid := fun _ _ => tiny_validConfig p ts src
  ctx_live := by simp [tiny]
  err_fatal := by
    have h : (tiny p ts src).phase ≠ Phase.fatal := by
      intro h
      have : p = Phase.fatal := h
      subst this
      simp at hp
    exact ⟨fun he => absurd rfl he, fun he => absurd he h⟩
  err_cause := by
    intro h
    have : p = Phase.fatal := h
    subst this
    simp at hp
  stop_taken := fun _ => rfl
  port_quiet := fun h => absurd rfl h
  port_word := by
    intro hdr ctx h
    have : FftPort.idle = .requested hdr ctx := h
    cases this
  loading := fun _ => by show 0 < 2 ^ 1; decide
  wptr_bound := Nat.zero_le _
  idx_zero := rfl
  pkIdx_bound := fun _ _ => by show 0 < 2 ^ 1 / 2; decide
  line_bound := fun _ => Nat.zero_le _
  freq_path := fun _ _ => by simp [State.flagFreq, tiny]
  rms_path := fun _ => by simp [State.flagRms, tiny]

/-! One step of a meaning on a small state. -/

/-- R176's example: FLAGS = 0x5 gives FREQ, RMSV, EOL. -/
theorem test_emit_line :
    { tiny Phase.emit [] [] with resFreq := 0#32, resRms := 0#32 }.line =
      [0x000000000#34, 0x200000000#34, 0x300000000#34] := by rfl

/-- L2-72: STATUS in CHECK, LOAD, STOPPING, STOPPED, IDLE, with a stop pending. -/
theorem test_status_words :
    (tiny Phase.load [] []).statusWord = 0x00000907#32 ∧ (tiny Phase.stopping [] []).statusWord = 0x0000090F#32 ∧
    (tiny Phase.stopped [] []).statusWord = 0x00000310#32 ∧ (tiny Phase.idle [] []).statusWord = 0x00000100#32 := by
  decide

/-- L2-76: `WR LOG2N, 0xFFFFFFE3` stores 3, `WR FLAGS, 0xFFFFFFFA` stores 2. -/
theorem test_wr_fields :
    ((tiny Phase.idle [] []).hostWrite 0x4#4 0xFFFFFFE3#32).hostRead 0x4#4 = 0x00000003#32 ∧
    ((tiny Phase.idle [] []).hostWrite 0x5#4 0xFFFFFFFA#32).hostRead 0x5#4 = 0x00000002#32 ∧
    ((tiny Phase.load [] []).hostWrite 0x5#4 0x00000007#32).hostRead 0x5#4 = 0x00000005#32 := by decide

/-- R180: after reset. -/
theorem test_rd_reset :
    State.reset.hostRead 0x3#4 = 0x00001F40#32 ∧ State.reset.hostRead 0x4#4 = 0x0000000D#32 ∧
    State.reset.hostRead 0x1#4 = 0x00000000#32 := by decide

/-- R172's example: FLAGS = 0x2 and LOG2N = 0 is error 0x01, not 0x02. -/
theorem test_validate_priority :
    exec .validate { State.reset with flags := 0b010#3, log2n := 0#5 } =
      .next { State.reset with flags := 0b010#3, log2n := 0#5, err := 0x01#8, phase := 0x11#5 } := by rfl

/-- R173, L2-78: a pending stop takes CHECK from 0x06 to 0x0F. -/
theorem test_check_stop : exec .check (tiny Phase.check [] []) = .next { tiny Phase.check [] [] with phase := 0x0F#5 } := by
  rfl

/-- `tiny` in LOAD with a second sample of -1.0 on offer. -/
def tinySecond : State := { tiny Phase.load [] [0x0BF800000#33] with wptr := 1#_ }

theorem tinySecond_room : tinySecond.wptr.toNat < tinySecond.frameSize := by
  rw [show tinySecond.wptr.toNat = 1 from Index.toNat_one]
  decide

/-- R174: the second sample of N = 2 is stored at XBUF[1] and ends LOAD, to RMS. -/
theorem test_load_last :
    ∃ t, exec .load tinySecond = .next t ∧ t.mem.xbuf = [(0, 0x3F800000#32), (1, 0xBF800000#32)] ∧ t.wptr.toNat = 2 ∧
      t.phase = 0x08#5 ∧ t.env.source = [] := by
  have hf : tinySecond.fits = true := tiny_fits Phase.load [] [0x0BF800000#33]
  have hw : tinySecond.wptr.toNat = 1 := Index.toNat_one
  have h2 := State.wptr_succ hf tinySecond_room
  refine ⟨_, execLoad_of_sample hf tinySecond_room rfl rfl, ?_⟩
  rw [hw] at h2 ⊢
  have hn : tinySecond.frameSize ≤ (tinySecond.wptr + 1#_).toNat := Nat.le_of_eq h2.symm
  rw [State.loadNext_of_full hn]
  exact ⟨rfl, h2, rfl, rfl⟩

/-- R206: a moment of stop_req in IDLE sets STOPF and nothing else. -/
theorem test_stopreq : exec .stopreq State.reset = .next { State.reset with stopf := true } := by rfl

/-- R230: RESET leaves STOPPED. -/
theorem test_reset : ∃ t, exec .reset (tiny Phase.stopped [] []) = .next t ∧ t.phase = 0x00#5 ∧ t.stopf = false :=
  ⟨_, rfl, rfl, rfl⟩

/-! Hypotheses are met: one witness for each statement that has them, at the boundary where a range is split. -/

theorem witness_DecodeOfEncode : (Instr.wr 0xF#4 0xFFFFFFFF#32).wellFormed = true := by decide

theorem witness_EncodeOfDecode (c : Ctx) :
    decode (.host 0x1300001F40#37) = .ok (.wr 0x3#4 0x00001F40#32) ∧ decode (.host 0x10FFFFFFF1#37) = .ok .start ∧
    decode (.host 0x1012345672#37) = .ok .stop ∧ decode (.host 0x0FFFFFFFFF#37) = .ok (.rd 0xF#4) ∧
    decode (.input 0x1DEADBEEF#33) = .ok .short ∧ decode (.backend 0b01000110#8 c) = .ok (.reqInit 3#5) ∧
    decode (.backend 0b11010101#8 c) = .ok (.reqDestroy c) ∧ (0b00000110#8).extractLsb' 6 2 = 0b00#2 ∧
    ((0b10000111#8).extractLsb' 6 2 = 0b10#2 ∧ (0b10000111#8).extractLsb' 0 1 = 1#1) ∧
    ((0x300000001#34).extractLsb' 32 2 = 0b11#2 ∧ (0x300000001#34).extractLsb' 0 32 ≠ 0#32) := by
  refine ⟨rfl, rfl, rfl, rfl, rfl, rfl, rfl, rfl, ?_, ?_⟩ <;> decide

theorem witness_StepRunsDecoded :
    (tiny Phase.coef [] []).sequencerNext ∧ (tiny Phase.coef [.sequencer] []).sequencerNext ∧
    (tiny Phase.emit [.sink] []).offered = some (0b00#2 ++ (tiny Phase.emit [] []).resFreq) ∧
    (tiny 0x12#5 [] []).sequencerNext ∧ decode (.phase (tiny Phase.coef [] []).phase) = .ok .coef :=
  ⟨.inl rfl, .inr rfl, rfl, .inl rfl, rfl⟩

theorem witness_StepKeepsInvariant :
    (tiny Phase.validate [] []).Inv ∧
    step (tiny Phase.validate [] []) = exec .validate (tiny Phase.validate [] []) ∧
    ∃ t, exec .validate (tiny Phase.validate [] []) = .next t :=
  ⟨tiny_inv _ _ _ (by decide), rfl, _, rfl⟩

theorem witness_InvariantNeverFaults : (tiny Phase.stopped [.rst] []).Inv := tiny_inv _ _ _ (by decide)

theorem witness_OnlyResetReturns :
    (∃ t, step (tiny Phase.stopped [.rst] []) = .next t ∧ t.phase = Phase.idle) ∧
    (tiny Phase.stopped [.rst] []).terminal ∧ (tiny Phase.stopped [.rst] []).resetNext :=
  ⟨⟨_, rfl, rfl⟩, .inl rfl, rfl⟩

theorem witness_StopIsSticky :
    (∃ t, step (tiny Phase.check [] []) = .next t) ∧ (tiny Phase.check [] []).stopf = true ∧
    ¬ (tiny Phase.check [] []).resetNext :=
  ⟨⟨_, rfl⟩, rfl, by simp [State.resetNext, tiny]⟩

theorem witness_StopCommutes :
    Instr.rms.format = .p ∧ Instr.rms ≠ .check ∧ ∃ t, exec .rms (tiny Phase.rms [] []) = .next t :=
  ⟨rfl, by decide, _, State.withBuffers_of_fits _ (tiny_fits Phase.rms [] [])⟩

theorem witness_StoppingOnlyFromCheck :
    ∃ t, step (tiny Phase.check [] []) = .next t ∧ t.phase = Phase.stopping ∧
      (tiny Phase.check [] []).phase ≠ Phase.stopping :=
  ⟨_, rfl, rfl, by decide⟩

theorem witness_HostNeverSteers :
    (tiny Phase.idle [.host 0x1000000001#37] []).env.turns.head? = some (.host 0x1000000001#37) ∧
    ∃ t, step (tiny Phase.idle [.host 0x1000000001#37] []) = .next t ∧ t.phase = Phase.validate :=
  ⟨rfl, _, rfl, rfl⟩

theorem witness_RegisterWriters :
    (∃ t, step (tiny Phase.check [] []) = .next t ∧ t.phase ≠ (tiny Phase.check [] []).phase) ∧
    (∃ t, step { State.reset with env := { Env.initial with turns := [.stopReq] } } = .next t ∧ t.stopf ≠ false) ∧
    (∃ t, step (tiny Phase.idle [.host 0x1400000003#37] []) = .next t ∧
      t.log2n ≠ (tiny Phase.idle [.host 0x1400000003#37] []).log2n) ∧
    (∃ t, step (tiny Phase.load [] [0x040400000#33]) = .next t) ∧
    ∀ p src, ¬ (tiny p [] src).resetNext :=
  ⟨⟨_, rfl, by decide⟩, ⟨_, rfl, by decide⟩, ⟨_, rfl, by decide⟩,
    ⟨_, execLoad_of_sample (tiny_fits Phase.load [] [0x040400000#33]) (by decide) rfl rfl⟩,
    fun _ _ => by simp [State.resetNext, tiny]⟩

theorem witness_BufferWriters :
    (tiny Phase.load [] [0x040400000#33]).Inv ∧ ¬ (tiny Phase.load [] [0x040400000#33]).resetNext ∧
    ∃ t, step (tiny Phase.load [] [0x040400000#33]) = .next t ∧
      t.word .xbuf 0 ≠ (tiny Phase.load [] [0x040400000#33]).word .xbuf 0 := by
  refine ⟨tiny_inv _ _ _ (by decide), by simp [State.resetNext, tiny], _,
    execLoad_of_sample (tiny_fits Phase.load [] [0x040400000#33]) (by decide) rfl rfl, ?_⟩
  rw [State.word_loadNext]
  decide

theorem witness_WindowIsImmutable :
    ∀ p ∈ [Phase.ftgen, Phase.fatal], 0x03 < (tiny p [] []).phase.toNat ∧ (tiny p [] []).phase.toNat ≤ 0x11 ∧
      ¬ (tiny p [] []).resetNext ∧ ∃ t, step (tiny p [] []) = .next t := by
  intro p hp
  simp only [List.mem_cons, List.not_mem_nil, or_false] at hp
  rcases hp with rfl | rfl
  · exact ⟨by decide, by decide, by simp [State.resetNext, tiny], _, State.withBuffers_of_fits _ (tiny_fits Phase.ftgen [] [])⟩
  · exact ⟨by decide, by decide, by simp [State.resetNext, tiny], _, rfl⟩

/-- EMIT with its line of three beats wholly sent. -/
def tinySent : State := { tiny Phase.emit [] [] with sent := 3 }

theorem tinySent_inv : tinySent.Inv :=
  have h := tiny_inv Phase.emit [] [] (by decide)
  ⟨h.1, h.2, h.3, h.4, h.5, h.6, h.7, h.8, h.9, h.10, h.11, h.12, h.13, h.14, fun _ => by decide, h.16, h.17⟩

theorem witness_NoTornLine :
    tinySent.Inv ∧ tinySent.phase = Phase.emit ∧ ¬ tinySent.resetNext ∧
    ∃ t, step tinySent = .next t ∧ t.phase ≠ Phase.emit :=
  ⟨tinySent_inv, rfl, by simp [State.resetNext, tinySent, tiny], _, rfl, by decide⟩

theorem witness_OutputsLeaveNoTrace :
    tinySent.forget = { tinySent with env := { tinySent.env with sink := [0#34], hRdata := 1#32 } }.forget ∧
    ∃ t, step tinySent = .next t :=
  ⟨rfl, _, rfl⟩

theorem witness_ValidateOutcomes :
    (∀ n : BitVec 5, { tiny Phase.validate [] [] with flags := 0b110#3, log2n := n }.flagAmp = true ∧
      { tiny Phase.validate [] [] with flags := 0b110#3, log2n := n }.flagFreq = false) ∧
    (∀ n : BitVec 5, ¬ ({ tiny Phase.validate [] [] with log2n := n }.flagAmp = true ∧
      { tiny Phase.validate [] [] with log2n := n }.flagFreq = false)) ∧
    { tiny Phase.validate [] [] with log2n := 0#5 }.log2n.toNat = 0 ∧
    Config.maxLog2 < { tiny Phase.validate [] [] with log2n := 25#5 }.log2n.toNat ∧
    (tiny Phase.validate [] []).validConfig :=
  ⟨fun _ => ⟨by simp [State.flagAmp], by simp [State.flagFreq]⟩, fun _ h => by simp [State.flagAmp, tiny] at h, rfl, Nat.lt_succ_of_le Config.maxLog2_le,
    tiny_validConfig _ _ _⟩

theorem witness_CheckOutcomes :
    (tiny Phase.check [] []).stopf = true ∧ { tiny Phase.check [] [] with stopf := false }.stopf = false := by
  constructor <;> rfl

theorem witness_LoadStoresSample :
    tinySecond.fits = true ∧ tinySecond.wptr.toNat < tinySecond.frameSize ∧
    tinySecond.env.source = [0x0BF800000#33] ∧ beatShort 0x0BF800000#33 = false ∧
    (tiny Phase.load [] [0x03F800000#33]).wptr.toNat < (tiny Phase.load [] [0x03F800000#33]).frameSize :=
  ⟨tiny_fits Phase.load [] [0x0BF800000#33], tinySecond_room, rfl, by decide, by decide⟩

theorem witness_LoadEndsOnShort :
    (tiny Phase.load [] [0x1DEADBEEF#33]).wptr.toNat < (tiny Phase.load [] [0x1DEADBEEF#33]).frameSize ∧
    (tiny Phase.load [] [0x1DEADBEEF#33]).env.source = [0x1DEADBEEF#33] ∧ beatShort 0x1DEADBEEF#33 = true ∧
    (tiny Phase.load [] []).wptr.toNat < (tiny Phase.load [] []).frameSize ∧ (tiny Phase.load [] []).env.source = [] := by
  decide

theorem witness_LoadFillsTheFrame :
    (tiny Phase.load [] [0x03F800000#33, 0x040000000#33, 0x100000000#33]).fits = true ∧
    (tiny Phase.load [] [0x03F800000#33, 0x040000000#33, 0x100000000#33]).wptr = 0#_ ∧
    [0x3F800000#32, 0x40000000#32].length = (tiny Phase.load [] [0x03F800000#33, 0x040000000#33, 0x100000000#33]).frameSize ∧
    (tiny Phase.load [] [0x03F800000#33, 0x040000000#33, 0x100000000#33]).env.source =
      [0x3F800000#32, 0x40000000#32].map (inputWord 0#1) ++ [0x100000000#33] :=
  ⟨tiny_fits _ _ _, rfl, rfl, rfl⟩

theorem witness_EmitLine :
    { tiny Phase.emit [] [] with sent := 2 }.sent < { tiny Phase.emit [] [] with sent := 2 }.line.length ∧
    tinySent.line.length ≤ tinySent.sent := by
  constructor <;> decide

theorem witness_EmitSendsTheLine :
    (tiny Phase.emit [.sink, .sink, .sink, .sequencer, .rst] []).phase = Phase.emit ∧
    (tiny Phase.emit [.sink, .sink, .sink, .sequencer, .rst] []).sent = 0 ∧
    (tiny Phase.emit [.sink, .sink, .sink, .sequencer, .rst] []).env.turns =
      List.replicate (tiny Phase.emit [.sink, .sink, .sink, .sequencer, .rst] []).line.length .sink ++
        .sequencer :: [.rst] :=
  ⟨rfl, rfl, rfl⟩

theorem witness_ContextHandshakes (c : Ctx) :
    (tiny Phase.fftinit [] []).fftPort = .idle ∧
    { tiny Phase.fftinit [] [] with fftPort := .requested 0b01000010#8 c }.fftPort = .requested 0b01000010#8 c ∧
    { tiny Phase.fftinit [] [] with fftPort := .done c }.fftPort = .done c :=
  ⟨rfl, rfl, rfl⟩

/-- The moves of StartupReachesCheck and of StopEndsTheRun. -/
def startupTurns : List Turn :=
  [.host 0x1000000001#37, .sequencer, .sequencer, .sequencer, .sequencer, .sequencer, .backend, .sequencer]

theorem witness_StartupReachesCheck :
    (tiny Phase.idle startupTurns []).Inv ∧ (tiny Phase.idle startupTurns []).validConfig ∧
    (tiny Phase.idle startupTurns []).env.turns = startupTurns ++ [] :=
  ⟨tiny_inv _ _ _ (by decide), tiny_validConfig _ _ _, rfl⟩

theorem witness_StopEndsTheRun :
    (tiny Phase.check [.sequencer, .sequencer, .backend, .sequencer] []).Inv ∧
    (tiny Phase.check [.sequencer, .sequencer, .backend, .sequencer] []).stopf = true :=
  ⟨tiny_inv _ _ _ (by decide), rfl⟩

theorem witness_StartAndStopCommands :
    (tiny Phase.idle [] []).phase = Phase.idle ∧ (tiny Phase.validate [] []).phase ≠ Phase.idle := by decide

theorem witness_HostWrites :
    (0xFFFFFFF1#32).extractLsb' 0 4 = 0x1#4 ∧ (0x00000012#32).extractLsb' 0 4 = 0x2#4 ∧
    (0x00000000#32).extractLsb' 0 4 ≠ 0x1#4 ∧ (0x0000000F#32).extractLsb' 0 4 ≠ 0x2#4 ∧
    (tiny Phase.idle [] []).phase = Phase.idle ∧ (tiny Phase.fatal [] []).phase ≠ Phase.idle ∧
    0x6 ≤ (0x6#4).toNat ∧ 0x6 ≤ (0xF#4).toNat := by decide

theorem witness_DoneAndFatalPins :
    (tiny Phase.stopped [] []).done = true ∧ (tiny Phase.fatal [] []).fatalf = true ∧
    ¬ (tiny Phase.stopped [] []).resetNext ∧ (∃ t, step (tiny Phase.stopped [] []) = .next t) ∧
    ∃ t, step (tiny Phase.fatal [] []) = .next t :=
  ⟨rfl, rfl, by simp [State.resetNext, tiny], ⟨_, rfl⟩, _, rfl⟩

theorem witness_SourceOffersBeats :
    (∃ t, step (tiny Phase.bq1 [.source 0x0BF800000#33] [0x100000000#33]) = .next t ∧
      t.env.source = [0x100000000#33, 0x0BF800000#33]) ∧
    (∃ t, step (tiny Phase.load [] [0x1DEADBEEF#33]) = .next t ∧ t.env.source = []) ∧
    (tiny Phase.load [] [0x1DEADBEEF#33]).inReady = true ∧
    ¬ (tiny Phase.bq1 [.source 0x0BF800000#33] [0x100000000#33]).resetNext ∧
    ¬ (tiny Phase.load [] [0x1DEADBEEF#33]).resetNext :=
  ⟨⟨_, rfl, rfl⟩, ⟨_, rfl, rfl⟩, by decide, by simp [State.resetNext, tiny], by simp [State.resetNext, tiny]⟩

theorem witness_SinkAcceptsBeats :
    (tiny Phase.emit [] []).line[(tiny Phase.emit [] []).sent]? = some (0b00#2 ++ (tiny Phase.emit [] []).resFreq) ∧
    { tiny Phase.emit [] [] with flags := 0b011#3, sent := 1 }.line[1]? =
      some (0b01#2 ++ (tiny Phase.emit [] []).resAmp) ∧
    { tiny Phase.emit [] [] with sent := 1 }.line[1]? = some (0b10#2 ++ (tiny Phase.emit [] []).resRms) ∧
    { tiny Phase.emit [] [] with sent := 2 }.line[2]? = some (0b11#2 ++ 0x00000000#32) ∧
    ¬ ((tiny Phase.check [] []).phase = Phase.emit) :=
  ⟨rfl, rfl, rfl, rfl, by decide⟩

/-- The frame operations complete on a small state: WINGEN, FTGEN, BQ1, BQ2, WINDOW, FFT, PEAK, RMS. -/
theorem witness_frame_operations :
    (tiny Phase.peak [] []).fits = true ∧ (tiny Phase.fft [] []).fftPort = .idle ∧
    ∀ i ∈ [Instr.wingen, .ftgen, .bq1, .bq2, .window, .fft, .peak, .rms],
      ∃ t, exec i (tiny Phase.check [] []) = .next t := by
  refine ⟨tiny_fits _ _ _, rfl, ?_⟩
  intro i hi
  simp only [List.mem_cons, List.not_mem_nil, or_false] at hi
  rcases hi with rfl | rfl | rfl | rfl | rfl | rfl | rfl | rfl <;>
    exact ⟨_, State.withBuffers_of_fits _ (tiny_fits _ _ _)⟩

theorem witness_WindowEndArguments : (tiny Phase.wingen [] []).validConfig := tiny_validConfig _ _ _

theorem witness_FrequencyTableIsExact :
    (∃ t, exec .ftgen (tiny Phase.ftgen [] []) = .next t) ∧ 1 < (tiny Phase.ftgen [] []).frameSize ∧
    |(tiny Phase.ftgen [] []).sampleRate.toInt * 1| < 2 ^ 24 ∧ 0 < (tiny Phase.ftgen [] []).sampleRate.toInt ∧
    (tiny Phase.ftgen [] []).sampleRate.toInt * ((tiny Phase.ftgen [] []).frameSize - 1) < 2 ^ 24 :=
  ⟨⟨_, State.withBuffers_of_fits _ (tiny_fits _ _ _)⟩, by decide, by decide, by decide, by decide⟩

theorem witness_CascadeOrderIsUnobservable :
    ∃ t u, exec .bq1 (tiny Phase.bq1 [] []) = .next t ∧ exec .bq2 t = .next u :=
  ⟨_, _, State.withBuffers_of_fits _ (tiny_fits _ _ _), State.withBuffers_of_fits _ (tiny_fits Phase.bq2 [] [])⟩

theorem witness_FilterKeepsNaN :
    isNaN 0x7FC00000#32 = true ∧ isNaN 0xFF800001#32 = true ∧
    (∃ t, exec .bq1 { tiny Phase.bq1 [] [] with s1 := ⟨0#32, 0#32, 0x7FC00000#32, 0#32⟩ } = .next t) ∧
    ∃ t, exec .bq2 { tiny Phase.bq2 [] [] with s2 := ⟨0#32, 0#32, 0xFF800001#32, 0#32⟩ } = .next t :=
  ⟨by decide, by decide, ⟨_, State.withBuffers_of_fits _ (tiny_fits Phase.bq1 [] [])⟩, _,
    State.withBuffers_of_fits _ (tiny_fits Phase.bq2 [] [])⟩

theorem witness_FftHandshake (w : BitVec 8) (c : Ctx) :
    (tiny Phase.fft [] []).fftPort = .idle ∧ (tiny Phase.fft [] []).fits = true ∧
    { tiny Phase.fft [] [] with fftPort := .requested w c }.fftPort = .requested w c ∧
    { tiny Phase.fft [] [] with fftPort := .done c }.fftPort = .done c :=
  ⟨rfl, tiny_fits _ _ _, rfl, rfl⟩

theorem witness_BackendAnswers (c : Ctx) :
    { tiny Phase.fftinit [] [] with fftPort := .requested (backendHdr 0b01#2 1#5) c }.outstanding = some (.reqInit 1#5) ∧
    { tiny Phase.stopping [] [] with fftPort := .requested (backendHdr 0b11#2 1#5) c }.outstanding =
      some (.reqDestroy c) ∧
    (tiny Phase.stopping [] []).outstanding ≠ some (.reqDestroy c) :=
  ⟨rfl, rfl, by simp [State.outstanding, tiny, State.reset, State.resetWith]⟩

theorem witness_BackendTransforms (c : Ctx) :
    (1#5).toNat ≤ Config.maxLog2 ∧
    { tiny Phase.fft [] [] with fftPort := .requested (backendHdr 0b10#2 1#5) c }.outstanding =
      some (.reqApply 1#5 c) ∧
    (tiny Phase.fft [] []).outstanding ≠ some (.reqApply 1#5 c) :=
  ⟨Config.one_le_maxLog2, rfl, by simp [State.outstanding, tiny, State.reset, State.resetWith]⟩

/-- Bins of powers 1, 25, 25, 4. -/
def tieBins : List (Word × Word) :=
  [(0x3F800000#32, 0#32), (0x40400000#32, 0x40800000#32), (0x40800000#32, 0x40400000#32), (0x40000000#32, 0#32)]

def tiePower (k : Nat) : Word :=
  if k = 0 then 0x3F800000#32 else if k = 1 ∨ k = 2 then 0x41C80000#32 else 0x40800000#32

theorem witness_PeakTieGoesLow :
    (∀ (k : Nat) (h : k < tieBins.length), tiePower k = binPower 0 k tieBins[k].1 tieBins[k].2) ∧
    2 < tieBins.length ∧ tiePower 1 = tiePower 2 ∧ fgt (tiePower 1) 0x00000000#32 = true ∧
    ∀ k : Nat, k < tieBins.length → k ≠ 1 → k ≠ 2 → isNaN (tiePower k) = true ∨ fgt (tiePower 1) (tiePower k) = true := by
  refine ⟨?_, by decide, rfl, by decide +kernel, ?_⟩ <;> decide +kernel

theorem witness_RmsProperties :
    (∃ t, exec .rms (tiny Phase.rms [] []) = .next t) ∧
    (∀ i, i < { tiny Phase.rms [] [] with mem := { tinyMem with xbuf := [(0, 0#32), (1, 0x80000000#32)] } }.frameSize →
      isZero ({ tiny Phase.rms [] [] with
        mem := { tinyMem with xbuf := [(0, 0#32), (1, 0x80000000#32)] } }.word .xbuf i) = true) ∧
    isNaN ({ tiny Phase.rms [] [] with
      mem := { tinyMem with xbuf := [(0, 0#32), (1, 0x7FC00000#32)] } }.word .xbuf 1) = true := by
  refine ⟨⟨_, State.withBuffers_of_fits _ (tiny_fits _ _ _)⟩, ?_, by decide⟩
  intro i hi
  have : i < 2 := hi
  interval_cases i <;> decide

theorem witness_rounded_operations :
    isFinite 0x7F7FFFFF#32 = true ∧ isFinite 0x80000001#32 = true ∧ isZero 0x80000001#32 = false ∧
    0 ≤ valUnits 0x80000000#32 ∧ 0 ≤ valUnits 0x7F7FFFFF#32 := by decide

theorem witness_SpecialCases :
    isNaN 0x7F800001#32 = true ∧ isInf 0x7F800000#32 = true ∧ isInf 0xFF800000#32 = true ∧
    signBit 0x7F800000#32 = false ∧ signBit 0xFF800000#32 = true ∧ isZero 0x80000000#32 = true ∧
    signBit 0x80000001#32 = true ∧ isZero 0x80000001#32 = false ∧ isNaN 0x80000001#32 = false ∧
    isFinite 0x80000001#32 = true ∧ isZero 0x7F800000#32 = false ∧ isNaN 0x7F800000#32 = false ∧
    valUnits 0x80000000#32 + valUnits 0x00000000#32 = 0 ∧ valUnits 0x3F800000#32 - valUnits 0x3F800000#32 = 0 ∧
    isZero (fmul someDraw 0x80000001#32 0x00000001#32) = true ∧ isZero (fdiv someDraw 0x80000001#32 0x7F800000#32) = true := by
  decide +kernel

end Sys2Proof.Machine
end

section
/-! PROOFS of the statements of 00_scope. The step: which word it runs (O4), and that it reads nothing of what the sink, the
backend and the host were told (O18). -/

namespace Sys2Proof.Machine

/-! Which word the next move carries. -/

/-- At the sequencer's turn the word is the one in `PHASE` (R101). -/
theorem State.fetch_of_sequencerNext {s : State} (h : s.sequencerNext) : s.fetch = some (.phase s.phase) := by
  unfold State.fetch
  rcases h with h | h
  · rw [h]
  · obtain ⟨rest, hr⟩ := List.head?_eq_some_iff.mp h
    rw [hr]

/-- Which word the next move carries depends on the first turn alone, not on those after it (log 1). -/
theorem State.fetch_of_head {s : State} {t : Turn} (h : s.env.turns.head? = some t) :
    s.fetch = ({ s with env := { s.env with turns := [t] } } : State).fetch := by
  obtain ⟨rest, hr⟩ := List.head?_eq_some_iff.mp h
  unfold State.fetch
  rw [hr]
  cases t <;> rfl

/-- A fetched word that decodes is run, with the turn taken. -/
theorem step_of_decode {s : State} {raw : Raw} {i : Instr} (hf : s.fetch = some raw) (hd : decode raw = .ok i) :
    step s = exec i s.nextTurn := by
  simp [step, hf, hd]

/-- A fetched word that spells no row leaves the machine stuck. -/
theorem step_of_decode_error {s : State} {raw : Raw} {why : DecodeError} (hf : s.fetch = some raw)
    (hd : decode raw = .error why) : step s = .fault (.stuckOn why) := by
  simp [step, hf, hd]

/-- Settles O4, from what `State.fetch` answers at each kind of turn. -/
theorem stepRunsDecoded : Obligations.StepRunsDecoded := by
  unfold Obligations.StepRunsDecoded
  refine ⟨fun _ _ _ => step_of_decode, fun _ => State.fetch_of_sequencerNext, fun _ _ => State.fetch_of_head,
    fun _ _ => State.fetch_of_head, fun _ => State.fetch_of_head, fun s hdr ctx h hp => ?_,
    fun _ => State.fetch_of_head, fun _ => State.fetch_of_head, fun s h hp => ?_⟩
  · rw [State.fetch_of_head h, State.fetch, hp]
  · exact step_of_decode_error (State.fetch_of_sequencerNext h) (decodePhase_reserved hp)

/-! What ASCORE told its environment is read by no operation. -/

/-- An answer without the records of what was told. -/
def forgetOut : Out → Out
  | .next t => .next t.forget
  | .fault r => .fault r
  | .refused r => .refused r

/-- An operation that always completes, with a next state that only the records tell apart. -/
theorem forgetOut_next {t t' : State} (h : t'.forget = t.forget) : forgetOut (.next t') = forgetOut (.next t) :=
  congrArg Host.Outcome.next h

theorem State.startRun_forget (s : State) : s.forget.startRun.forget = s.startRun.forget := by
  unfold State.startRun
  simp only [apply_ite State.forget]
  rfl

theorem State.hostWrite_forget (s : State) (addr : BitVec 4) (data : Word) :
    (s.forget.hostWrite addr data).forget = (s.hostWrite addr data).forget := by
  unfold State.hostWrite
  simp only [apply_ite State.forget, State.startRun_forget]
  rfl

theorem State.loadNext_congr_forget {s t : State} (h : t.forget = s.forget) : t.loadNext.forget = s.loadNext.forget := by
  have key : ∀ u : State, u.forget.loadNext.forget = u.loadNext.forget := fun u => by
    unfold State.loadNext
    simp only [apply_ite State.forget]
    rfl
  rw [← key t, h, key]

/-- The sink's record grows by the same beat, whatever it was. -/
theorem State.acceptBeat_forget (s : State) (w : BitVec 34) :
    (s.forget.acceptBeat w).forget = (s.acceptBeat w).forget := by
  unfold State.acceptBeat
  simp only [apply_ite State.forget]
  rfl

theorem forgetOut_withBuffers {s t t' : State} (h : t'.forget = t.forget) :
    forgetOut (s.forget.withBuffers t') = forgetOut (s.withBuffers t) := by
  have hf : s.forget.fits = s.fits := rfl
  unfold State.withBuffers
  rw [hf]
  split
  · exact forgetOut_next h
  · rfl

/-- LOAD reads the source's beats, `WPTR` and the configuration, and no record (R174). -/
theorem forgetOut_execLoad (s : State) : forgetOut (execLoad s.forget) = forgetOut (execLoad s) := by
  have hw : s.forget.wptr.toNat < s.forget.frameSize ↔ s.wptr.toNat < s.frameSize := Iff.rfl
  have hs : s.forget.env.source = s.env.source := rfl
  unfold execLoad
  simp only [hw, hs]
  split
  · cases s.env.source with
    | nil => rfl
    | cons beat rest =>
      dsimp only
      split
      · rfl
      · exact forgetOut_withBuffers (State.loadNext_congr_forget rfl)
  · rfl

/-- FFTINIT, FFT and STOPPING look at the backend port (R151, R152, R177), which is no record. -/
theorem forgetOut_execFftinit (s : State) : forgetOut (execFftinit s.forget) = forgetOut (execFftinit s) := by
  have hp : s.forget.fftPort = s.fftPort := rfl
  unfold execFftinit
  rw [hp]
  cases s.fftPort <;> rfl

theorem forgetOut_execFft (s : State) : forgetOut (execFft s.forget) = forgetOut (execFft s) := by
  have hp : s.forget.fftPort = s.fftPort := rfl
  unfold execFft
  rw [hp]
  cases s.fftPort with
  | idle => exact forgetOut_withBuffers rfl
  | requested hdr ctx => rfl
  | done ctxOut => rfl

theorem forgetOut_execStopping (s : State) : forgetOut (execStopping s.forget) = forgetOut (execStopping s) := by
  have hp : s.forget.fftPort = s.fftPort := rfl
  unfold execStopping
  rw [hp]
  cases s.fftPort <;> rfl

/-- The backend acts on the request that stands on its port, not on the record of requests (R94). -/
theorem forgetOut_execReqApply (l : BitVec 5) (ctx : Ctx) (s : State) :
    forgetOut (execReqApply l ctx s.forget) = forgetOut (execReqApply l ctx s) := by
  have ho : s.forget.outstanding = s.outstanding := rfl
  unfold execReqApply
  rw [ho]
  split
  · split <;> rfl
  · rfl

/-- No operation reads what ASCORE told its environment: run without the records, it answers the same but for them. -/
theorem forgetOut_exec (i : Instr) (s : State) : forgetOut (exec i s.forget) = forgetOut (exec i s) := by
  cases i with
  | validate | check | emit | reqInit _ | reqDestroy _ =>
    refine forgetOut_next ?_
    simp only [apply_ite State.forget]
    rfl
  | load => exact forgetOut_execLoad s
  | fftinit => exact forgetOut_execFftinit s
  | fft => exact forgetOut_execFft s
  | stopping => exact forgetOut_execStopping s
  | wingen | ftgen | rms | bq1 | bq2 | window | peak => exact forgetOut_withBuffers rfl
  | start => exact forgetOut_next (State.startRun_forget s)
  | wr addr data => exact forgetOut_next (State.hostWrite_forget s addr data)
  | freq _ | amp _ | rmsv _ | eol => exact forgetOut_next (State.acceptBeat_forget s _)
  | reqApply l ctx => exact forgetOut_execReqApply l ctx s
  | idle | stopped | fatal | coef | stop | rd _ | sample _ | short | stopreq | reset => rfl

/-- Nor does a step: neither the word it fetches nor the instruction it runs depends on the records. -/
theorem forgetOut_step (s : State) : forgetOut (step s.forget) = forgetOut (step s) := by
  have hfetch : s.forget.fetch = s.fetch := rfl
  have hturn : s.forget.nextTurn = s.nextTurn.forget := rfl
  unfold step
  rw [hfetch, hturn]
  cases s.fetch with
  | none => rfl
  | some raw =>
    dsimp only
    cases decode raw with
    | ok i => exact forgetOut_exec i s.nextTurn
    | error why => rfl

/-- Only a next state forgets to a next state. -/
theorem next_of_forgetOut {o : Out} {t : State} (h : forgetOut o = forgetOut (.next t)) :
    ∃ t', o = .next t' ∧ t.forget = t'.forget := by
  cases o with
  | next t' => exact ⟨t', rfl, (Host.Outcome.next.inj h).symm⟩
  | fault r => cases h
  | refused r => cases h

/-- Settles O18: both states take the step of the state they agree on once the records are forgotten. -/
theorem outputsLeaveNoTrace : Obligations.OutputsLeaveNoTrace := by
  unfold Obligations.OutputsLeaveNoTrace
  intro s s' t hforget hstep
  refine next_of_forgetOut ?_
  calc forgetOut (step s') = forgetOut (step s'.forget) := (forgetOut_step s').symm
    _ = forgetOut (step s.forget) := by rw [hforget]
    _ = forgetOut (step s) := forgetOut_step s
    _ = forgetOut (.next t) := by rw [hstep]

end Sys2Proof.Machine
end

section
/-! PROOFS of the statements of 00_scope on binary32: each operation rounds its exact result once (O55 to O58), the special
cases (O59) and the comparison (O60). -/

namespace Sys2Proof.Machine

/-! Classes and values of a word (R13). -/

theorem isNaN_of_isFinite {w : Word} (h : isFinite w = true) : isNaN w = false := by
  simp_all [isFinite, isNaN]

theorem isInf_of_isFinite {w : Word} (h : isFinite w = true) : isInf w = false := by
  simp_all [isFinite, isInf]

theorem isNaN_of_isInf {w : Word} (h : isInf w = true) : isNaN w = false := by
  simp_all [isInf, isNaN]

theorem isZero_of_isInf {w : Word} (h : isInf w = true) : isZero w = false := by
  simp_all [isInf, isZero]

theorem isFinite_of_isZero {w : Word} (h : isZero w = true) : isFinite w = true := by
  simp_all [isZero, isFinite]

theorem isNaN_of_isZero {w : Word} (h : isZero w = true) : isNaN w = false :=
  isNaN_of_isFinite (isFinite_of_isZero h)

/-- A word is finite, an infinity or a NaN. -/
theorem isFinite_of_not_inf_nan {w : Word} (hi : isInf w = false) (hn : isNaN w = false) : isFinite w = true := by
  by_cases he : expField w = 255 <;> simp_all [isInf, isNaN, isFinite]

theorem magUnits_eq_zero_iff (w : Word) : magUnits w = 0 ↔ isZero w = true := by
  by_cases he : expField w = 0 <;> simp [magUnits, isZero, he]

/-- A finite magnitude is below the formula's value for infinity. -/
theorem magUnits_lt_of_isFinite {w : Word} (h : isFinite w = true) : magUnits w < 2 ^ 24 * 2 ^ 253 := by
  have hf : fracField w < 2 ^ 23 := (w.extractLsb' 0 23).isLt
  have he : expField w < 2 ^ 8 := (w.extractLsb' 23 8).isLt
  have hne : expField w ≠ 255 := by simpa [isFinite] using h
  unfold magUnits
  split
  · exact lt_of_lt_of_le hf (by norm_num)
  · exact Nat.mul_lt_mul_of_lt_of_le (by omega) (Nat.pow_le_pow_right (by decide) (by omega)) (by positivity)

theorem magUnits_of_isInf {w : Word} (h : isInf w = true) : magUnits w = 2 ^ 24 * 2 ^ 253 := by
  obtain ⟨he, hf⟩ : expField w = 255 ∧ fracField w = 0 := by simpa [isInf] using h
  simp [magUnits, he, hf]

/-- The factor a sign stands for. -/
def signFactor (neg : Bool) : ℝ := if neg then -1 else 1

theorem signFactor_mul (p q : Bool) : signFactor p * signFactor q = signFactor (p != q) := by
  cases p <;> cases q <;> simp [signFactor]

theorem signFactor_div (p q : Bool) : signFactor p / signFactor q = signFactor (p != q) := by
  cases p <;> cases q <;> simp [signFactor]

/-- A value is its sign times its magnitude. -/
theorem cast_valUnits (w : Word) : (valUnits w : ℝ) = signFactor (signBit w) * magUnits w := by
  unfold valUnits signFactor
  split <;> simp

theorem cast_int_eq_signFactor (z : Int) : (z : ℝ) = signFactor (decide (z < 0)) * z.natAbs := by
  rw [Nat.cast_natAbs]
  by_cases h : z < 0
  · simp [signFactor, h, abs_of_neg h]
  · simp [signFactor, h, abs_of_nonneg (not_lt.mp h)]

/-! Correct rounding (R14). -/

/-- A rounded quotient, put beside a sign, is the signed quotient correctly rounded. -/
theorem roundsTo_packWord (neg : Bool) (num den : Nat) (hd : 0 < den) :
    RoundsTo (signFactor neg * (num / den)) (packWord neg (roundUnits num den)) := by
  have h := roundsTo_roundUnits num den hd
  cases neg with
  | false => simpa [signFactor] using h
  | true => simpa [signFactor, fneg_packWord] using h.neg

/-- Zero rounds to a zero of either sign. -/
theorem roundsTo_zero {w : Word} (h : isZero w = true) : RoundsTo 0 w := by
  have hpos : (0 : ℝ) < overflowUnits := by unfold overflowUnits; positivity
  obtain ⟨-, hfrac⟩ : expField w = 0 ∧ fracField w = 0 := by simpa [isZero] using h
  have hval : (valUnits w : ℝ) = 0 := by rw [cast_valUnits, (magUnits_eq_zero_iff w).mpr h]; simp
  refine ⟨fun hx => by linarith, fun hx => by linarith, fun _ => ⟨isFinite_of_isZero h, fun v _ => ?_⟩⟩
  rw [hval, sub_zero, abs_zero]
  rcases (abs_nonneg (0 - (valUnits v : ℝ))).lt_or_eq with hlt | heq
  · exact .inl hlt
  · exact .inr ⟨heq, .inr (by rw [hfrac])⟩

theorem isZero_zeroWord (neg : Bool) : isZero (zeroWord neg) = true := by cases neg <;> decide

/-- The sum of finite operands is rounded once. -/
theorem roundsTo_fadd (d : Draw) {a b : Word} (ha : isFinite a = true) (hb : isFinite b = true) :
    RoundsTo ((valUnits a : ℝ) + valUnits b) (fadd d a b) := by
  rw [← Int.cast_add]
  simp only [fadd, isNaN_of_isFinite ha, isNaN_of_isFinite hb, isInf_of_isFinite ha, isInf_of_isFinite hb,
    Bool.or_self, Bool.false_eq_true, if_false]
  generalize valUnits a + valUnits b = z
  split
  · rename_i hz
    rw [hz, Int.cast_zero]
    exact roundsTo_zero (isZero_zeroWord _)
  · rw [cast_int_eq_signFactor]
    simpa using roundsTo_packWord (decide (z < 0)) z.natAbs 1 Nat.one_pos

/-- Settles O55: a difference is the sum with the reversed sign. -/
theorem sumsAreRounded : Obligations.SumsAreRounded := by
  unfold Obligations.SumsAreRounded
  intro d a b ha hb
  refine ⟨roundsTo_fadd d ha hb, ?_⟩
  have h := roundsTo_fadd d ha (b := fneg b) (by simpa using hb)
  rwa [valUnits_fneg, Int.cast_neg, ← sub_eq_add_neg] at h

/-- What the product and the quotient answer on finite operands. -/
theorem fmul_of_isFinite (d : Draw) {a b : Word} (ha : isFinite a = true) (hb : isFinite b = true) :
    fmul d a b = packWord (signBit a != signBit b) (roundUnits (magUnits a * magUnits b) (2 ^ 149)) := by
  simp [fmul, isNaN_of_isFinite ha, isNaN_of_isFinite hb, isInf_of_isFinite ha, isInf_of_isFinite hb]

theorem fdiv_of_isFinite (d : Draw) {a b : Word} (ha : isFinite a = true) (hb : isFinite b = true)
    (hz : isZero b = false) :
    fdiv d a b = packWord (signBit a != signBit b) (roundUnits (magUnits a * 2 ^ 149) (magUnits b)) := by
  simp [fdiv, isNaN_of_isFinite ha, isNaN_of_isFinite hb, isInf_of_isFinite ha, isInf_of_isFinite hb, hz]

/-- Settles O56: the product of the magnitudes, in units, is a quotient by `2^149`. -/
theorem productsAreRounded : Obligations.ProductsAreRounded := by
  unfold Obligations.ProductsAreRounded
  intro d a b ha hb
  have hexact : (valUnits a : ℝ) * valUnits b / 2 ^ 149 =
      signFactor (signBit a != signBit b) * (((magUnits a * magUnits b : Nat) : ℝ) / ((2 ^ 149 : Nat) : ℝ)) := by
    rw [cast_valUnits, cast_valUnits, ← signFactor_mul]
    push_cast
    ring
  rw [hexact, fmul_of_isFinite d ha hb]
  exact roundsTo_packWord _ _ _ (Nat.two_pow_pos _)

/-- The quotient by a non-zero divisor is rounded once. -/
theorem roundsTo_fdiv (d : Draw) {a b : Word} (ha : isFinite a = true) (hb : isFinite b = true)
    (hz : isZero b = false) : RoundsTo ((valUnits a : ℝ) / valUnits b * 2 ^ 149) (fdiv d a b) := by
  have hpos : 0 < magUnits b := Nat.pos_of_ne_zero fun h => by simp [(magUnits_eq_zero_iff b).mp h] at hz
  have hexact : (valUnits a : ℝ) / valUnits b * 2 ^ 149 =
      signFactor (signBit a != signBit b) * (((magUnits a * 2 ^ 149 : Nat) : ℝ) / (magUnits b : ℝ)) := by
    rw [cast_valUnits, cast_valUnits, ← signFactor_div]
    push_cast
    ring
  rw [hexact, fdiv_of_isFinite d ha hb hz]
  exact roundsTo_packWord _ _ _ hpos

/-- An integer is converted with one rounding (R16). -/
theorem roundsTo_i2f (n : Int) : RoundsTo ((n : ℝ) * 2 ^ 149) (i2f n) := by
  have hexact : (n : ℝ) * 2 ^ 149 =
      signFactor (decide (n < 0)) * (((n.natAbs * 2 ^ 149 : Nat) : ℝ) / ((1 : Nat) : ℝ)) := by
    rw [cast_int_eq_signFactor]
    push_cast
    ring
  rw [hexact]
  exact roundsTo_packWord _ _ 1 Nat.one_pos

/-- Settles O57: the quotient by a non-zero divisor, and the conversion of an integer. -/
theorem quotientsAreRounded : Obligations.QuotientsAreRounded := by
  unfold Obligations.QuotientsAreRounded
  exact ⟨fun d _ _ => roundsTo_fdiv d, roundsTo_i2f⟩

/-- Comparing a whole number with a root is comparing squares. -/
theorem cast_le_iff_mul_self {n k : Nat} {y : ℝ} (hy : 0 ≤ y) (h : y * y = k) : (n : ℝ) ≤ y ↔ n * n ≤ k := by
  rw [mul_self_le_mul_self_iff n.cast_nonneg hy, h]
  exact_mod_cast Iff.rfl

theorem le_cast_iff_mul_self {n k : Nat} {y : ℝ} (hy : 0 ≤ y) (h : y * y = k) : y ≤ n ↔ k ≤ n * n := by
  rw [mul_self_le_mul_self_iff hy n.cast_nonneg, h]
  exact_mod_cast Iff.rfl

/-- A rounded root is the exact root correctly rounded: twice the root lies between the midpoints beside the answer. -/
theorem roundsTo_roundSqrtUnits (z : Nat) (hz : 0 < z) (hz' : z < 2 ^ 24 * 2 ^ 253) :
    RoundsTo (Real.sqrt ((z : ℝ) * 2 ^ 149)) (packWord false (roundSqrtUnits z)) := by
  obtain ⟨b, m, hr, hm, hm', hb, hlo, hbelow, habove, htie⟩ := roundSqrtUnits_spec z hz hz'
  have hinf : b * 2 ^ 23 + m ≤ infBits := by unfold infBits; omega
  have hX := Real.sqrt_nonneg ((z : ℝ) * 2 ^ 149)
  have hsq := Real.mul_self_sqrt (show (0 : ℝ) ≤ (z : ℝ) * 2 ^ 149 by positivity)
  generalize Real.sqrt ((z : ℝ) * 2 ^ 149) = X at *
  have hsq1 : X * X = ((z * 2 ^ 149 : Nat) : ℝ) := by rw [hsq]; norm_num
  have hsq2 : (2 * X) * (2 * X) = ((4 * (z * 2 ^ 149) : Nat) : ℝ) := by push_cast; linarith
  have h2X : 0 ≤ 2 * X := by linarith
  have hmid1 : (((2 * m - 1) * 2 ^ b : Nat) : ℝ) = 2 * (m * 2 ^ b) - 2 ^ b := by
    push_cast [Nat.cast_sub (show 1 ≤ 2 * m by omega)]
    ring
  have hmid2 : (((2 * m + 1) * 2 ^ b : Nat) : ℝ) = 2 * (m * 2 ^ b) + 2 ^ b := by
    push_cast
    ring
  rw [← cast_le_iff_mul_self h2X hsq2, hmid1] at hbelow
  rw [← le_cast_iff_mul_self h2X hsq2, hmid2] at habove
  have hlow : ((2 ^ 23 * 2 ^ b : Nat) : ℝ) = 2 ^ 23 * 2 ^ b := by norm_num
  rw [← cast_le_iff_mul_self hX hsq1, hlow] at hlo
  rw [hr, ← Nat.min_eq_left hinf]
  refine roundsTo_of_nearest hX hm (.inr hm') (.inr hlo) (by linarith) (by linarith) (fun h => htie (h.imp ?_ ?_))
  · intro h
    refine Nat.le_antisymm ((cast_le_iff_mul_self h2X hsq2).mp ?_) ((le_cast_iff_mul_self h2X hsq2).mp ?_) <;>
      rw [hmid1] <;> linarith
  · intro h
    refine Nat.le_antisymm ((le_cast_iff_mul_self h2X hsq2).mp ?_) ((cast_le_iff_mul_self h2X hsq2).mp ?_) <;>
      rw [hmid2] <;> linarith

/-- A value that is not negative has a positive sign or is a zero. -/
theorem signBit_of_valUnits_nonneg {a : Word} (hv : 0 ≤ valUnits a) (hz : isZero a = false) : signBit a = false := by
  have hm : magUnits a ≠ 0 := fun h => by simp [(magUnits_eq_zero_iff a).mp h] at hz
  by_contra hs
  have : valUnits a = -(magUnits a : Int) := by simp [valUnits, hs]
  omega

/-- Settles O58: a zero is its own root, and any other value that is not negative has a positive sign. -/
theorem rootsAreRounded : Obligations.RootsAreRounded := by
  unfold Obligations.RootsAreRounded
  intro d a ha hv
  cases hz : isZero a with
  | true =>
    have hval : (valUnits a : ℝ) = 0 := by rw [cast_valUnits, (magUnits_eq_zero_iff a).mpr hz]; simp
    have hroot : fsqrt d a = a := by simp [fsqrt, isNaN_of_isFinite ha, hz]
    rw [hval, zero_mul, Real.sqrt_zero, hroot]
    exact roundsTo_zero hz
  | false =>
    have hs := signBit_of_valUnits_nonneg hv hz
    have hval : (valUnits a : ℝ) = magUnits a := by rw [cast_valUnits, hs]; simp [signFactor]
    have hroot : fsqrt d a = packWord false (roundSqrtUnits (magUnits a)) := by
      simp [fsqrt, isNaN_of_isFinite ha, isInf_of_isFinite ha, hz, hs]
    have hpos : 0 < magUnits a := Nat.pos_of_ne_zero fun h => by simp [(magUnits_eq_zero_iff a).mp h] at hz
    rw [hval, hroot]
    exact roundsTo_roundSqrtUnits _ hpos (magUnits_lt_of_isFinite ha)

/-! The comparison (R15). -/

/-- An infinity's value by the formula lies beyond that of every finite word. -/
theorem valUnits_of_isInf {w : Word} (h : isInf w = true) :
    valUnits w = if signBit w then -(2 ^ 24 * 2 ^ 253) else 2 ^ 24 * 2 ^ 253 := by
  simp only [valUnits, magUnits_of_isInf h]
  rfl

theorem valUnits_bounds_of_isFinite {w : Word} (h : isFinite w = true) :
    -(2 ^ 24 * 2 ^ 253) < valUnits w ∧ valUnits w < 2 ^ 24 * 2 ^ 253 := by
  have hm : (magUnits w : Int) < 2 ^ 24 * 2 ^ 253 := by exact_mod_cast magUnits_lt_of_isFinite h
  unfold valUnits
  split <;> omega

/-- On words that are no NaN the values by the formula are ordered as the extended reals are. -/
theorem extendedValue_lt_iff {a b : Word} (ha : isNaN a = false) (hb : isNaN b = false) :
    extendedValue b < extendedValue a ↔ valUnits b < valUnits a := by
  cases hia : isInf a <;> cases hib : isInf b
  · simp [extendedValue, hia, hib]
  · -- a finite value lies between the two infinities
    have hfin := valUnits_bounds_of_isFinite (isFinite_of_not_inf_nan hia ha)
    rw [valUnits_of_isInf hib]
    generalize (2 ^ 24 * 2 ^ 253 : Int) = top at *
    cases hs : signBit b <;> simp [extendedValue, hia, hib, hs] <;> omega
  · have hfin := valUnits_bounds_of_isFinite (isFinite_of_not_inf_nan hib hb)
    rw [valUnits_of_isInf hia]
    generalize (2 ^ 24 * 2 ^ 253 : Int) = top at *
    cases hs : signBit a <;> simp [-WithBot.coe_top, extendedValue, hia, hib, hs] <;> omega
  · rw [valUnits_of_isInf hia, valUnits_of_isInf hib]
    cases hsa : signBit a <;> cases hsb : signBit b <;> simp [extendedValue, hia, hib, hsa, hsb]

/-- The comparison as the model computes it. -/
theorem fgt_iff (a b : Word) :
    fgt a b = true ↔ isNaN a = false ∧ isNaN b = false ∧ valUnits b < valUnits a := by
  simp [fgt, and_assoc]

/-- Settles O60: the formula orders the infinities beyond the finite values, as the extended reals do. -/
theorem greaterThan : Obligations.GreaterThan := by
  unfold Obligations.GreaterThan
  intro a b
  rw [fgt_iff]
  exact and_congr_right fun ha => and_congr_right fun hb => (extendedValue_lt_iff ha hb).symm

/-! The special cases (R14), one lemma for each operation and class of operands. -/

theorem signBit_fneg (a : Word) : signBit (fneg a) = !signBit a := (fneg_fields a).1

theorem fadd_of_isNaN (d : Draw) {a b : Word} (h : isNaN a = true ∨ isNaN b = true) : fadd d a b = nanWord d := by
  simp [fadd, h]

theorem fmul_of_isNaN (d : Draw) {a b : Word} (h : isNaN a = true ∨ isNaN b = true) : fmul d a b = nanWord d := by
  simp [fmul, h]

theorem fdiv_of_isNaN (d : Draw) {a b : Word} (h : isNaN a = true ∨ isNaN b = true) : fdiv d a b = nanWord d := by
  simp [fdiv, h]

/-- Infinities of opposite signs have no sum. -/
theorem fadd_of_isInf_opposite (d : Draw) {a b : Word} (ha : isInf a = true) (hb : isInf b = true)
    (hs : signBit a ≠ signBit b) : fadd d a b = nanWord d := by
  simp [fadd, ha, hb, hs]

/-- An infinity absorbs every summand but a NaN and the opposite infinity. -/
theorem fadd_of_isInf_left (d : Draw) {a b : Word} (ha : isInf a = true) (hb : isNaN b = false)
    (hs : isInf b = true → signBit a = signBit b) : fadd d a b = a := by
  have hopp : ¬ (isInf b = true ∧ ¬ signBit a = signBit b) := fun h => h.2 (hs h.1)
  simp [fadd, isNaN_of_isInf ha, ha, hb, hopp]

theorem fadd_of_isInf_right (d : Draw) {a b : Word} (ha : isFinite a = true) (hb : isInf b = true) :
    fadd d a b = b := by
  simp [fadd, isNaN_of_isFinite ha, isInf_of_isFinite ha, isNaN_of_isInf hb, hb]

/-- An exactly zero sum is `+0`, but for two negative zeros. -/
theorem fadd_of_sum_zero (d : Draw) {a b : Word} (ha : isFinite a = true) (hb : isFinite b = true)
    (h : valUnits a + valUnits b = 0) : fadd d a b = zeroWord (signBit a && signBit b) := by
  simp [fadd, isNaN_of_isFinite ha, isInf_of_isFinite ha, isNaN_of_isFinite hb, isInf_of_isFinite hb, h]

/-- An infinity times a word that is no NaN is an infinity, or invalid when that word is a zero. -/
theorem fmul_of_isInf (d : Draw) {a b : Word} (ha : isNaN a = false) (hb : isNaN b = false)
    (h : isInf a = true ∨ isInf b = true) :
    fmul d a b = if isZero a || isZero b then nanWord d else infWord (signBit a ^^ signBit b) := by
  simp [fmul, ha, hb, h]

theorem fdiv_of_isInf_left (d : Draw) {a b : Word} (ha : isInf a = true) (hb : isNaN b = false) :
    fdiv d a b = if isInf b then nanWord d else infWord (signBit a ^^ signBit b) := by
  simp [fdiv, isNaN_of_isInf ha, ha, hb]

theorem fdiv_of_isInf_right (d : Draw) {a b : Word} (ha : isFinite a = true) (hb : isInf b = true) :
    fdiv d a b = zeroWord (signBit a ^^ signBit b) := by
  simp [fdiv, isNaN_of_isFinite ha, isInf_of_isFinite ha, isNaN_of_isInf hb, hb]

/-- Division of a finite word by zero. -/
theorem fdiv_of_isZero_right (d : Draw) {a b : Word} (ha : isFinite a = true) (hb : isZero b = true) :
    fdiv d a b = if isZero a then nanWord d else infWord (signBit a ^^ signBit b) := by
  have hbf := isFinite_of_isZero hb
  simp [fdiv, isNaN_of_isFinite ha, isInf_of_isFinite ha, isNaN_of_isFinite hbf, isInf_of_isFinite hbf, hb]

/-- The root of a NaN, and that of a negative value. -/
theorem isNaN_fsqrt (d : Draw) {a : Word} (h : isNaN a = true ∨ signBit a = true ∧ isZero a = false) :
    isNaN (fsqrt d a) = true := by
  rcases h with h | ⟨hs, hz⟩
  · simp [fsqrt, h]
  · simp [fsqrt, hs, hz]

/-- A zero, and positive infinity, is its own root. -/
theorem fsqrt_self (d : Draw) {a : Word} (h : isZero a = true ∨ isInf a = true ∧ signBit a = false) :
    fsqrt d a = a := by
  rcases h with h | ⟨hi, hs⟩
  · simp [fsqrt, isNaN_of_isZero h, h]
  · simp [fsqrt, isNaN_of_isInf hi, isZero_of_isInf hi, hi, hs]

/-! The sign of a zero product or quotient. -/

/-- `w` is the NaN drawn at `d`, or some magnitude with the sign `neg`. -/
def NaNOrSigned (d : Draw) (neg : Bool) (w : Word) : Prop :=
  w = nanWord d ∨ ∃ m < 2 ^ 31, w = packWord neg m

theorem NaNOrSigned.of_nanWord (d : Draw) (neg : Bool) : NaNOrSigned d neg (nanWord d) := .inl rfl

theorem NaNOrSigned.of_infWord (d : Draw) (neg : Bool) : NaNOrSigned d neg (infWord neg) :=
  .inr ⟨infBits, by decide, rfl⟩

theorem NaNOrSigned.of_zeroWord (d : Draw) (neg : Bool) : NaNOrSigned d neg (zeroWord neg) :=
  .inr ⟨0, by decide, rfl⟩

theorem NaNOrSigned.of_rounded (d : Draw) (neg : Bool) (num den : Nat) :
    NaNOrSigned d neg (packWord neg (roundUnits num den)) :=
  .inr ⟨_, Nat.lt_of_le_of_lt (roundUnits_le num den) (by decide), rfl⟩

/-- A zero among these has the sign: a NaN is no zero. -/
theorem NaNOrSigned.signBit_of_isZero {d : Draw} {neg : Bool} {w : Word} (h : NaNOrSigned d neg w)
    (hz : isZero w = true) : signBit w = neg := by
  rcases h with rfl | ⟨m, hm, rfl⟩
  · exact absurd (isNaN_of_isZero hz) (by simp)
  · exact (packWord_fields neg m hm).1

/-- A product has the exclusive or of the signs, whatever its magnitude. -/
theorem nanOrSigned_fmul (d : Draw) (a b : Word) : NaNOrSigned d (signBit a ^^ signBit b) (fmul d a b) := by
  rw [← Bool.bne_eq_xor]
  unfold fmul
  split
  · exact .of_nanWord d _
  · split
    · split
      · exact .of_nanWord d _
      · exact .of_infWord d _
    · exact .of_rounded d _ _ _

/-- So has a quotient. -/
theorem nanOrSigned_fdiv (d : Draw) (a b : Word) : NaNOrSigned d (signBit a ^^ signBit b) (fdiv d a b) := by
  rw [← Bool.bne_eq_xor]
  unfold fdiv
  split
  · exact .of_nanWord d _
  · split
    · split
      · exact .of_nanWord d _
      · exact .of_infWord d _
    · split
      · exact .of_zeroWord d _
      · split
        · split
          · exact .of_nanWord d _
          · exact .of_infWord d _
        · exact .of_rounded d _ _ _

/-- Settles O59, clause by clause from the lemmas on the classes of operands. -/
theorem specialCases : Obligations.SpecialCases := by
  unfold Obligations.SpecialCases
  intro d a b
  refine ⟨fun h => ?_, fun h => isNaN_fsqrt d (.inl h), fun ha hb hs => ?_, fun ha hb hs => ?_, fun ha hb => ?_,
    fun ha hb => ?_, fun ha hb => ?_, fun hs hz => isNaN_fsqrt d (.inr ⟨hs, hz⟩), fun h => fsqrt_self d (.inl h),
    fun ha hz hb => ?_, fun ha hb => ?_, fun ha hb hs => ?_, fun ha hb hs => ?_, fun ha hb hz => ?_, fun ha hb => ?_,
    fun ha hs => fsqrt_self d (.inr ⟨ha, hs⟩), fun ha hb h => fadd_of_sum_zero d ha hb h, fun ha hb h => ?_,
    (nanOrSigned_fmul d a b).signBit_of_isZero, (nanOrSigned_fdiv d a b).signBit_of_isZero⟩
  -- a NaN operand
  · have hsub : fsub d a b = nanWord d := fadd_of_isNaN d (by simpa using h)
    simp [fadd_of_isNaN d h, hsub, fmul_of_isNaN d h, fdiv_of_isNaN d h]
  -- the invalid operations
  · simp [fadd_of_isInf_opposite d ha hb hs]
  · have hsub : fsub d a b = nanWord d := fadd_of_isInf_opposite d ha (by simpa using hb) (by simp [signBit_fneg, hs])
    simp [hsub]
  · simp [fmul_of_isInf d (isNaN_of_isZero ha) (isNaN_of_isInf hb) (.inr hb),
      fmul_of_isInf d (isNaN_of_isInf hb) (isNaN_of_isZero ha) (.inl hb), ha]
  · simp [fdiv_of_isZero_right d (isFinite_of_isZero ha) hb, ha]
  · simp [fdiv_of_isInf_left d ha (isNaN_of_isInf hb), hb]
  -- division by zero
  · simp [fdiv_of_isZero_right d ha hb, hz]
  -- infinite operands of sums and differences
  · have hbi := isInf_of_isFinite hb
    have hbn := isNaN_of_isFinite hb
    exact ⟨fadd_of_isInf_left d ha hbn (by simp [hbi]), fadd_of_isInf_right d hb ha,
      fadd_of_isInf_left d ha (by simpa using hbn) (by simp [hbi]), fadd_of_isInf_right d hb (by simpa using ha)⟩
  · exact fadd_of_isInf_left d ha (isNaN_of_isInf hb) fun _ => hs
  · refine fadd_of_isInf_left d ha (by simpa using isNaN_of_isInf hb) fun _ => ?_
    rw [signBit_fneg]
    exact Bool.eq_not_of_ne hs
  -- infinite operands of products and quotients
  · have hna := isNaN_of_isInf ha
    have hza := isZero_of_isInf ha
    simp [fmul_of_isInf d hna hb (.inl ha), fmul_of_isInf d hb hna (.inr ha), hza, hz, Bool.xor_comm]
  · simp [fdiv_of_isInf_left d ha (isNaN_of_isFinite hb), isInf_of_isFinite hb, fdiv_of_isInf_right d hb ha, Bool.xor_comm]
  -- an exactly zero difference
  · have h' : valUnits a + valUnits (fneg b) = 0 := by rw [valUnits_fneg]; omega
    rw [← signBit_fneg]
    exact fadd_of_sum_zero d ha (by simpa using hb) h'

end Sys2Proof.Machine
end

section
/-! PROOFS of the statements of 10_state. What they share: which agent runs which instruction, and all that the operations
with several outcomes can do. -/

namespace Sys2Proof.Machine

/-! Which agent runs which instruction. -/

/-- The instruction a move runs, by the agent that moves: where its word stands, and what is known of it (R22, R101, R110). -/
inductive State.Runs (s : State) (i : Instr) : Prop
  | phaseOp (turn : s.sequencerNext) (format : i.format = .p) (word : encode i = .phase s.phase)
  | hostOp (w : BitVec 37) (turn : s.env.turns.head? = some (.host w)) (word : decodeHost w = i)
  | beatIn (format : i.format = .i)
  | beatOut (format : i.format = .o)
  | backendOp (format : i.format = .b)
  | stopPin (turn : s.env.turns.head? = some .stopReq) (event : i = .stopreq)
  | rstPin (turn : s.resetNext) (event : i = .reset)

/-- A fetched word that decodes is an instruction of the agent whose turn it is. -/
theorem State.runs_of_decode {s : State} {raw : Raw} {i : Instr} (hf : s.fetch = some raw) (hd : decode raw = .ok i) :
    s.Runs i := by
  rcases fetch_cases hf with ⟨turn, rfl⟩ | ⟨w, turn, rfl⟩ | ⟨w, -, rfl⟩ | ⟨w, -, -, rfl⟩ | ⟨hdr, ctx, -, -, rfl⟩ |
    ⟨turn, rfl⟩ | ⟨turn, rfl⟩
  · obtain ⟨format, word⟩ := decodePhase_ok hd
    exact .phaseOp turn format word
  · exact .hostOp w turn (Except.ok.inj hd)
  · exact .beatIn (Except.ok.inj hd ▸ decodeInput_format w)
  · exact .beatOut (decodeOutput_ok hd).1
  · exact .backendOp (decodeBackend_format hd)
  · exact .stopPin turn (Except.ok.inj hd).symm
  · exact .rstPin turn (Except.ok.inj hd).symm

/-- A step that answers a next state passed a turn or ran an instruction of the agent that moved. -/
theorem step_next_cases {s t : State} (h : step s = .next t) :
    t = s.nextTurn ∨ ∃ i, s.Runs i ∧ exec i s.nextTurn = .next t := by
  rcases step_cases s with ⟨-, hs⟩ | ⟨raw, i, hf, hd, hs⟩ | ⟨raw, why, -, -, hs⟩
  · exact .inl (Host.Outcome.next.inj (h.symm.trans hs))
  · exact .inr ⟨i, State.runs_of_decode hf hd, hs ▸ h⟩
  · cases h.symm.trans hs

/-- The phase operations are the sequencer's (R101). -/
theorem State.Runs.sequencer {s : State} {i : Instr} (h : s.Runs i) (hi : i.format = .p) :
    s.sequencerNext ∧ encode i = .phase s.phase := by
  cases h with
  | phaseOp turn _ word => exact ⟨turn, word⟩
  | hostOp w _ word => simp [← word, decodeHost_format w] at hi
  | beatIn format | beatOut format | backendOp format => simp [format] at hi
  | stopPin _ event | rstPin _ event => simp [event, Instr.format] at hi

/-- The host operations are the host's (R103). -/
theorem State.Runs.host {s : State} {i : Instr} (h : s.Runs i) (hi : i.format = .h) :
    ∃ w, s.env.turns.head? = some (.host w) ∧ decodeHost w = i := by
  cases h with
  | hostOp w turn word => exact ⟨w, turn, word⟩
  | phaseOp _ format _ | beatIn format | beatOut format | backendOp format => simp [format] at hi
  | stopPin _ event | rstPin _ event => simp [event, Instr.format] at hi

/-- `stop_req` alone runs STOPREQ (R110). -/
theorem State.Runs.stopReq {s : State} (h : s.Runs .stopreq) : s.env.turns.head? = some .stopReq := by
  cases h with
  | stopPin turn _ => exact turn
  | hostOp w _ word => exact absurd (decodeHost_format w) (by simp [word, Instr.format])
  | phaseOp _ format _ | beatIn format | beatOut format | backendOp format => cases format
  | rstPin _ event => cases event

/-- `rst` alone runs RESET (R110). -/
theorem State.Runs.resetNext {s : State} (h : s.Runs .reset) : s.resetNext := by
  cases h with
  | rstPin turn _ => exact turn
  | hostOp w _ word => exact absurd (decodeHost_format w) (by simp [word, Instr.format])
  | phaseOp _ format _ | beatIn format | beatOut format | backendOp format => cases format
  | stopPin _ event => cases event

/-- The word in `PHASE` names its code. -/
theorem State.phase_of_word {s : State} {p : BitVec 5} (hw : Raw.phase p = .phase s.phase) : s.phase = p := (Raw.phase.inj hw).symm

/-- A word that spells START or STOP decodes to no WR (R103, R117). -/
theorem decodeHost_wellFormed (w : BitVec 37) : (decodeHost w).wellFormed = true := by
  unfold decodeHost
  simp only
  split
  · rfl
  · split
    · rfl
    · split
      · rfl
      · rename_i hstart hstop
        simp only [Instr.wellFormed, Bool.and_eq_true, Bool.not_eq_true', Bool.and_eq_false_iff, beq_eq_false_iff_ne]
        exact ⟨not_and_or.mp hstart, not_and_or.mp hstop⟩

/-- What an agent runs is well formed: only WR can be otherwise, and no host word decodes to such a WR (R117). -/
theorem State.Runs.wellFormed {s : State} {i : Instr} (h : s.Runs i) : i.wellFormed = true := by
  by_cases hi : i.format = .h
  · obtain ⟨w, -, rfl⟩ := h.host hi
    exact decodeHost_wellFormed w
  · cases i with
    | wr _ _ => exact absurd rfl hi
    | _ => rfl

/-! What the operations with several outcomes can do. -/

/-- LOAD waits, leaves on a full frame or a SHORT beat, or takes a sample (R174). -/
theorem execLoad_cases {s t : State} (he : execLoad s = .next t) :
    (s.wptr.toNat < s.frameSize ∧ s.env.source = [] ∧ t = s) ∨
    (s.frameSize ≤ s.wptr.toNat ∧ t = s.enter s.afterLoad) ∨
    (∃ beat rest, s.wptr.toNat < s.frameSize ∧ s.env.source = beat :: rest ∧ beatShort beat = true ∧
      t = s.dropBeat.enter s.afterLoad) ∨
    ∃ beat rest, s.wptr.toNat < s.frameSize ∧ s.env.source = beat :: rest ∧ beatShort beat = false ∧ s.fits = true ∧
      t = State.loadNext { s.dropBeat.storeWord .xbuf s.wptr.toNat (beatData beat) with wptr := s.wptr + 1#_ } := by
  unfold execLoad at he
  split at he
  · rename_i hw
    split at he
    · rename_i hs
      exact .inl ⟨hw, hs, (Host.Outcome.next.inj he).symm⟩
    · rename_i beat rest hs
      split at he
      · rename_i hb
        exact .inr (.inr (.inl ⟨beat, rest, hw, hs, hb, (Host.Outcome.next.inj he).symm⟩))
      · rename_i hb
        obtain ⟨hf, ht⟩ := State.withBuffers_next he
        exact .inr (.inr (.inr ⟨beat, rest, hw, hs, Bool.eq_false_iff.mpr hb, hf, ht⟩))
  · rename_i hw
    exact .inr (.inl ⟨Nat.le_of_not_lt hw, (Host.Outcome.next.inj he).symm⟩)

/-- FFTINIT sends its request, waits for the answer, or takes the handle and leaves (R151). -/
theorem execFftinit_cases {s t : State} (he : execFftinit s = .next t) :
    (s.fftPort = .idle ∧ t = s.request 0b01#2) ∨ (s.fftPort ≠ .idle ∧ t = s) ∨
    ∃ c, s.fftPort = .done c ∧ t = ({ s with ctx := c, ctxv := true }.release).enter Phase.check := by
  unfold execFftinit at he
  split at he <;> rename_i hp <;> obtain rfl := Host.Outcome.next.inj he
  · exact .inl ⟨hp, rfl⟩
  · exact .inr (.inl ⟨by simp [hp], rfl⟩)
  · exact .inr (.inr ⟨_, hp, rfl⟩)

/-- FFT zeroes IM and sends its request, waits for the answer, or leaves (R152). -/
theorem execFft_cases {s t : State} (he : execFft s = .next t) :
    (s.fftPort = .idle ∧ s.fits = true ∧ t = (s.storeFrame .im (List.replicate s.frameSize fZero)).request 0b10#2) ∨
    (s.fftPort ≠ .idle ∧ t = s) ∨ ∃ c, s.fftPort = .done c ∧ t = s.release.enter Phase.peak := by
  unfold execFft at he
  split at he <;> rename_i hp
  · obtain ⟨hf, rfl⟩ := State.withBuffers_next he
    exact .inl ⟨hp, hf, rfl⟩
  · exact .inr (.inl ⟨by simp [hp], (Host.Outcome.next.inj he).symm⟩)
  · exact .inr (.inr ⟨_, hp, (Host.Outcome.next.inj he).symm⟩)

/-- STOPPING sends its request, waits for the answer, or gives the context up and leaves (R177). -/
theorem execStopping_cases {s t : State} (he : execStopping s = .next t) :
    (s.fftPort = .idle ∧ t = s.request 0b11#2) ∨ (s.fftPort ≠ .idle ∧ t = s) ∨
    ∃ c, s.fftPort = .done c ∧ t = ({ s with ctxv := false }.release).enter Phase.stopped := by
  unfold execStopping at he
  split at he <;> rename_i hp <;> obtain rfl := Host.Outcome.next.inj he
  · exact .inl ⟨hp, rfl⟩
  · exact .inr (.inl ⟨by simp [hp], rfl⟩)
  · exact .inr (.inr ⟨_, hp, rfl⟩)

/-- START leaves `IDLE` and does nothing elsewhere (R182). -/
theorem State.startRun_cases (s : State) :
    (s.phase = Phase.idle ∧ s.startRun = s.enter Phase.validate) ∨ (s.phase ≠ Phase.idle ∧ s.startRun = s) := by
  by_cases h : s.phase = Phase.idle
  · exact .inl ⟨h, if_pos h⟩
  · exact .inr ⟨h, if_neg h⟩

/-- A WR writes configuration registers in `IDLE`, or nothing (R181). -/
theorem State.hostWrite_cases (s : State) {addr : BitVec 4} {data : Word}
    (hw : (Instr.wr addr data).wellFormed = true) :
    s.hostWrite addr data = s ∨ (s.phase = Phase.idle ∧
      ∃ r l f, s.hostWrite addr data = { s with sampleRate := r, log2n := l, flags := f }) := by
  unfold State.hostWrite
  split
  · rename_i ha
    simp [Instr.wellFormed, ha] at hw
    simp [hw]
  · split
    · rename_i hp
      split
      · exact .inr ⟨hp, data, s.log2n, s.flags, rfl⟩
      · split
        · exact .inr ⟨hp, s.sampleRate, log2nField data, s.flags, rfl⟩
        · split
          · exact .inr ⟨hp, s.sampleRate, s.log2n, flagsField data, rfl⟩
          · exact .inl rfl
    · exact .inl rfl

/-- FFT.APPLY transforms RE and IM when it is the request on the port, and does nothing otherwise (R216). -/
theorem execReqApply_cases {l : BitVec 5} {ctx : Ctx} {s t : State} (he : execReqApply l ctx s = .next t) :
    (s.outstanding = some (.reqApply l ctx) ∧ l.toNat ≤ Config.maxLog2 ∧ t = s.transform l.toNat) ∨
    (s.outstanding ≠ some (.reqApply l ctx) ∧ t = s) := by
  unfold execReqApply at he
  split at he
  · rename_i ho
    split at he
    · rename_i hl
      exact .inl ⟨ho, hl, (Host.Outcome.next.inj he).symm⟩
    · cases he
  · rename_i ho
    exact .inr ⟨ho, (Host.Outcome.next.inj he).symm⟩

end Sys2Proof.Machine
end

section
/-! PROOFS of the statements of 10_state on the invariant of Safety.lean: reset meets it (O6) and every step keeps it (O7). -/

namespace Sys2Proof.Machine

/-! Reset. -/

/-- Reset leaves the empty buffers, an idle machine and a quiet port, so the invariant holds (R55, R230). -/
theorem State.inv_resetWith (env : Env) : (State.resetWith env).Inv where
  phase_legal := by simp [State.resetWith]
  mem_wf := State.resetWith_wf env
  mem_inside := fun k c hc => by cases k <;> cases hc
  config_valid := by simp [State.resetWith]
  ctx_live := by simp [State.resetWith]
  err_fatal := by simp [State.resetWith]
  err_cause := by simp [State.resetWith]
  stop_taken := by simp [State.resetWith]
  port_quiet := fun h => absurd rfl h
  port_word := fun _ _ h => by cases h
  loading := by simp [State.resetWith]
  wptr_bound := by simp [State.resetWith]
  idx_zero := rfl
  pkIdx_bound := by simp [State.resetWith]
  line_bound := by simp [State.resetWith]
  freq_path := by simp [State.resetWith]
  rms_path := by simp [State.resetWith]

/-- Settles O6: the first reset is one of them. -/
theorem resetMeetsInvariant : Obligations.ResetMeetsInvariant :=
  ⟨State.inv_resetWith Env.initial, State.inv_resetWith⟩

/-! The base of the invariant over an update. -/

/-- The base reads the buffers, `WPTR` and `IDX` only. -/
theorem State.Base.congr {s u : State} (h : s.Base) (hm : u.mem = s.mem := by rfl) (hw : u.wptr = s.wptr := by rfl)
    (hi : u.idx = s.idx := by rfl) : u.Base where
  mem_wf := by rw [hm]; exact h.mem_wf
  mem_inside := by rw [hm]; exact h.mem_inside
  wptr_bound := by rw [hw]; exact h.wptr_bound
  idx_zero := by rw [hi]; exact h.idx_zero

/-- An operation that writes one frame of a buffer keeps the base. -/
theorem State.Base.writeFrame {s : State} {k : BufId} {ws : List Word} (h : s.Base) (hl : ws.length = s.frameSize)
    (hf : s.fits = true) : (s.storeFrame k ws).spend.Base :=
  (h.storeFrame k ws (hl ▸ State.frameSize_le hf)).congr

/-! The invariant over updates that stay in the phase. -/

/-- A frame that lies inside the buffers may be written in any phase. -/
theorem State.Inv.storeFrame {s : State} (h : s.Inv) (k : BufId) (ws : List Word)
    (hl : ws.length ≤ 2 ^ Config.maxLog2) : (s.storeFrame k ws).Inv :=
  have hb := h.base.storeFrame k ws hl
  { h with mem_wf := hb.mem_wf, mem_inside := hb.mem_inside }

/-- The operation in `PHASE` sends its own request (R111). -/
theorem State.Inv.request {s : State} {op : BitVec 2} (h : s.Inv)
    (hp : s.phase = Phase.fftinit ∨ s.phase = Phase.fft ∨ s.phase = Phase.stopping) (hop : op = s.requestOp) :
    (s.request op).Inv :=
  { h with
    port_quiet := fun _ => hp
    port_word := fun _ _ hr => by
      subst hop
      cases hr
      exact ⟨rfl, rfl⟩ }

/-- The configuration is free while `PHASE = IDLE`: the invariant asks nothing of it there (R181). -/
theorem State.Inv.configure {s : State} (h : s.Inv) (hp : s.phase = Phase.idle) (r : Word) (l : BitVec 5) (f : BitVec 3) :
    ({ s with sampleRate := r, log2n := l, flags := f } : State).Inv :=
  { h with
    config_valid := by simp [hp]
    err_cause := by simp [hp]
    port_word := fun _ _ hr => by
      have hq : s.fftPort = .idle := h.quiet_of (by simp [hp]) (by simp [hp]) (by simp [hp])
      cases hq.symm.trans hr
    loading := by simp [hp]
    pkIdx_bound := by simp [hp]
    line_bound := by simp [hp]
    freq_path := by simp [hp]
    rms_path := by simp [hp] }

/-- The sink takes a beat of the line, so no more than the line (R186). -/
theorem State.Inv.acceptBeat {s : State} (h : s.Inv) (w : BitVec 34) : (s.acceptBeat w).Inv := by
  rcases s.acceptBeat_cases w with ⟨ho, ht⟩ | ⟨-, ht⟩ <;> rw [ht]
  · exact { h with line_bound := fun _ => State.offered_lt ho }
  · exact h

/-- A request that the backend serves waits in one of the three operations. -/
theorem State.Inv.phase_of_outstanding {s : State} {i : Instr} (h : s.Inv) (ho : s.outstanding = some i) :
    s.phase = Phase.fftinit ∨ s.phase = Phase.fft ∨ s.phase = Phase.stopping := by
  obtain ⟨hdr, ctx, hp, -⟩ := State.outstanding_eq_some ho
  exact h.port_quiet (by simp [hp])

/-! The invariant over a write of `PHASE`. -/

/-- Entering `p` from phase `q`, both from `COEF` to `STOPPED`: the configuration stays valid and `ERR` stays 0, and what
is left to show is what the invariant says of phase `p` in particular. -/
theorem State.Inv.advance {s u : State} {q p : BitVec 5} (h : s.Inv) (hq : s.phase = q) (hb : u.Base)
    (port : u.fftPort = .idle) (live : u.ctxv = true ↔ 0x06 ≤ p.toNat ∧ p.toNat ≤ 0x0F)
    (source : 0x02 ≤ q.toNat ∧ q.toNat ≤ 0x10 := by decide) (target : 0x02 ≤ p.toNat ∧ p.toNat ≤ 0x10 := by decide)
    (log2n : u.log2n = s.log2n := by rfl) (flags : u.flags = s.flags := by rfl) (err : u.err = s.err := by rfl)
    (stop_taken : p = Phase.stopping ∨ p = Phase.stopped → u.stopf = true := by simp)
    (peak_found : p = Phase.emit → u.flagFreq = true → u.pkIdx.toNat < u.frameSize / 2 := by simp)
    (freq_path : 0x09 ≤ p.toNat → p.toNat ≤ 0x0D → u.flagFreq = true := by simp)
    (rms_path : p = Phase.rms → u.flagRms = true := by simp) : (u.enter p).Inv := by
  have hp : p ≠ Phase.fatal := by
    rintro rfl
    exact absurd target (by decide)
  have herr : u.err = 0x00#8 := by
    rw [err]
    by_contra hne
    have := h.err_fatal.mp hne
    subst hq
    rw [this] at source
    exact absurd source (by decide)
  have hconfig : u.validConfig := by
    have := h.config_valid (hq ▸ source.1) (hq ▸ source.2)
    simpa only [State.validConfig, State.flagAmp, State.flagFreq, log2n, flags] using this
  exact State.inv_enter hb (by omega) (fun _ _ => hconfig) live (by simp [herr, hp]) (fun h' => absurd h' hp)
    stop_taken port peak_found freq_path rms_path

/-- The same where the context is live in both phases or in neither and `CTXV` stays as it is. -/
theorem State.Inv.advance_ctxv {s u : State} {q : BitVec 5} (h : s.Inv) (hq : s.phase = q) (p : BitVec 5)
    (ctxv : u.ctxv = s.ctxv := by rfl)
    (same : (0x06 ≤ q.toNat ∧ q.toNat ≤ 0x0F) ↔ (0x06 ≤ p.toNat ∧ p.toNat ≤ 0x0F) := by decide) :
    u.ctxv = true ↔ 0x06 ≤ p.toNat ∧ p.toNat ≤ 0x0F := by
  rw [ctxv, ← same, ← hq]
  exact h.ctx_live

/-- Outside its three operations the backend port is quiet, by the phase's code. -/
theorem State.Inv.quiet_at {s : State} {q : BitVec 5} (h : s.Inv) (hq : s.phase = q)
    (hne : q ≠ Phase.fftinit ∧ q ≠ Phase.fft ∧ q ≠ Phase.stopping := by decide) : s.fftPort = .idle :=
  h.quiet_of (hq ▸ hne.1) (hq ▸ hne.2.1) (hq ▸ hne.2.2)

/-! The sequencer's operations, in the order of R170. -/

section Sequencer

variable {s t : State}

/-- A fatal transfer from VALIDATE names its cause (R201, R203). -/
theorem State.Inv.raiseFatal (h : s.Inv) (hq : s.phase = Phase.validate) {code : BitVec 8}
    (cause : (code = 0x01#8 ∧ s.flagAmp = true ∧ s.flagFreq = false) ∨
      (code = 0x02#8 ∧ (s.log2n.toNat = 0 ∨ Config.maxLog2 < s.log2n.toNat))) : (s.raiseFatal code).Inv := by
  have hcode : code ≠ 0x00#8 := by
    rcases cause with ⟨rfl, -⟩ | ⟨rfl, -⟩ <;> decide
  exact State.inv_enter (s := { s with err := code }) h.base.congr (by decide) (by simp)
    (h.advance_ctxv hq Phase.fatal) (by simp [hcode]) (fun _ => cause) (by simp) (h.quiet_at hq) (by simp) (by simp)
    (by simp)

theorem execValidate_keeps_inv (h : s.Inv) (hq : s.phase = Phase.validate) (he : execValidate s = .next t) : t.Inv := by
  obtain rfl := Host.Outcome.next.inj he
  split
  · rename_i hflags
    exact h.raiseFatal hq (.inl ⟨rfl, by simpa using hflags⟩)
  · rename_i hflags
    split
    · rename_i hlog
      exact h.raiseFatal hq (.inr ⟨rfl, hlog⟩)
    · rename_i hlog
      have hconfig : s.validConfig := ⟨by simpa using hflags, by omega, by omega⟩
      exact State.inv_enter h.base (by decide) (fun _ _ => hconfig) (h.advance_ctxv hq Phase.coef)
        (by simpa [hq] using h.err_fatal) (by simp) (by simp) (h.quiet_at hq) (by simp) (by simp) (by simp)

theorem execCoef_keeps_inv (h : s.Inv) (hq : s.phase = Phase.coef) (he : execCoef s = .next t) : t.Inv := by
  obtain rfl := Host.Outcome.next.inj he
  exact h.advance hq h.base.congr (h.quiet_at hq) (h.advance_ctxv hq _)

theorem execWingen_keeps_inv (h : s.Inv) (hq : s.phase = Phase.wingen) (he : execWingen s = .next t) : t.Inv := by
  obtain ⟨hf, rfl⟩ := State.withBuffers_next he
  exact h.advance hq (h.base.writeFrame (by simp) hf) (h.quiet_at hq) (h.advance_ctxv hq _)

theorem execFtgen_keeps_inv (h : s.Inv) (hq : s.phase = Phase.ftgen) (he : execFtgen s = .next t) : t.Inv := by
  obtain ⟨hf, rfl⟩ := State.withBuffers_next he
  exact h.advance hq (h.base.writeFrame (by simp) hf) (h.quiet_at hq) (h.advance_ctxv hq _)

/-- FFTINIT makes the context live (R151). -/
theorem execFftinit_keeps_inv (h : s.Inv) (hq : s.phase = Phase.fftinit) (he : execFftinit s = .next t) : t.Inv := by
  rcases execFftinit_cases he with ⟨-, rfl⟩ | ⟨-, rfl⟩ | ⟨c, -, rfl⟩
  · exact h.request (.inl hq) (by simp [State.requestOp, hq])
  · exact h
  · exact h.advance hq h.base.congr rfl (by simp)

/-- CHECK enters STOPPING only with `STOPF` set (R173, R209). -/
theorem execCheck_keeps_inv (h : s.Inv) (hq : s.phase = Phase.check) (he : execCheck s = .next t) : t.Inv := by
  obtain rfl := Host.Outcome.next.inj he
  split
  · rename_i hstop
    exact h.advance hq h.base (h.quiet_at hq) (h.advance_ctxv hq _) (stop_taken := fun _ => hstop)
  · exact h.advance hq h.base (h.quiet_at hq) (h.advance_ctxv hq _)

/-- LOAD leaves for the operation its flags select (R174). -/
theorem State.Inv.leaveLoad {u : State} (h : s.Inv) (hq : s.phase = Phase.load) (hb : u.Base)
    (port : u.fftPort = s.fftPort := by rfl) (ctxv : u.ctxv = s.ctxv := by rfl)
    (log2n : u.log2n = s.log2n := by rfl) (flags : u.flags = s.flags := by rfl) (err : u.err = s.err := by rfl) :
    (u.enter u.afterLoad).Inv := by
  have hport : u.fftPort = .idle := port.trans (h.quiet_at hq)
  rcases u.afterLoad_cases with ⟨hrms, hp⟩ | ⟨-, hfreq, hp⟩ | ⟨-, hfreq, hp⟩ <;> rw [hp]
  · exact h.advance hq hb hport (h.advance_ctxv hq _ ctxv) (log2n := log2n) (flags := flags) (err := err)
      (rms_path := fun _ => hrms)
  · exact h.advance hq hb hport (h.advance_ctxv hq _ ctxv) (log2n := log2n) (flags := flags) (err := err)
      (freq_path := fun _ _ => hfreq)
  · exact h.advance hq hb hport (h.advance_ctxv hq _ ctxv) (log2n := log2n) (flags := flags) (err := err)
      (peak_found := by simp [hfreq])

/-- A stored sample lies below `N`, so inside XBUF, and is counted without wrapping (R21, R80). -/
theorem execLoad_keeps_inv (h : s.Inv) (hq : s.phase = Phase.load) (he : execLoad s = .next t) : t.Inv := by
  rcases execLoad_cases he with ⟨-, -, rfl⟩ | ⟨-, rfl⟩ | ⟨_, _, -, -, -, rfl⟩ | ⟨beat, _, hw, -, -, hf, rfl⟩
  · exact h
  · exact h.leaveLoad hq h.base
  · exact h.leaveLoad hq (u := s.dropBeat) h.base.congr
  · have hN := State.frameSize_le hf
    have hcount := State.wptr_succ hf hw
    have hstored := h.base.storeWord .xbuf s.wptr.toNat (beatData beat) (Nat.lt_of_lt_of_le hw hN)
    have hbase : ({ s.dropBeat.storeWord .xbuf s.wptr.toNat (beatData beat) with wptr := s.wptr + 1#_ } : State).Base :=
      { hstored with wptr_bound := by simp only [hcount]; omega }
    rcases State.loadNext_cases _ with ⟨hroom, ht⟩ | ⟨-, ht⟩ <;> rw [ht]
    · exact { h with
        mem_wf := hbase.mem_wf
        mem_inside := hbase.mem_inside
        wptr_bound := hbase.wptr_bound
        loading := fun _ => hroom }
    · exact h.leaveLoad hq hbase

theorem execRms_keeps_inv (h : s.Inv) (hq : s.phase = Phase.rms) (he : execRms s = .next t) : t.Inv := by
  obtain ⟨-, rfl⟩ := State.withBuffers_next he
  rcases s.afterRms_cases with ⟨hfreq, hp⟩ | ⟨hfreq, hp⟩ <;> rw [hp]
  · exact h.advance hq h.base.congr (h.quiet_at hq) (h.advance_ctxv hq _) (freq_path := fun _ _ => hfreq)
  · exact h.advance hq h.base.congr (h.quiet_at hq) (h.advance_ctxv hq _)
      (peak_found := fun _ h' => absurd (hfreq.symm.trans h') (by decide))

/-- From BQ1 to PEAK `FLAGS.FREQ` is set (R132, R153). -/
theorem State.Inv.freq_at {q : BitVec 5} (h : s.Inv) (hq : s.phase = q)
    (range : 0x09 ≤ q.toNat ∧ q.toNat ≤ 0x0D := by decide) : s.flagFreq = true :=
  h.freq_path (hq ▸ range.1) (hq ▸ range.2)

theorem execBq1_keeps_inv (h : s.Inv) (hq : s.phase = Phase.bq1) (he : execBq1 s = .next t) : t.Inv := by
  obtain ⟨hf, rfl⟩ := State.withBuffers_next he
  exact h.advance hq (State.Base.writeFrame h.base.congr (by simp [State.frameSize]) hf) (h.quiet_at hq) (h.advance_ctxv hq _)
    (freq_path := fun _ _ => h.freq_at hq)

theorem execBq2_keeps_inv (h : s.Inv) (hq : s.phase = Phase.bq2) (he : execBq2 s = .next t) : t.Inv := by
  obtain ⟨hf, rfl⟩ := State.withBuffers_next he
  exact h.advance hq (State.Base.writeFrame h.base.congr (by simp [State.frameSize]) hf) (h.quiet_at hq) (h.advance_ctxv hq _)
    (freq_path := fun _ _ => h.freq_at hq)

theorem execWindow_keeps_inv (h : s.Inv) (hq : s.phase = Phase.window) (he : execWindow s = .next t) : t.Inv := by
  obtain ⟨hf, rfl⟩ := State.withBuffers_next he
  exact h.advance hq (h.base.writeFrame (by simp) hf) (h.quiet_at hq) (h.advance_ctxv hq _)
    (freq_path := fun _ _ => h.freq_at hq)

theorem execFft_keeps_inv (h : s.Inv) (hq : s.phase = Phase.fft) (he : execFft s = .next t) : t.Inv := by
  rcases execFft_cases he with ⟨-, hf, rfl⟩ | ⟨-, rfl⟩ | ⟨c, -, rfl⟩
  · exact (h.storeFrame .im _ (by simpa using State.frameSize_le hf)).request (.inr (.inl hq))
      (by simp [State.requestOp, hq])
  · exact h
  · exact h.advance hq h.base.congr rfl (h.advance_ctxv hq _) (freq_path := fun _ _ => h.freq_at hq)

/-- The bin PEAK reports is one of those it scanned, or bin 0 (R153). -/
theorem peakScan_lt {serial n : Nat} {pow : Word} {bins : List (Word × Word)} (hl : bins.length = n) (hn : 0 < n) :
    (peakScan serial 0 pow 0 bins).2 < n := by
  rcases peakScan_index serial 0 pow 0 bins with hi | ⟨-, hi⟩ <;> omega

theorem execPeak_keeps_inv (h : s.Inv) (hq : s.phase = Phase.peak) (he : execPeak s = .next t) : t.Inv := by
  obtain ⟨hf, rfl⟩ := State.withBuffers_next he
  have hconfig : s.validConfig := h.config_valid (by simp [hq]) (by simp [hq])
  have hhalf : 0 < s.frameSize / 2 := by
    have := State.two_mul_half hconfig.2.1
    have := s.frameSize_pos
    omega
  refine h.advance hq h.base.congr (h.quiet_at hq) (h.advance_ctxv hq _) (peak_found := fun _ _ => ?_)
  have hbin := peakScan_lt (serial := s.env.draws) (pow := fZero)
    (bins := (s.frame .re (s.frameSize / 2)).zip (s.frame .im (s.frameSize / 2))) (by simp) hhalf
  have hN := State.frameSize_le hf
  exact (Index.toNat_ofNat (by omega)).trans_lt hbin

theorem execEmit_keeps_inv (h : s.Inv) (hq : s.phase = Phase.emit) (he : execEmit s = .next t) : t.Inv := by
  obtain rfl := Host.Outcome.next.inj he
  split
  · exact h
  · exact h.advance hq h.base (h.quiet_at hq) (h.advance_ctxv hq _)

/-- STOPPING gives the context up (R177). -/
theorem execStopping_keeps_inv (h : s.Inv) (hq : s.phase = Phase.stopping) (he : execStopping s = .next t) : t.Inv := by
  rcases execStopping_cases he with ⟨-, rfl⟩ | ⟨-, rfl⟩ | ⟨c, -, rfl⟩
  · exact h.request (.inr (.inr hq)) (by simp [State.requestOp, hq])
  · exact h
  · exact h.advance hq h.base.congr rfl (by simp) (stop_taken := fun _ => h.stop_taken (.inl hq))

/-- The operation in `PHASE` keeps the invariant. -/
theorem exec_phaseOp_keeps_inv {i : Instr} (h : s.Inv) (hi : i.format = .p) (hw : encode i = .phase s.phase)
    (he : exec i s = .next t) : t.Inv := by
  cases i with
  | idle | stopped | fatal => exact Host.Outcome.next.inj he ▸ h
  | validate => exact execValidate_keeps_inv h (State.phase_of_word hw) he
  | coef => exact execCoef_keeps_inv h (State.phase_of_word hw) he
  | wingen => exact execWingen_keeps_inv h (State.phase_of_word hw) he
  | ftgen => exact execFtgen_keeps_inv h (State.phase_of_word hw) he
  | fftinit => exact execFftinit_keeps_inv h (State.phase_of_word hw) he
  | check => exact execCheck_keeps_inv h (State.phase_of_word hw) he
  | load => exact execLoad_keeps_inv h (State.phase_of_word hw) he
  | rms => exact execRms_keeps_inv h (State.phase_of_word hw) he
  | bq1 => exact execBq1_keeps_inv h (State.phase_of_word hw) he
  | bq2 => exact execBq2_keeps_inv h (State.phase_of_word hw) he
  | window => exact execWindow_keeps_inv h (State.phase_of_word hw) he
  | fft => exact execFft_keeps_inv h (State.phase_of_word hw) he
  | peak => exact execPeak_keeps_inv h (State.phase_of_word hw) he
  | emit => exact execEmit_keeps_inv h (State.phase_of_word hw) he
  | stopping => exact execStopping_keeps_inv h (State.phase_of_word hw) he
  | _ => cases hi

end Sequencer

/-! The other agents. -/

/-- START enters VALIDATE from `IDLE` (R182). -/
theorem State.Inv.startRun {s : State} (h : s.Inv) : s.startRun.Inv := by
  rcases s.startRun_cases with ⟨hq, ht⟩ | ⟨-, ht⟩ <;> rw [ht]
  · exact State.inv_enter h.base (by decide) (by simp) (h.advance_ctxv hq Phase.validate)
      (by simpa [hq] using h.err_fatal) (by simp) (by simp) (h.quiet_at hq) (by simp) (by simp) (by simp)
  · exact h

theorem State.Inv.hostWrite {s : State} (h : s.Inv) {addr : BitVec 4} {data : Word}
    (hw : (Instr.wr addr data).wellFormed = true) : (s.hostWrite addr data).Inv := by
  rcases s.hostWrite_cases hw with ht | ⟨hq, r, l, f, ht⟩ <;> rw [ht]
  · exact h
  · exact h.configure hq r l f

/-- The backend's transform stays inside the buffers, and its answer comes while a request waits (R94, R216). -/
theorem State.Inv.transform {s : State} {i : Instr} {l : Nat} (h : s.Inv) (ho : s.outstanding = some i)
    (hl : l ≤ Config.maxLog2) : (s.transform l).Inv := by
  have hN : 2 ^ l ≤ 2 ^ Config.maxLog2 := Nat.pow_le_pow_right (by decide) hl
  exact ((h.storeFrame .re _ (by simpa using hN)).storeFrame .im _ (by simpa using hN)).answer (h.phase_of_outstanding ho)

/-- Every instruction that is no phase operation keeps the invariant, in every phase. -/
theorem exec_event_keeps_inv {s t : State} {i : Instr} (h : s.Inv) (hi : i.format ≠ .p) (hw : i.wellFormed = true)
    (he : exec i s = .next t) : t.Inv := by
  cases i with
  | start => exact Host.Outcome.next.inj he ▸ h.startRun
  | stop | stopreq => exact Host.Outcome.next.inj he ▸ h.setStop
  | wr addr data => exact Host.Outcome.next.inj he ▸ h.hostWrite hw
  | rd _ | sample _ | short => exact Host.Outcome.next.inj he ▸ h.withEnv _
  | freq _ | amp _ | rmsv _ | eol => exact Host.Outcome.next.inj he ▸ h.acceptBeat _
  | reqInit _ | reqDestroy _ =>
    obtain rfl := Host.Outcome.next.inj he
    split
    · rename_i ho
      exact h.answer (h.phase_of_outstanding ho)
    · exact h
  | reqApply l ctx =>
    rcases execReqApply_cases he with ⟨ho, hl, rfl⟩ | ⟨-, rfl⟩
    · exact h.transform ho hl
    · exact h
  | reset => exact Host.Outcome.next.inj he ▸ State.inv_resetWith _
  | _ => exact absurd rfl hi

/-- Settles O7: the sequencer's operations keep the invariant in their phase, all others in every phase. -/
theorem stepKeepsInvariant : Obligations.StepKeepsInvariant := by
  unfold Obligations.StepKeepsInvariant
  intro s t h hstep
  have hturn : s.nextTurn.Inv := h.withEnv _
  rcases step_next_cases hstep with rfl | ⟨i, hruns, he⟩
  · exact hturn
  · by_cases hi : i.format = .p
    · exact exec_phaseOp_keeps_inv hturn hi (hruns.sequencer hi).2 he
    · exact exec_event_keeps_inv hturn hi hruns.wellFormed he

end Sys2Proof.Machine
end

section
/-! PROOFS of the statements of 10_state on the registers: each has its writer (O14), `STOPF` is sticky (O10), and reset
gives every register its value (O5). -/

namespace Sys2Proof.Machine

/-! Which register an instruction changes. -/

/-- The registers that differ from `s` to `t` are registers that `i` writes, in the phase named for them. A proof names the
registers that change; of every other one it is checked that the update leaves it alone. -/
structure ChangesOnly (i : Instr) (s t : State) : Prop where
  coefs : t.coefs ≠ s.coefs → i.format = .p ∧ s.phase = Phase.coef := by exact fun h => (h rfl).elim
  s1 : t.s1 ≠ s.s1 → i.format = .p ∧ s.phase = Phase.bq1 := by exact fun h => (h rfl).elim
  s2 : t.s2 ≠ s.s2 → i.format = .p ∧ s.phase = Phase.bq2 := by exact fun h => (h rfl).elim
  acc : t.acc ≠ s.acc → i.format = .p ∧ s.phase = Phase.rms := by exact fun h => (h rfl).elim
  resRms : t.resRms ≠ s.resRms → i.format = .p ∧ s.phase = Phase.rms := by exact fun h => (h rfl).elim
  pkPow : t.pkPow ≠ s.pkPow → i.format = .p ∧ s.phase = Phase.peak := by exact fun h => (h rfl).elim
  pkIdx : t.pkIdx ≠ s.pkIdx → i.format = .p ∧ s.phase = Phase.peak := by exact fun h => (h rfl).elim
  resFreq : t.resFreq ≠ s.resFreq → i.format = .p ∧ s.phase = Phase.peak := by exact fun h => (h rfl).elim
  resAmp : t.resAmp ≠ s.resAmp → i.format = .p ∧ s.phase = Phase.peak := by exact fun h => (h rfl).elim
  ctx : t.ctx ≠ s.ctx → i.format = .p ∧ s.phase = Phase.fftinit := by exact fun h => (h rfl).elim
  ctxv : t.ctxv ≠ s.ctxv → i.format = .p ∧ (s.phase = Phase.fftinit ∨ s.phase = Phase.stopping) := by
    exact fun h => (h rfl).elim
  err : t.err ≠ s.err → i.format = .p ∧ s.phase = Phase.validate := by exact fun h => (h rfl).elim
  wptr : t.wptr ≠ s.wptr → i.format = .p ∧ (s.phase = Phase.check ∨ s.phase = Phase.load) := by
    exact fun h => (h rfl).elim
  idx : t.idx ≠ s.idx → i.format = .p ∧ t.phase ≠ s.phase ∧ t.idx = 0#_ := by exact fun h => (h rfl).elim
  phase : t.phase ≠ s.phase →
    (i.format = .p ∧ (s.phase, t.phase) ∈ successors) ∨
    (s.phase = Phase.idle ∧ t.phase = Phase.validate ∧ i = .start) := by exact fun h => (h rfl).elim
  stopf : t.stopf ≠ s.stopf → t.stopf = true ∧ (i = .stopreq ∨ i = .stop) := by exact fun h => (h rfl).elim
  config : ¬ s.sameConfig t → s.phase = Phase.idle ∧ ∃ addr data, i = .wr addr data := by
    exact fun h => (h ⟨rfl, rfl, rfl⟩).elim

/-- No row of R170 leads back to its own phase, and only CHECK leads to LOAD. -/
theorem successors_spec : ∀ e ∈ successors, e.2 ≠ e.1 ∧ (e.2 = Phase.load → e.1 = Phase.check) := by
  simp [successors]

/-- A phase operation that changed `u` from `s` may write `PHASE` along the table of R170; this clears `IDX`, or `WPTR`
when the operation is CHECK (log 8). -/
theorem ChangesOnly.enter {i : Instr} {s u : State} {q p : BitVec 5} (h : ChangesOnly i s u) (hi : i.format = .p)
    (hq : s.phase = q) (hsucc : (q, p) ∈ successors := by decide) : ChangesOnly i s (u.enter p) := by
  subst hq
  obtain ⟨hne, hload⟩ := successors_spec _ hsucc
  exact { h with
    wptr := fun hw => by
      rw [State.enter_wptr] at hw
      split at hw
      · rename_i hp
        exact ⟨hi, .inl (hload hp)⟩
      · exact h.wptr hw
    idx := fun hx => by
      rw [State.enter_idx] at hx ⊢
      refine ⟨hi, hne, ?_⟩
      split at hx
      · rename_i hwalk
        exact if_pos hwalk
      · rename_i hwalk
        exact (if_neg hwalk).trans (h.idx hx).2.2
    phase := fun _ => .inl ⟨hi, hsucc⟩ }

/-- LOAD and RMS leave along the table of R170. -/
theorem State.afterLoad_mem_successors (s : State) : (Phase.load, s.afterLoad) ∈ successors := by
  rcases s.afterLoad_cases with ⟨-, hp⟩ | ⟨-, -, hp⟩ | ⟨-, -, hp⟩ <;> rw [hp] <;> decide

theorem State.afterRms_mem_successors (s : State) : (Phase.rms, s.afterRms) ∈ successors := by
  rcases s.afterRms_cases with ⟨-, hp⟩ | ⟨-, hp⟩ <;> rw [hp] <;> decide

section Sequencer

variable {s t : State}

theorem execValidate_changesOnly (hq : s.phase = Phase.validate) (he : execValidate s = .next t) :
    ChangesOnly .validate s t := by
  obtain rfl := Host.Outcome.next.inj he
  have hfatal : ∀ code, ChangesOnly .validate s (s.raiseFatal code) := fun code =>
    ChangesOnly.enter (u := { s with err := code }) { err := fun _ => ⟨rfl, hq⟩ } rfl hq
  split
  · exact hfatal _
  · split
    · exact hfatal _
    · exact .enter {} rfl hq

theorem execFftinit_changesOnly (hq : s.phase = Phase.fftinit) (he : execFftinit s = .next t) :
    ChangesOnly .fftinit s t := by
  rcases execFftinit_cases he with ⟨-, rfl⟩ | ⟨-, rfl⟩ | ⟨c, -, rfl⟩
  · exact {}
  · exact {}
  · exact .enter { ctx := fun _ => ⟨rfl, hq⟩, ctxv := fun _ => ⟨rfl, .inl hq⟩ } rfl hq

theorem execCheck_changesOnly (hq : s.phase = Phase.check) (he : execCheck s = .next t) : ChangesOnly .check s t := by
  obtain rfl := Host.Outcome.next.inj he
  split <;> exact .enter {} rfl hq

theorem execLoad_changesOnly (hq : s.phase = Phase.load) (he : execLoad s = .next t) : ChangesOnly .load s t := by
  rcases execLoad_cases he with ⟨-, -, rfl⟩ | ⟨-, rfl⟩ | ⟨_, _, -, -, -, rfl⟩ | ⟨beat, _, -, -, -, -, rfl⟩
  · exact {}
  · exact .enter {} rfl hq s.afterLoad_mem_successors
  · exact .enter {} rfl hq s.afterLoad_mem_successors
  · have hcount : ChangesOnly .load s
        { s.dropBeat.storeWord .xbuf s.wptr.toNat (beatData beat) with wptr := s.wptr + 1#_ } :=
      { wptr := fun _ => ⟨rfl, .inr hq⟩ }
    rcases State.loadNext_cases _ with ⟨-, ht⟩ | ⟨-, ht⟩ <;> rw [ht]
    · exact hcount
    · exact hcount.enter rfl hq (State.afterLoad_mem_successors _)

theorem execFft_changesOnly (hq : s.phase = Phase.fft) (he : execFft s = .next t) : ChangesOnly .fft s t := by
  rcases execFft_cases he with ⟨-, -, rfl⟩ | ⟨-, rfl⟩ | ⟨c, -, rfl⟩
  · exact {}
  · exact {}
  · exact .enter {} rfl hq

theorem execEmit_changesOnly (hq : s.phase = Phase.emit) (he : execEmit s = .next t) : ChangesOnly .emit s t := by
  obtain rfl := Host.Outcome.next.inj he
  split
  · exact {}
  · exact .enter {} rfl hq

theorem execStopping_changesOnly (hq : s.phase = Phase.stopping) (he : execStopping s = .next t) :
    ChangesOnly .stopping s t := by
  rcases execStopping_cases he with ⟨-, rfl⟩ | ⟨-, rfl⟩ | ⟨c, -, rfl⟩
  · exact {}
  · exact {}
  · exact .enter { ctxv := fun _ => ⟨rfl, .inr hq⟩ } rfl hq

/-- Each phase operation writes its own registers, and `PHASE` along the table of R170. -/
theorem exec_phaseOp_changesOnly {i : Instr} (hi : i.format = .p) (hw : encode i = .phase s.phase)
    (he : exec i s = .next t) : ChangesOnly i s t := by
  cases i with
  | idle | stopped | fatal =>
    obtain rfl := Host.Outcome.next.inj he
    exact {}
  | validate => exact execValidate_changesOnly (State.phase_of_word hw) he
  | coef =>
    obtain rfl := Host.Outcome.next.inj he
    have hq : s.phase = Phase.coef := State.phase_of_word hw
    exact .enter { coefs := fun _ => ⟨rfl, hq⟩ } rfl hq
  | wingen | ftgen | window =>
    obtain ⟨-, rfl⟩ := State.withBuffers_next he
    exact .enter {} rfl (State.phase_of_word hw)
  | fftinit => exact execFftinit_changesOnly (State.phase_of_word hw) he
  | check => exact execCheck_changesOnly (State.phase_of_word hw) he
  | load => exact execLoad_changesOnly (State.phase_of_word hw) he
  | rms =>
    obtain ⟨-, rfl⟩ := State.withBuffers_next he
    have hq : s.phase = Phase.rms := State.phase_of_word hw
    exact .enter { acc := fun _ => ⟨rfl, hq⟩, resRms := fun _ => ⟨rfl, hq⟩ } rfl hq s.afterRms_mem_successors
  | bq1 =>
    obtain ⟨-, rfl⟩ := State.withBuffers_next he
    have hq : s.phase = Phase.bq1 := State.phase_of_word hw
    exact .enter { s1 := fun _ => ⟨rfl, hq⟩ } rfl hq
  | bq2 =>
    obtain ⟨-, rfl⟩ := State.withBuffers_next he
    have hq : s.phase = Phase.bq2 := State.phase_of_word hw
    exact .enter { s2 := fun _ => ⟨rfl, hq⟩ } rfl hq
  | fft => exact execFft_changesOnly (State.phase_of_word hw) he
  | peak =>
    obtain ⟨-, rfl⟩ := State.withBuffers_next he
    have hq : s.phase = Phase.peak := State.phase_of_word hw
    have written : Instr.peak.format = .p ∧ s.phase = Phase.peak := ⟨rfl, hq⟩
    exact .enter
      { pkPow := fun _ => written, pkIdx := fun _ => written, resFreq := fun _ => written, resAmp := fun _ => written }
      rfl hq
  | emit => exact execEmit_changesOnly (State.phase_of_word hw) he
  | stopping => exact execStopping_changesOnly (State.phase_of_word hw) he
  | _ => cases hi

end Sequencer

/-- The backend's transform reaches the buffers, the port and the environment, and no register (R94, R216). -/
theorem State.transform_eq (s : State) (l : Nat) :
    ∃ m port env, s.transform l = { s with mem := m, fftPort := port, env := env } :=
  ⟨_, _, _, rfl⟩

/-- A beat that transfers is no register's. -/
theorem ChangesOnly.acceptBeat (i : Instr) (s : State) (w : BitVec 34) : ChangesOnly i s (s.acceptBeat w) := by
  rcases s.acceptBeat_cases w with ⟨-, ht⟩ | ⟨-, ht⟩ <;> rw [ht] <;> exact {}

/-- Of the other instructions, START writes `PHASE`, STOP and STOPREQ write `STOPF`, WR the configuration, and no other but
RESET writes a register. -/
theorem exec_event_changesOnly {s t : State} {i : Instr} (hi : i.format ≠ .p) (hw : i.wellFormed = true)
    (hreset : i ≠ .reset) (he : exec i s = .next t) : ChangesOnly i s t := by
  cases i with
  | start =>
    obtain rfl := Host.Outcome.next.inj he
    rcases s.startRun_cases with ⟨hq, ht⟩ | ⟨-, ht⟩ <;> rw [ht]
    · exact { phase := fun _ => .inr ⟨hq, rfl, rfl⟩ }
    · exact {}
  | stop =>
    obtain rfl := Host.Outcome.next.inj he
    exact { stopf := fun _ => ⟨rfl, .inr rfl⟩ }
  | stopreq =>
    obtain rfl := Host.Outcome.next.inj he
    exact { stopf := fun _ => ⟨rfl, .inl rfl⟩ }
  | wr addr data =>
    obtain rfl := Host.Outcome.next.inj he
    rcases s.hostWrite_cases hw with ht | ⟨hq, r, l, f, ht⟩ <;> rw [ht]
    · exact {}
    · exact { config := fun _ => ⟨hq, addr, data, rfl⟩ }
  | rd _ | sample _ | short =>
    obtain rfl := Host.Outcome.next.inj he
    exact {}
  | freq _ | amp _ | rmsv _ | eol =>
    obtain rfl := Host.Outcome.next.inj he
    exact .acceptBeat _ s _
  | reqInit _ | reqDestroy _ =>
    obtain rfl := Host.Outcome.next.inj he
    split <;> exact {}
  | reqApply l ctx =>
    rcases execReqApply_cases he with ⟨-, -, rfl⟩ | ⟨-, rfl⟩
    · obtain ⟨m, port, env, ht⟩ := s.transform_eq l.toNat
      rw [ht]
      exact {}
    · exact {}
  | reset => exact absurd rfl hreset
  | _ => exact absurd rfl hi

/-- A step that is no reset passes a turn, which changes no register, or runs an instruction that changes its own. -/
theorem step_changesOnly {s t : State} (h : step s = .next t) (hreset : ¬ s.resetNext) :
    t = s.nextTurn ∨ ∃ i, s.Runs i ∧ ChangesOnly i s.nextTurn t := by
  rcases step_next_cases h with ht | ⟨i, hruns, he⟩
  · exact .inl ht
  · refine .inr ⟨i, hruns, ?_⟩
    by_cases hi : i.format = .p
    · exact exec_phaseOp_changesOnly hi (hruns.sequencer hi).2 he
    · refine exec_event_changesOnly hi hruns.wellFormed ?_ he
      rintro rfl
      exact hreset hruns.resetNext

/-- Settles O14: whoever runs the instruction that changed a register is the writer named for it. -/
theorem registerWriters : Obligations.RegisterWriters := by
  unfold Obligations.RegisterWriters
  intro s t hstep hreset
  rcases step_changesOnly hstep hreset with rfl | ⟨i, hruns, w⟩
  · simp [State.sameConfig]
  · have seq : i.format = .p → s.sequencerNext := fun hi => (hruns.sequencer hi).1
    refine ⟨fun h => (w.coefs h).imp_left seq, fun h => (w.s1 h).imp_left seq, fun h => (w.s2 h).imp_left seq,
      fun h => (h.elim w.acc w.resRms).imp_left seq, ?peak, fun h => (w.ctx h).imp_left seq,
      fun h => (w.ctxv h).imp_left seq, fun h => (w.err h).imp_left seq, fun h => (w.wptr h).imp_left seq,
      fun h => (w.idx h).imp_left seq, fun h => (w.phase h).imp (And.imp_left seq) ?start, fun h => ?stop,
      fun h => ?config⟩
    case peak =>
      rintro (h | h | h | h)
      · exact (w.pkPow h).imp_left seq
      · exact (w.pkIdx h).imp_left seq
      · exact (w.resFreq h).imp_left seq
      · exact (w.resAmp h).imp_left seq
    case start =>
      rintro ⟨hidle, hvalidate, rfl⟩
      exact ⟨hidle, hvalidate, hruns.host rfl⟩
    case stop =>
      obtain ⟨hset, rfl | rfl⟩ := w.stopf h
      · exact ⟨hset, .inl hruns.stopReq⟩
      · exact ⟨hset, .inr (hruns.host rfl)⟩
    case config =>
      obtain ⟨hidle, addr, data, rfl⟩ := w.config h
      obtain ⟨word, turn, hword⟩ := hruns.host rfl
      exact ⟨hidle, word, addr, data, turn, hword⟩

/-- Settles O10: by O14 a change of `STOPF` is a change to 1. -/
theorem stopIsSticky : Obligations.StopIsSticky := by
  unfold Obligations.StopIsSticky
  intro s t hstep hset hreset
  obtain ⟨-, -, -, -, -, -, -, -, -, -, -, hstopf, -⟩ := registerWriters s t hstep hreset
  by_cases h : t.stopf = s.stopf
  · exact h.trans hset
  · exact (hstopf h).1

/-! Reset. -/

/-- Settles O5: each value stands in `State.resetWith`, and `STATUS` and the pins are made of them. -/
theorem resetValues : Obligations.ResetValues := by
  unfold Obligations.ResetValues
  refine ⟨fun _ => rfl, rfl, ?_⟩
  rintro e t rfl
  have hphase : (State.resetWith e).phase = Phase.idle := rfl
  have hctxv : (State.resetWith e).ctxv = false := rfl
  have hstopf : (State.resetWith e).stopf = false := rfl
  have hdone : (State.resetWith e).done = false := by simp [State.done, hphase]
  have hfatalf : (State.resetWith e).fatalf = false := by simp [State.fatalf, hphase]
  have hstatus : (State.resetWith e).statusWord = 0x00000000#32 := by
    rw [State.statusWord, hctxv, hstopf, hdone, hfatalf, hphase]
    decide
  have hready : (State.resetWith e).inReady = false := by simp [State.inReady, hphase]
  have hvalid : (State.resetWith e).outValid = false := by simp [State.outValid, State.offered, hphase]
  exact ⟨hphase, rfl, rfl, hstopf, hctxv, rfl, rfl, rfl, rfl, rfl, rfl, hstatus, hdone, hfatalf, hready, hvalid, rfl, rfl⟩

end Sys2Proof.Machine
end

section
/-! PROOFS of the statements of 20_memory on the five buffers: what each instruction accesses, and that a word changes only
in the operations R70 names for it (O15). -/

namespace Sys2Proof.Machine

/-! What LOAD does with a sample beat. -/

/-- The sample `x` has been stored at `XBUF[WPTR]` and counted; whether it was the last of the frame is `State.loadNext`'s
to see (R174). -/
def State.takeSample (s : State) (x : Word) : State :=
  { s.dropBeat.storeWord .xbuf s.wptr.toNat x with wptr := s.wptr + 1#_ }

theorem State.word_takeSample (s : State) (x : Word) (k : BufId) (j : Nat) :
    (s.takeSample x).word k j = if k = .xbuf ∧ j = s.wptr.toNat then x else s.word k j :=
  State.word_storeWord s.dropBeat .xbuf s.wptr.toNat x k j

/-- LOAD with a sample beat first at the source. -/
theorem execLoad_eq_takeSample {s : State} {beat : BitVec 33} {rest : List (BitVec 33)} (hf : s.fits = true)
    (hw : s.wptr.toNat < s.frameSize) (hs : s.env.source = beat :: rest) (hb : beatShort beat = false) :
    execLoad s = .next (s.takeSample (beatData beat)).loadNext :=
  execLoad_of_sample hf hw hs hb

/-! What an instruction accesses. -/

/-- The table of R70: word `j` of buffer `k` is one that the instruction writes when it completes in state `s`. The backend
writes RE and IM for the request it serves, at the size that request carries (R94). -/
inductive Writes (s : State) : Instr → BufId → Nat → Prop
  | load (room : s.wptr.toNat < s.frameSize) : Writes s .load .xbuf s.wptr.toNat
  | bq1 {j : Nat} (below : j < s.frameSize) : Writes s .bq1 .re j
  | bq2 {j : Nat} (below : j < s.frameSize) : Writes s .bq2 .re j
  | window {j : Nat} (below : j < s.frameSize) : Writes s .window .re j
  | fft {j : Nat} (below : j < s.frameSize) : Writes s .fft .im j
  | wingen {j : Nat} (below : j < s.frameSize) : Writes s .wingen .win j
  | ftgen {j : Nat} (below : j < s.frameSize) : Writes s .ftgen .ftab j
  | applyRe {l : BitVec 5} {ctx : Ctx} {j : Nat} (served : s.outstanding = some (.reqApply l ctx))
      (below : j < 2 ^ l.toNat) : Writes s (.reqApply l ctx) .re j
  | applyIm {l : BitVec 5} {ctx : Ctx} {j : Nat} (served : s.outstanding = some (.reqApply l ctx))
      (below : j < 2 ^ l.toNat) : Writes s (.reqApply l ctx) .im j

/-- What the instruction changes of the buffers and of the source's beats when it takes `s` to `t`: words of the table of R70,
and, if it is LOAD, the first beat while `WPTR < N` (R80, R82). The beats a source itself offers are left out. A proof names
what changes; of the rest it is checked that the update leaves it alone. -/
structure Accesses (i : Instr) (s t : State) : Prop where
  words : ∀ k j, t.word k j ≠ s.word k j → Writes s i k j := by exact fun _ _ h => absurd rfl h
  source : i.format ≠ .i → t.env.source = s.env.source ∨
    (i = .load ∧ s.wptr.toNat < s.frameSize ∧ ∃ beat, s.env.source = beat :: t.env.source) := by
      exact fun _ => .inl rfl

section

variable {s t : State}

/-- Writing a frame changes at most the words of that frame. -/
theorem State.lt_of_word_storeFrame_ne {k l : BufId} {ws : List Word} {j : Nat}
    (h : (s.storeFrame k ws).word l j ≠ s.word l j) : l = k ∧ j < ws.length := by
  rw [State.word_storeFrame] at h
  by_contra hc
  exact h (dif_neg hc)

/-- An operation that writes `N` words of one buffer accesses no other (R70, R87). -/
theorem Accesses.ofFrame {u : State} {i : Instr} {k : BufId} {ws : List Word} {p : BitVec 5}
    (he : s.withBuffers ((u.storeFrame k ws).spend.enter p) = .next t) (hN : ws.length = s.frameSize)
    (writes : ∀ {j}, j < s.frameSize → Writes s i k j) (hm : u.mem = s.mem := by rfl) (henv : u.env = s.env := by rfl) :
    Accesses i s t := by
  obtain ⟨-, rfl⟩ := State.withBuffers_next he
  refine { words := fun l j h => ?_, source := fun _ => .inl (congrArg Env.source henv :) }
  rw [State.word_enter, State.word_spend, ← State.word_congr hm (congrArg Env.epoch henv)] at h
  obtain ⟨rfl, below⟩ := State.lt_of_word_storeFrame_ne h
  exact writes (hN ▸ below)

/-- A write of `PHASE` accesses nothing. -/
theorem Accesses.enter {i : Instr} (h : Accesses i s t) (p : BitVec 5) : Accesses i s (t.enter p) :=
  { words := h.words, source := h.source }

/-- The sample that LOAD takes goes to `XBUF[WPTR]`, which lies below `N` (R71, R174). -/
theorem takeSample_accesses {beat : BitVec 33} {rest : List (BitVec 33)} (room : s.wptr.toNat < s.frameSize)
    (hs : s.env.source = beat :: rest) : Accesses .load s (s.takeSample (beatData beat)) where
  words := fun k j h => by
    rw [State.word_takeSample] at h
    split at h
    · rename_i hword
      obtain ⟨rfl, rfl⟩ := hword
      exact .load room
    · exact absurd rfl h
  source := fun _ => .inr ⟨rfl, room, beat, by simp [State.takeSample, hs]⟩

/-- LOAD accesses nothing while it waits, takes a SHORT beat without a write, or takes a sample (R81, R174). -/
theorem execLoad_accesses (he : execLoad s = .next t) : Accesses .load s t := by
  rcases execLoad_cases he with ⟨-, -, rfl⟩ | ⟨-, rfl⟩ | ⟨beat, rest, room, hs, -, rfl⟩ |
    ⟨beat, rest, room, hs, -, -, rfl⟩
  · exact {}
  · exact {}
  · exact { source := fun _ => .inr ⟨rfl, room, beat, by simp [hs]⟩ }
  · have htaken := takeSample_accesses room hs
    rcases State.loadNext_cases (s.takeSample (beatData beat)) with ⟨-, ht⟩ | ⟨-, ht⟩
    · exact ht ▸ htaken
    · exact ht ▸ htaken.enter _

/-- FFT zeroes the words of IM below `N` before its request (R73, R152). -/
theorem execFft_accesses (he : execFft s = .next t) : Accesses .fft s t := by
  rcases execFft_cases he with ⟨-, -, rfl⟩ | ⟨-, rfl⟩ | ⟨_, -, rfl⟩
  · refine { words := fun k j h => ?_ }
    obtain ⟨rfl, below⟩ := State.lt_of_word_storeFrame_ne h
    exact .fft (by simpa using below)
  · exact {}
  · exact {}

/-- FFT.APPLY writes RE and IM below the size of the request it serves (R94, R216). -/
theorem execReqApply_accesses {log2n : BitVec 5} {ctx : Ctx} (he : execReqApply log2n ctx s = .next t) :
    Accesses (.reqApply log2n ctx) s t := by
  rcases execReqApply_cases he with ⟨served, -, rfl⟩ | ⟨-, rfl⟩
  · refine { words := fun k j h => ?_ }
    rw [State.transform, State.word_answer] at h
    by_cases hre : (s.storeFrame .re ((List.range (2 ^ log2n.toNat)).map (fun i => (fftOutput s log2n.toNat i).1))).word
        k j = s.word k j
    · rw [← hre] at h
      obtain ⟨rfl, below⟩ := State.lt_of_word_storeFrame_ne h
      exact .applyIm served (by simpa using below)
    · obtain ⟨rfl, below⟩ := State.lt_of_word_storeFrame_ne hre
      exact .applyRe served (by simpa using below)
  · exact {}

/-- Of all instructions but RESET, each writes at most the words the table of R70 gives it, and LOAD alone takes beats. -/
theorem exec_accesses {i : Instr} (hw : i.wellFormed = true) (hreset : i ≠ .reset) (he : exec i s = .next t) :
    Accesses i s t := by
  cases i with
  | load => exact execLoad_accesses he
  | bq1 => exact .ofFrame he (by simp) .bq1
  | bq2 => exact .ofFrame he (by simp) .bq2
  | window => exact .ofFrame he (by simp) .window
  | wingen => exact .ofFrame he (by simp) .wingen
  | ftgen => exact .ofFrame he (by simp) .ftgen
  | fft => exact execFft_accesses he
  | reqApply _ _ => exact execReqApply_accesses he
  | sample _ | short =>
    obtain rfl := Host.Outcome.next.inj he
    exact { source := fun h => absurd rfl h }
  | rms | peak =>
    obtain ⟨-, rfl⟩ := State.withBuffers_next he
    exact {}
  | fftinit => rcases execFftinit_cases he with ⟨-, rfl⟩ | ⟨-, rfl⟩ | ⟨_, -, rfl⟩ <;> exact {}
  | stopping => rcases execStopping_cases he with ⟨-, rfl⟩ | ⟨-, rfl⟩ | ⟨_, -, rfl⟩ <;> exact {}
  | validate | check | emit | reqInit _ | reqDestroy _ =>
    obtain rfl := Host.Outcome.next.inj he
    repeat' split
    all_goals exact {}
  | start =>
    obtain rfl := Host.Outcome.next.inj he
    rcases s.startRun_cases with ⟨-, ht⟩ | ⟨-, ht⟩ <;> rw [ht] <;> exact {}
  | wr addr data =>
    obtain rfl := Host.Outcome.next.inj he
    rcases s.hostWrite_cases hw with ht | ⟨-, _, _, _, ht⟩ <;> rw [ht] <;> exact {}
  | freq _ | amp _ | rmsv _ | eol =>
    obtain rfl := Host.Outcome.next.inj he
    rcases s.acceptBeat_cases _ with ⟨-, ht⟩ | ⟨-, ht⟩ <;> rw [ht] <;> exact {}
  | idle | stopped | fatal | coef | stop | rd _ | stopreq =>
    obtain rfl := Host.Outcome.next.inj he
    exact {}
  | reset => exact absurd rfl hreset

end

/-- Under the invariant the request the backend transforms is the one FFT sent, at the frame's size (R111, R152). -/
theorem State.Inv.fft_of_apply {s : State} {l : BitVec 5} {ctx : Ctx} (h : s.Inv)
    (served : s.outstanding = some (.reqApply l ctx)) : s.phase = Phase.fft ∧ l = s.log2n := by
  obtain ⟨hdr, c, hport, hdecode⟩ := State.outstanding_eq_some served
  obtain ⟨rfl, -⟩ := h.port_word hdr c hport
  rcases h.phase_of_outstanding served with hq | hq | hq
  · rw [show s.requestOp = 0b01#2 by simp [State.requestOp, hq], decodeBackend_backendHdr_init] at hdecode
    cases hdecode
  · rw [show s.requestOp = 0b10#2 by simp [State.requestOp, hq], decodeBackend_backendHdr_apply] at hdecode
    cases hdecode
    exact ⟨hq, rfl⟩
  · rw [show s.requestOp = 0b11#2 by simp [State.requestOp, hq], decodeBackend_backendHdr_destroy] at hdecode
    cases hdecode

/-- A phase operation runs in the phase that its word names (R101). -/
theorem State.Runs.phase_eq {s : State} {i : Instr} {p : BitVec 5} (h : s.Runs i) (hi : i.format = .p)
    (hp : encode i = .phase p) : s.phase = p :=
  State.phase_of_word (hp ▸ (h.sequencer hi).2)

/-- Settles O15: the instruction that changed a word is a writer of it, and the writer's phase is the one it runs in. -/
theorem bufferWriters : Obligations.BufferWriters := by
  unfold Obligations.BufferWriters
  intro s t k j hinv hstep hreset h
  rcases step_next_cases hstep with rfl | ⟨i, hruns, he⟩
  · exact absurd rfl h
  · have hne : i ≠ .reset := by
      rintro rfl
      exact hreset hruns.resetNext
    cases (exec_accesses hruns.wellFormed hne he).words k j h with
    | load room => exact ⟨room, hruns.phase_eq rfl rfl, rfl⟩
    | bq1 below => exact ⟨below, .inl (hruns.phase_eq rfl rfl)⟩
    | bq2 below => exact ⟨below, .inr (.inl (hruns.phase_eq rfl rfl))⟩
    | window below => exact ⟨below, .inr (.inr (.inl (hruns.phase_eq rfl rfl)))⟩
    | fft below => exact ⟨below, hruns.phase_eq rfl rfl⟩
    | wingen below => exact ⟨below, hruns.phase_eq rfl rfl⟩
    | ftgen below => exact ⟨below, hruns.phase_eq rfl rfl⟩
    | applyRe served below =>
      obtain ⟨hq, rfl⟩ := hinv.fft_of_apply served
      exact ⟨below, .inr (.inr (.inr hq))⟩
    | applyIm served below =>
      obtain ⟨hq, rfl⟩ := hinv.fft_of_apply served
      exact ⟨below, hq⟩

end Sys2Proof.Machine
end

section
/-! PROOFS of the statements of 20_memory on the order of accesses: `STOPF` is read by CHECK alone, so setting it commutes
with every other phase operation (O11). -/

namespace Sys2Proof.Machine

/-- An answer with `STOPF` set in its next state. -/
def stopOut : Out → Out
  | .next t => .next t.setStop
  | .fault r => .fault r
  | .refused r => .refused r

variable (s : State)

variable {s} in
/-- A buffer operation completes or faults by LOG2N alone (R70). -/
theorem withBuffers_setStop {t t' : State} (h : t' = t.setStop) : s.setStop.withBuffers t' = stopOut (s.withBuffers t) := by
  subst h
  have hf : s.setStop.fits = s.fits := rfl
  unfold State.withBuffers
  rw [hf]
  split <;> rfl

theorem State.setStop_loadNext : s.setStop.loadNext = s.loadNext.setStop := by
  unfold State.loadNext
  rw [apply_ite State.setStop]
  rfl

/-- LOAD reads the source, `WPTR` and the configuration (R174). -/
theorem execLoad_setStop : execLoad s.setStop = stopOut (execLoad s) := by
  have hw : s.setStop.wptr.toNat < s.setStop.frameSize ↔ s.wptr.toNat < s.frameSize := Iff.rfl
  have hs : s.setStop.env.source = s.env.source := rfl
  unfold execLoad
  simp only [hw, hs]
  split
  · cases s.env.source with
    | nil => rfl
    | cons beat rest =>
      dsimp only
      split
      · rfl
      · exact withBuffers_setStop (State.setStop_loadNext (s.takeSample (beatData beat)))
  · rfl

/-- FFTINIT, FFT and STOPPING read the backend port (R151, R152, R177). -/
theorem execFftinit_setStop : execFftinit s.setStop = stopOut (execFftinit s) := by
  have hp : s.setStop.fftPort = s.fftPort := rfl
  unfold execFftinit
  rw [hp]
  cases s.fftPort <;> rfl

theorem execFft_setStop : execFft s.setStop = stopOut (execFft s) := by
  have hp : s.setStop.fftPort = s.fftPort := rfl
  unfold execFft
  rw [hp]
  cases s.fftPort with
  | idle => exact withBuffers_setStop rfl
  | requested hdr ctx => rfl
  | done ctxOut => rfl

theorem execStopping_setStop : execStopping s.setStop = stopOut (execStopping s) := by
  have hp : s.setStop.fftPort = s.fftPort := rfl
  unfold execStopping
  rw [hp]
  cases s.fftPort <;> rfl

/-- No phase operation but CHECK reads or writes `STOPF`: run with it set, it answers the same with it set (R90). -/
theorem exec_setStop {i : Instr} (hi : i.format = .p) (hc : i ≠ .check) : exec i s.setStop = stopOut (exec i s) := by
  cases i with
  | idle | stopped | fatal | coef => rfl
  | validate | emit =>
    refine congrArg Host.Outcome.next ?_
    simp only [apply_ite State.setStop]
    rfl
  | load => exact execLoad_setStop s
  | fftinit => exact execFftinit_setStop s
  | fft => exact execFft_setStop s
  | stopping => exact execStopping_setStop s
  | wingen | ftgen | rms | bq1 | bq2 | window | peak => exact withBuffers_setStop rfl
  | check => exact absurd rfl hc
  | _ => cases hi

/-- Settles O11: the operation that answers `t` answers `t` with `STOPF` set. -/
theorem stopCommutes : Obligations.StopCommutes := by
  unfold Obligations.StopCommutes
  intro i s t hi hc he
  calc exec i s.setStop = stopOut (exec i s) := exec_setStop s hi hc
    _ = .next t.setStop := by rw [he]; rfl

end Sys2Proof.Machine
end

section
/-! PROOFS of the statements of 20_memory on the two streams: a SHORT beat ends LOAD (O23) and `N` samples fill the frame
(O24); the sink takes the beat on offer (O35) and so the whole line (O26). -/

namespace Sys2Proof.Machine

/-! The fields of a beat. -/

@[simp] theorem beatShort_inputWord (b : BitVec 1) (x : Word) : beatShort (inputWord b x) = (b == 1#1) := by
  rw [beatShort, inputWord, BitVec.extractLsb'_append_eq_left]

@[simp] theorem beatData_inputWord (b : BitVec 1) (x : Word) : beatData (inputWord b x) = x :=
  BitVec.extractLsb'_append_eq_right

/-- A beat is its two fields (R107). -/
theorem inputWord_fields (w : BitVec 33) : inputWord (w.extractLsb' 32 1) (beatData w) = w :=
  BitVec.extractLsb'_append_extractLsb' (w := 1) (len := 32)

/-- A beat of the output port decodes to the row of its kind, which transfers it (R108, R186). -/
theorem exec_of_mem_line {s : State} {w : BitVec 34} (hw : w ∈ s.line) :
    ∃ i, decodeOutput w = .ok i ∧ ∀ u, exec i u = .next (u.acceptBeat w) := by
  have kind : ∀ (k : BitVec 2) (x : Word), (outputWord k x).extractLsb' 32 2 = k := fun _ _ =>
    BitVec.extractLsb'_append_eq_left
  have data : ∀ (k : BitVec 2) (x : Word), (outputWord k x).extractLsb' 0 32 = x := fun _ _ =>
    BitVec.extractLsb'_append_eq_right
  rcases State.mem_line hw with rfl | rfl | rfl | rfl
  · exact ⟨.freq s.resFreq, by simp [decodeOutput, kind, data], fun _ => rfl⟩
  · exact ⟨.amp s.resAmp, by simp [decodeOutput, kind, data], fun _ => rfl⟩
  · exact ⟨.rmsv s.resRms, by simp [decodeOutput, kind, data], fun _ => rfl⟩
  · exact ⟨.eol, by simp [decodeOutput, kind, data], fun _ => rfl⟩

/-! Runs of several steps. -/

@[simp] theorem steps_zero (s : State) : steps 0 s = some s := rfl

/-- The first of several steps. -/
theorem steps_succ {s u : State} (k : Nat) (h : step s = .next u) : steps (k + 1) s = steps k u := by
  simp [steps, Host.Core.run, core, h]

/-- The sequencer's step runs the operation in `PHASE` (R101). -/
theorem step_of_phase {s : State} {i : Instr} (hs : s.sequencerNext) (hi : decodePhase s.phase = .ok i) :
    step s = exec i s.nextTurn :=
  step_of_decode (State.fetch_of_sequencerNext hs) hi

/-- With no turn left none is taken. -/
theorem State.nextTurn_of_no_turns {s : State} (h : s.env.turns = []) : s.nextTurn = s := by
  have henv : { s.env with turns := s.env.turns.tail } = s.env := by rw [h, List.tail_nil, ← h]
  rw [State.nextTurn, henv]

/-! LOAD. -/

/-- LOAD's exit writes `PHASE`; the start of its successor clears `IDX` or the count of sent beats (R41, R174, R176). -/
theorem State.enter_afterLoad_eq (s : State) : s.enter s.afterLoad = { s with
    phase := if s.flagRms then 0x08#5 else if s.flagFreq then 0x09#5 else 0x0E#5
    idx := if s.flagRms || s.flagFreq then 0#_ else s.idx
    sent := if s.flagRms || s.flagFreq then s.sent else 0 } := by
  rcases s.afterLoad_cases with ⟨hr, hp⟩ | ⟨hr, hf, hp⟩ | ⟨hr, hf, hp⟩ <;> rw [hp]
  · simp [State.enter, walks, hr]
  · simp [State.enter, walks, hr, hf]
  · simp [State.enter, walks, hr, hf]

/-- A SHORT beat is taken and ends LOAD (R81, R174). -/
theorem execLoad_of_short {s : State} {beat : BitVec 33} {rest : List (BitVec 33)} (hw : s.wptr.toNat < s.frameSize)
    (hs : s.env.source = beat :: rest) (hb : beatShort beat = true) :
    execLoad s = .next (s.dropBeat.enter s.afterLoad) := by
  rw [execLoad, if_pos hw]
  simp [hs, hb]

/-- Without a beat LOAD waits (R174, R241). -/
theorem execLoad_of_empty {s : State} (hw : s.wptr.toNat < s.frameSize) (hs : s.env.source = []) :
    execLoad s = .next s := by
  rw [execLoad, if_pos hw]
  simp [hs]

/-- Settles O23, from the two ways in which LOAD meets no sample. -/
theorem loadEndsOnShort : Obligations.LoadEndsOnShort := by
  unfold Obligations.LoadEndsOnShort
  intro s hw
  refine ⟨fun beat rest hs hb => ?_, execLoad_of_empty hw⟩
  have hdrop : s.dropBeat = { s with env := { s.env with source := rest } } := by simp [State.dropBeat, hs]
  calc exec .load s = .next (s.dropBeat.enter s.dropBeat.afterLoad) := execLoad_of_short hw hs hb
    _ = _ := by rw [State.enter_afterLoad_eq, hdrop]; rfl

/-- From `s` in LOAD the `samples` have been stored from `XBUF[WPTR]` on, up to the end of the frame, `rest` stands at the
source and LOAD is over. -/
structure State.LoadedFrom (s : State) (samples : List Word) (rest : List (BitVec 33)) (t : State) : Prop where
  stored : ∀ (i : Nat) (h : i < samples.length), t.word .xbuf (s.wptr.toNat + i) = samples[i]
  kept : s.keepsWords t (fun k i => k = .xbuf ∧ s.wptr.toNat ≤ i ∧ i < s.frameSize)
  env : t.env = { s.env with source := rest }
  full : t.wptr.toNat = s.frameSize
  phase : t.phase = s.afterLoad
  config : s.sameConfig t

/-- With a full frame there is no sample left to store. -/
theorem State.loadedFrom_nil {s : State} {rest : List (BitVec 33)} (hw : s.wptr.toNat = s.frameSize)
    (hs : s.env.source = rest) : s.LoadedFrom [] rest (s.enter s.afterLoad) where
  stored := fun i h => absurd h (Nat.not_lt_zero i)
  kept := fun _ _ _ => rfl
  env := by rw [← hs]; rfl
  full := by
    rcases s.afterLoad_cases with ⟨-, hp⟩ | ⟨-, -, hp⟩ | ⟨-, -, hp⟩ <;> simp [hp, hw]
  phase := rfl
  config := ⟨rfl, rfl, rfl⟩

/-- The first sample, and then those after it. -/
theorem State.LoadedFrom.cons {s t : State} {x : Word} {xs : List Word} {rest : List (BitVec 33)} (hf : s.fits = true)
    (hw : s.wptr.toNat < s.frameSize) (h : (s.takeSample x).LoadedFrom xs rest t) : s.LoadedFrom (x :: xs) rest t := by
  have hcount : (s.takeSample x).wptr.toNat = s.wptr.toNat + 1 := State.wptr_succ hf hw
  have hsize : (s.takeSample x).frameSize = s.frameSize := rfl
  obtain ⟨stored, kept, env, full, phase, config⟩ := h
  rw [hcount] at stored
  rw [hcount, hsize] at kept
  refine ⟨fun i hi => ?_, fun k i hki => ?_, env, full, phase, config⟩
  · cases i with
    | zero =>
      rw [kept _ _ (by omega), State.word_takeSample]
      simp
    | succ i =>
      have hnext := stored i (Nat.lt_of_succ_lt_succ hi)
      rwa [Nat.add_right_comm] at hnext
  · rw [kept _ _ fun ⟨hk, hi⟩ => hki ⟨hk, by omega⟩, State.word_takeSample, if_neg]
    rintro ⟨rfl, rfl⟩
    exact hki ⟨rfl, Nat.le_refl _, hw⟩

/-- While the sequencer alone moves, LOAD stores the samples one a step; the last of them ends it (R82, R174). The start of
LOAD and what follows a stored sample are the same state as long as the frame has room (`State.loadNext`). -/
theorem steps_load {samples : List Word} {rest : List (BitVec 33)} {s : State} (hf : s.fits = true)
    (hq : s.phase = Phase.load) (hturns : s.env.turns = []) (hw : s.wptr.toNat + samples.length = s.frameSize)
    (hs : s.env.source = samples.map (inputWord 0#1) ++ rest) :
    ∃ t, steps samples.length s.loadNext = some t ∧ s.LoadedFrom samples rest t := by
  induction samples generalizing s with
  | nil =>
    refine ⟨_, rfl, ?_⟩
    rw [State.loadNext_of_full (Nat.le_of_eq hw.symm)]
    exact State.loadedFrom_nil hw hs
  | cons x xs ih =>
    rw [List.length_cons] at hw
    have hroom : s.wptr.toNat < s.frameSize := by omega
    have hload : step s = .next (s.takeSample x).loadNext := by
      rw [step_of_phase (.inl hturns) (i := .load) (by rw [hq]; rfl), State.nextTurn_of_no_turns hturns]
      exact (execLoad_eq_takeSample hf hroom hs (by simp)).trans (by rw [beatData_inputWord])
    have hcount : (s.takeSample x).wptr.toNat = s.wptr.toNat + 1 := State.wptr_succ hf hroom
    obtain ⟨t, hsteps, hloaded⟩ := ih (s := s.takeSample x) hf hq hturns
      (by rw [hcount, Nat.add_right_comm]; exact hw) (congrArg List.tail hs)
    refine ⟨t, ?_, hloaded.cons hf hroom⟩
    rw [State.loadNext, if_pos hroom, List.length_cons, steps_succ _ hload, hsteps]

/-- Settles O24: the frame is empty at the start of LOAD, so the samples stand from index 0 on. -/
theorem loadFillsTheFrame : Obligations.LoadFillsTheFrame := by
  unfold Obligations.LoadFillsTheFrame
  intro s samples rest hf hq hw hturns hlen hs
  have hzero : s.wptr.toNat = 0 := by simp [hw]
  obtain ⟨t, hsteps, loaded⟩ := steps_load hf hq hturns (by omega) hs
  obtain ⟨stored, kept, env, full, phase, config⟩ := loaded
  rw [State.loadNext, if_pos (hzero ▸ s.frameSize_pos), hlen] at hsteps
  simp only [hzero, Nat.zero_add, Nat.zero_le, true_and] at stored kept
  exact ⟨t, hsteps, stored, kept, env, full, phase, config⟩

/-! The output port. -/

/-- The beat `w` has transferred to the sink (R84). -/
def State.transferBeat (s : State) (w : BitVec 34) : State :=
  { s with sent := s.sent + 1, env := { s.env with sink := s.env.sink ++ [w] } }

/-- The beat on offer transfers. -/
theorem State.acceptBeat_of_offered {s : State} {w : BitVec 34} (h : s.offered = some w) :
    s.acceptBeat w = s.transferBeat w :=
  if_pos h

/-- In EMIT the next beat of the line is on offer (R84, R176). -/
theorem State.offered_of_emit {s : State} (h : s.phase = Phase.emit) : s.offered = s.line[s.sent]? := if_pos h

/-- Settles O35: each kind of beat is offered to `State.acceptBeat`, which tells the one on offer from every other. -/
theorem sinkAcceptsBeats : Obligations.SinkAcceptsBeats := by
  unfold Obligations.SinkAcceptsBeats
  intro s i w hkind
  have hexec : exec i s = .next (s.acceptBeat w) := by
    rcases hkind with ⟨_, rfl, rfl⟩ | ⟨_, rfl, rfl⟩ | ⟨_, rfl, rfl⟩ | ⟨rfl, rfl⟩ <;> rfl
  rw [hexec]
  refine ⟨fun hq hline => ?_, fun hno => ?_⟩
  · rw [State.acceptBeat_of_offered ((State.offered_of_emit hq).trans hline)]
    rfl
  · rw [State.acceptBeat, if_neg fun h => hno (State.offered_eq_some h)]

/-- At the sink's turn in EMIT the next beat of the line transfers (R84, R176). -/
theorem step_sink {s : State} {later : List Turn} (hq : s.phase = Phase.emit) (hsent : s.sent < s.line.length)
    (hturns : s.env.turns = .sink :: later) :
    step s = .next (s.nextTurn.transferBeat s.line[s.sent]) := by
  have hoffered : s.offered = some s.line[s.sent] :=
    (State.offered_of_emit hq).trans (List.getElem?_eq_getElem hsent)
  have hfetch : s.fetch = some (.output s.line[s.sent]) := by
    rw [State.fetch, hturns]
    simp [hoffered]
  obtain ⟨i, hdecode, hexec⟩ := exec_of_mem_line (List.getElem_mem hsent)
  rw [step_of_decode hfetch hdecode, hexec, State.acceptBeat_of_offered (s := s.nextTurn) hoffered]

/-- EMIT with the whole line sent goes to CHECK (R176). -/
theorem step_emit_of_all_sent {s : State} (hs : s.sequencerNext) (hq : s.phase = Phase.emit)
    (hsent : s.line.length ≤ s.sent) : step s = .next (s.nextTurn.enter Phase.check) := by
  rw [step_of_phase hs (i := .emit) (by rw [hq]; rfl)]
  exact congrArg Host.Outcome.next (if_neg (Nat.not_lt_of_le hsent))

/-- A ready sink receives what is left of the line, and EMIT ends (R84, R176). -/
theorem steps_emit {n : Nat} {s : State} {later : List Turn} (hq : s.phase = Phase.emit)
    (hsent : s.sent + n = s.line.length) (hturns : s.env.turns = List.replicate n .sink ++ .sequencer :: later) :
    steps (n + 1) s = some
      { s with phase := Phase.check, sent := s.line.length,
               env := { s.env with turns := later, sink := s.env.sink ++ s.line.drop s.sent } } := by
  induction n generalizing s with
  | zero =>
    have hdone : s.sent = s.line.length := hsent
    rw [steps_succ 0 (step_emit_of_all_sent (.inr (by simp [hturns])) hq (Nat.le_of_eq hdone.symm)), steps_zero]
    simp [State.enter, walks, State.nextTurn, hturns, hdone]
  | succ n ih =>
    have hnext : s.sent < s.line.length := by omega
    rw [steps_succ _ (step_sink hq hnext hturns), List.drop_eq_getElem_cons hnext, List.append_cons]
    exact ih (s := s.nextTurn.transferBeat s.line[s.sent]) hq (show s.sent + 1 + n = s.line.length by omega)
      (congrArg List.tail hturns)

/-- Settles O26: at the start of EMIT what is left of the line is the whole of it. -/
theorem emitSendsTheLine : Obligations.EmitSendsTheLine := by
  unfold Obligations.EmitSendsTheLine
  intro s later hq hsent hturns
  rw [steps_emit hq (by omega) hturns, hsent, List.drop_zero]

end Sys2Proof.Machine
end

section
/-! PROOFS of the statements of 20_memory on the source: its beats wait until LOAD takes them (O34). -/

namespace Sys2Proof.Machine

/-- A beat of the input port is the move of the source that offers it (R107). -/
theorem head_of_decode_beatIn {s : State} {raw : Raw} {i : Instr} (hf : s.fetch = some raw) (hd : decode raw = .ok i)
    (hi : i.format = .i) : ∃ w, s.env.turns.head? = some (.source w) ∧ decodeInput w = i := by
  rcases fetch_cases hf with ⟨-, rfl⟩ | ⟨w, -, rfl⟩ | ⟨w, turn, rfl⟩ | ⟨w, -, -, rfl⟩ | ⟨hdr, ctx, -, -, rfl⟩ |
    ⟨-, rfl⟩ | ⟨-, rfl⟩
  · cases hi.symm.trans (decodePhase_ok hd).1
  · cases (Except.ok.inj hd ▸ hi).symm.trans (decodeHost_format w)
  · exact ⟨w, turn, Except.ok.inj hd⟩
  · cases hi.symm.trans (decodeOutput_ok hd).1
  · cases hi.symm.trans (decodeBackend_format hd)
  · cases Except.ok.inj hd
    cases hi
  · cases Except.ok.inj hd
    cases hi

/-- The beat that a word of the input port offers has the word's `in_short`, and is the word itself unless that is 1, where
the data is ignored (R81, R107). -/
theorem exec_decodeInput (w : BitVec 33) (s : State) :
    ∃ beat, exec (decodeInput w) s = .next (s.offerBeat beat) ∧ beatShort beat = beatShort w ∧
      (beatShort w = false → beat = w) := by
  have bit : ∀ b : BitVec 1, b = 0#1 ∨ b = 1#1 := by decide
  rcases bit (w.extractLsb' 32 1) with hb | hb
  · have hsample : decodeInput w = .sample (beatData w) := if_pos hb
    have hfields : inputWord 0#1 (beatData w) = w := hb ▸ inputWord_fields w
    refine ⟨w, ?_, rfl, fun _ => rfl⟩
    calc exec (decodeInput w) s = .next (s.offerBeat (inputWord 0#1 (beatData w))) := by rw [hsample]; rfl
      _ = .next (s.offerBeat w) := by rw [hfields]
  · have hshort : decodeInput w = .short := if_neg (by rw [hb]; decide)
    have hw : beatShort w = true := by rw [beatShort, hb]; rfl
    refine ⟨inputWord 1#1 0#32, ?_, ?_, fun h => ?_⟩
    · rw [hshort]
      rfl
    · rw [hw, beatShort_inputWord]
      rfl
    · cases hw.symm.trans h

/-- `in_ready` (R80). -/
theorem State.inReady_iff (s : State) : s.inReady = true ↔ s.phase = Phase.load ∧ s.wptr.toNat < s.frameSize := by
  simp [State.inReady]

/-- What a step that is no reset does to the source's beats: it keeps them, adds the one offered, or takes the first one
where `in_ready` is 1. -/
theorem step_source {s t : State} (hstep : step s = .next t) (hreset : ¬ s.resetNext) :
    t.env.source = s.env.source ∨
    (∃ w beat : BitVec 33, s.env.turns.head? = some (.source w) ∧ t.env.source = s.env.source ++ [beat] ∧
      beatShort beat = beatShort w ∧ (beatShort w = false → beat = w)) ∨
    (s.sequencerNext ∧ s.inReady = true ∧ ∃ beat : BitVec 33, s.env.source = beat :: t.env.source) := by
  rcases step_cases s with ⟨-, hs⟩ | ⟨raw, i, hf, hd, hs⟩ | ⟨raw, why, -, -, hs⟩ <;> rw [hs] at hstep
  · obtain rfl := Host.Outcome.next.inj hstep
    exact .inl rfl
  · have hruns := State.runs_of_decode hf hd
    by_cases hi : i.format = .i
    · obtain ⟨w, turn, rfl⟩ := head_of_decode_beatIn hf hd hi
      obtain ⟨beat, hoffer, hshort, hsame⟩ := exec_decodeInput w s.nextTurn
      obtain rfl := Host.Outcome.next.inj (hoffer.symm.trans hstep)
      exact .inr (.inl ⟨w, beat, turn, rfl, hshort, hsame⟩)
    · have hne : i ≠ .reset := by
        rintro rfl
        exact hreset hruns.resetNext
      rcases (exec_accesses hruns.wellFormed hne hstep).source hi with hkept | ⟨rfl, room, taken⟩
      · exact .inl hkept
      · exact .inr (.inr ⟨(hruns.sequencer rfl).1, s.inReady_iff.mpr ⟨hruns.phase_eq rfl rfl, room⟩, taken⟩)
  · cases hstep

/-- Settles O34, from `step_source`. -/
theorem sourceOffersBeats : Obligations.SourceOffersBeats := by
  unfold Obligations.SourceOffersBeats
  exact ⟨fun _ _ => ⟨rfl, inputWord 1#1 0#32, by simp, rfl⟩, State.inReady_iff, fun _ _ => step_source⟩

end Sys2Proof.Machine
end

section
/-! PROOFS of the statements of 30_encoding on the words: a word is its fields, so decoding undoes encoding (O1), and what a
word spells fixes every bit that its row does not ignore (O2). Words written out from the tables (O3). -/

namespace Sys2Proof

/-! Format H (R103). -/

@[simp] theorem hostWord_we (we : BitVec 1) (addr : BitVec 4) (data : Word) :
    (hostWord we addr data).extractLsb' 36 1 = we := by
  have h : hostWord we addr data = we ++ (addr ++ data) := BitVec.append_assoc
  rw [h, BitVec.extractLsb'_append_eq_left]

@[simp] theorem hostWord_addr (we : BitVec 1) (addr : BitVec 4) (data : Word) :
    (hostWord we addr data).extractLsb' 32 4 = addr := by
  have h : hostWord we addr data = we ++ (addr ++ data) := BitVec.append_assoc
  rw [h, BitVec.extractLsb'_append_eq_of_add_le (by decide), BitVec.extractLsb'_append_eq_left]

@[simp] theorem hostWord_data (we : BitVec 1) (addr : BitVec 4) (data : Word) :
    (hostWord we addr data).extractLsb' 0 32 = data :=
  BitVec.extractLsb'_append_eq_right

/-- `h_we` and `h_addr` are the upper five bits. -/
theorem host_operation_bits (w : BitVec 37) :
    w.extractLsb' 36 1 ++ w.extractLsb' 32 4 = w.extractLsb' 32 5 :=
  BitVec.extractLsb'_append_extractLsb'_eq_extractLsb' rfl

/-- A host word is its three fields. -/
theorem hostWord_fields (w : BitVec 37) :
    hostWord (w.extractLsb' 36 1) (w.extractLsb' 32 4) (w.extractLsb' 0 32) = w := by
  rw [hostWord, host_operation_bits]
  exact BitVec.extractLsb'_append_extractLsb' (w := 5) (len := 32)

/-- The command code is the word's low four bits. -/
theorem commandCode_host_data (w : BitVec 37) : commandCode (w.extractLsb' 0 32) = w.extractLsb' 0 4 :=
  BitVec.extractLsb'_extractLsb'_of_le (by decide)

/-- All a host word can spell, with the bits that make it so: a read, START, STOP, or a write that is neither. -/
theorem decodeHost_cases (w : BitVec 37) :
    (w.extractLsb' 36 1 = 0#1 ∧ decodeHost w = .rd (w.extractLsb' 32 4)) ∨
    (w.extractLsb' 32 5 = 0b10000#5 ∧ w.extractLsb' 0 4 = 0x1#4 ∧ decodeHost w = .start) ∨
    (w.extractLsb' 32 5 = 0b10000#5 ∧ w.extractLsb' 0 4 = 0x2#4 ∧ decodeHost w = .stop) ∨
    (hostWord 1#1 (w.extractLsb' 32 4) (w.extractLsb' 0 32) = w ∧
      decodeHost w = .wr (w.extractLsb' 32 4) (w.extractLsb' 0 32)) := by
  have write : w.extractLsb' 36 1 ≠ 0#1 → w.extractLsb' 36 1 = 1#1 := (BitVec.eq_zero_or_eq_one _).resolve_left
  have command : w.extractLsb' 36 1 ≠ 0#1 → w.extractLsb' 32 4 = 0x0#4 → w.extractLsb' 32 5 = 0b10000#5 := by
    intro hwe haddr
    rw [← host_operation_bits, write hwe, haddr]
    rfl
  unfold decodeHost
  simp only [commandCode_host_data]
  split
  · rename_i hwe
    exact .inl ⟨hwe, rfl⟩
  · rename_i hwe
    split
    · rename_i hstart
      obtain ⟨haddr, hcode⟩ := hstart
      exact .inr (.inl ⟨command hwe haddr, hcode, rfl⟩)
    · split
      · rename_i hstop
        obtain ⟨haddr, hcode⟩ := hstop
        exact .inr (.inr (.inl ⟨command hwe haddr, hcode, rfl⟩))
      · exact .inr (.inr (.inr ⟨write hwe ▸ hostWord_fields w, rfl⟩))

/-- A read decodes to RD, whatever data it carries. -/
theorem decodeHost_hostWord_read (addr : BitVec 4) (data : Word) : decodeHost (hostWord 0#1 addr data) = .rd addr := by
  simp [decodeHost]

/-- A write that is no START and no STOP decodes to WR (R103, R117). -/
theorem decodeHost_hostWord_write {addr : BitVec 4} {data : Word} (h : (Instr.wr addr data).wellFormed = true) :
    decodeHost (hostWord 1#1 addr data) = .wr addr data := by
  simp only [Instr.wellFormed, Bool.and_eq_true, Bool.not_eq_true', ← Bool.not_eq_true, beq_iff_eq] at h
  obtain ⟨hstart, hstop⟩ := h
  simp [decodeHost, hstart, hstop]

/-! Formats I and O (R107, R108). -/

theorem decodeInput_inputWord_sample (data : Word) : decodeInput (inputWord 0#1 data) = .sample data := by
  have hshort : (inputWord 0#1 data).extractLsb' 32 1 = 0#1 := BitVec.extractLsb'_append_eq_left
  have hdata : (inputWord 0#1 data).extractLsb' 0 32 = data := BitVec.extractLsb'_append_eq_right
  simp [decodeInput, hshort, hdata]

/-- All an input word can spell: a sample, with all its bits, or SHORT. -/
theorem decodeInput_cases (w : BitVec 33) :
    (inputWord 0#1 (w.extractLsb' 0 32) = w ∧ decodeInput w = .sample (w.extractLsb' 0 32)) ∨
    (w.extractLsb' 32 1 = 1#1 ∧ decodeInput w = .short) := by
  rcases BitVec.eq_zero_or_eq_one (w.extractLsb' 32 1) with h | h
  · exact .inl ⟨h ▸ Machine.inputWord_fields w, if_pos h⟩
  · exact .inr ⟨h, if_neg (by rw [h]; decide)⟩

@[simp] theorem outputWord_kind (kind : BitVec 2) (data : Word) : (outputWord kind data).extractLsb' 32 2 = kind :=
  BitVec.extractLsb'_append_eq_left

@[simp] theorem outputWord_data (kind : BitVec 2) (data : Word) : (outputWord kind data).extractLsb' 0 32 = data :=
  BitVec.extractLsb'_append_eq_right

/-! Format B (R109). -/

/-- The upper 8 bits of a request are its three fields. -/
theorem backendHdr_fields {hdr : BitVec 8} (h : hdr.extractLsb' 0 1 = 0#1) :
    backendHdr (hdr.extractLsb' 6 2) (hdr.extractLsb' 1 5) = hdr := by
  have hop : hdr.extractLsb' 6 2 ++ hdr.extractLsb' 1 5 = hdr.extractLsb' 1 7 :=
    BitVec.extractLsb'_append_extractLsb'_eq_extractLsb' rfl
  rw [backendHdr, hop, ← h]
  exact BitVec.extractLsb'_append_extractLsb' (w := 7) (len := 1)

/-- All a format-B word can spell, by `fft_op` and `fft_inverse`: a refusal, or a request. -/
theorem decodeBackend_cases (hdr : BitVec 8) (ctx : Ctx) :
    (hdr.extractLsb' 6 2 = 0b00#2 ∧ decodeBackend hdr ctx = .error .noRequest) ∨
    (hdr.extractLsb' 6 2 = 0b11#2 ∧ decodeBackend hdr ctx = .ok (.reqDestroy ctx)) ∨
    ((hdr.extractLsb' 6 2 = 0b01#2 ∨ hdr.extractLsb' 6 2 = 0b10#2) ∧ hdr.extractLsb' 0 1 = 1#1 ∧
      decodeBackend hdr ctx = .error .inverseRequest) ∨
    (backendHdr 0b01#2 (hdr.extractLsb' 1 5) = hdr ∧ decodeBackend hdr ctx = .ok (.reqInit (hdr.extractLsb' 1 5))) ∨
    (backendHdr 0b10#2 (hdr.extractLsb' 1 5) = hdr ∧
      decodeBackend hdr ctx = .ok (.reqApply (hdr.extractLsb' 1 5) ctx)) := by
  have op : ∀ b : BitVec 2, b = 0b00#2 ∨ b = 0b11#2 ∨ b = 0b01#2 ∨ b = 0b10#2 := by decide
  have fields := backendHdr_fields (hdr := hdr)
  rcases op (hdr.extractLsb' 6 2) with hop | hop | hop | hop
  · exact .inl ⟨hop, by simp [decodeBackend, hop]⟩
  · exact .inr (.inl ⟨hop, by simp [decodeBackend, hop]⟩)
  · rcases BitVec.eq_zero_or_eq_one (hdr.extractLsb' 0 1) with hinv | hinv
    · exact .inr (.inr (.inr (.inl ⟨hop ▸ fields hinv, by simp [decodeBackend, hop, hinv]⟩)))
    · exact .inr (.inr (.inl ⟨.inl hop, hinv, by simp [decodeBackend, hop, hinv]⟩))
  · rcases BitVec.eq_zero_or_eq_one (hdr.extractLsb' 0 1) with hinv | hinv
    · exact .inr (.inr (.inr (.inr ⟨hop ▸ fields hinv, by simp [decodeBackend, hop, hinv]⟩)))
    · exact .inr (.inr (.inl ⟨.inr hop, hinv, by simp [decodeBackend, hop, hinv]⟩))

/-! All formats. -/

/-- Settles O1, row by row: a row without operands is one word, the others decode by the rule of their format. -/
theorem decodeOfEncode : Obligations.DecodeOfEncode := by
  unfold Obligations.DecodeOfEncode
  intro i hi
  cases i with
  | wr addr data => exact congrArg Except.ok (decodeHost_hostWord_write hi)
  | rd addr => exact congrArg Except.ok (decodeHost_hostWord_read addr 0#32)
  | sample data => exact congrArg Except.ok (decodeInput_inputWord_sample data)
  | freq data | amp data | rmsv data => simp [encode, decode, decodeOutput]
  | reqInit log2n => exact decodeBackend_backendHdr_init log2n _
  | reqApply log2n ctx => exact decodeBackend_backendHdr_apply log2n ctx
  | reqDestroy ctx => exact decodeBackend_backendHdr_destroy 0#5 ctx
  | _ => rfl

/-- The word of an instruction is written in the format of its row (R104). -/
theorem encode_format (i : Instr) : (encode i).format = i.format := by
  cases i <;> rfl

/-- A pin's word spells its event, at level 1 alone (R110). -/
theorem decode_pin_ok {level : BitVec 1} {event i : Instr}
    (h : (if level = 1#1 then .ok event else .error DecodeError.pinLow) = Except.ok i) : level = 1#1 ∧ event = i := by
  split at h
  · rename_i hlevel
    exact ⟨hlevel, Except.ok.inj h⟩
  · cases h

/-- What a word spells is a row of the word's format. -/
theorem format_of_decode {raw : Raw} {i : Instr} (h : decode raw = .ok i) : i.format = raw.format := by
  cases raw with
  | phase code => exact (decodePhase_ok h).1
  | host w => exact Except.ok.inj h ▸ decodeHost_format w
  | input w => exact Except.ok.inj h ▸ decodeInput_format w
  | output w => exact (decodeOutput_ok h).1
  | backend hdr ctx => exact decodeBackend_format h
  | stopPin level | rstPin level =>
    obtain ⟨-, rfl⟩ := decode_pin_ok h
    rfl

/-- An instruction of format H is what some host word spells. -/
theorem host_of_decode {raw : Raw} {i : Instr} (h : decode raw = .ok i) (hi : i.format = .h) :
    ∃ w, raw = .host w ∧ decodeHost w = i := by
  have hformat := hi.symm.trans (format_of_decode h)
  cases raw with
  | host w => exact ⟨w, rfl, Except.ok.inj h⟩
  | _ => cases hformat

/-- What a word spells is well formed: only WR can be otherwise, and no host word decodes to such a WR (R117). -/
theorem wellFormed_of_decode {raw : Raw} {i : Instr} (h : decode raw = .ok i) : i.wellFormed = true := by
  cases i with
  | wr addr data =>
    obtain ⟨w, -, hw⟩ := host_of_decode h rfl
    exact hw ▸ Machine.decodeHost_wellFormed w
  | _ => rfl

/-- Settles O2, format by format: the cases of its decoder give the bits, and those of the requests and the output beats the
refusals. -/
theorem encodeOfDecode : Obligations.EncodeOfDecode := by
  unfold Obligations.EncodeOfDecode
  refine ⟨fun raw i h => ⟨wellFormed_of_decode h, (encode_format i).trans (format_of_decode h), ?bits⟩,
    fun hdr ctx hop => ?noRequest, fun hdr ctx hop hinv => ?inverse, fun w hkind hdata => ?eol, rfl, rfl⟩
  case bits =>
    cases raw with
    | phase code =>
      obtain ⟨hformat, hword⟩ := decodePhase_ok h
      cases i with
      | start | stop | rd _ | short | reqInit _ | reqDestroy _ => cases hformat
      | _ => exact hword
    | host w =>
      obtain rfl := Except.ok.inj h
      rcases decodeHost_cases w with ⟨read, hi⟩ | ⟨op, code, hi⟩ | ⟨op, code, hi⟩ | ⟨hword, hi⟩ <;> rw [hi]
      · exact ⟨w, rfl, read, rfl⟩
      · exact ⟨w, rfl, op, code⟩
      · exact ⟨w, rfl, op, code⟩
      · exact congrArg Raw.host hword
    | input w =>
      obtain rfl := Except.ok.inj h
      rcases decodeInput_cases w with ⟨hword, hi⟩ | ⟨short, hi⟩ <;> rw [hi]
      · exact congrArg Raw.input hword
      · exact ⟨w, rfl, short⟩
    | output w =>
      obtain ⟨hformat, hword⟩ := decodeOutput_ok h
      cases i with
      | start | stop | rd _ | short | reqInit _ | reqDestroy _ => cases hformat
      | _ => exact hword
    | backend hdr ctx =>
      rcases decodeBackend_cases hdr ctx with ⟨-, hd⟩ | ⟨destroy, hd⟩ | ⟨-, -, hd⟩ | ⟨hhdr, hd⟩ | ⟨hhdr, hd⟩ <;>
        cases hd.symm.trans h
      · exact ⟨hdr, rfl, destroy⟩
      · exact ⟨ctx, congrArg (Raw.backend · ctx) hhdr.symm⟩
      · exact congrArg (Raw.backend · ctx) hhdr
    | stopPin level | rstPin level =>
      obtain ⟨rfl, rfl⟩ := decode_pin_ok h
      rfl
  case noRequest => simp [decode, decodeBackend, hop]
  case inverse => rcases hop with hop | hop <;> simp [decode, decodeBackend, hop, hinv]
  case eol => simp [decode, decodeOutput, hkind, hdata]

/-- Settles O3: nine fixed words, each evaluated. -/
theorem tableWordsDecode : Obligations.TableWordsDecode := by
  unfold Obligations.TableWordsDecode
  exact ⟨rfl, rfl, rfl, rfl, rfl, rfl, rfl, rfl, rfl⟩

end Sys2Proof
end

section
/-! PROOFS of the statements of 30_encoding on the host port: no word of the host stops ASCORE or steers it (O13). -/

namespace Sys2Proof.Machine

/-- A host operation completes in every state (R105). -/
theorem exec_hostOp_completes {i : Instr} (hi : i.format = .h) (s : State) : ∃ t, exec i s = .next t := by
  cases i with
  | start | stop | wr _ _ | rd _ => exact ⟨_, rfl⟩
  | _ => cases hi

/-- Of the host operations only START changes `PHASE`, and only in `IDLE` (R105, R182). -/
theorem exec_hostOp_phase {i : Instr} {s t : State} (hi : i.format = .h) (hw : i.wellFormed = true)
    (he : exec i s = .next t) (hphase : t.phase ≠ s.phase) :
    i = .start ∧ s.phase = Phase.idle ∧ t.phase = Phase.validate := by
  have hp : i.format ≠ .p := by simp [hi]
  have hreset : i ≠ .reset := by
    rintro rfl
    cases hi
  rcases (exec_event_changesOnly hp hw hreset he).phase hphase with ⟨hformat, -⟩ | ⟨hidle, hvalidate, hstart⟩
  · exact absurd hformat hp
  · exact ⟨hstart, hidle, hvalidate⟩

/-- Settles O13: the step runs the operation that the host's word spells, whatever the word is. -/
theorem hostNeverSteers : Obligations.HostNeverSteers := by
  unfold Obligations.HostNeverSteers
  intro s w hturn
  have hfetch : s.fetch = some (.host w) := State.fetch_of_head hturn
  have hstep : step s = exec (decodeHost w) s.nextTurn := step_of_decode hfetch rfl
  obtain ⟨t, ht⟩ := exec_hostOp_completes (decodeHost_format w) s.nextTurn
  exact ⟨t, hstep.trans ht, exec_hostOp_phase (s := s.nextTurn) (decodeHost_format w) (decodeHost_wellFormed w) ht⟩

end Sys2Proof.Machine
end

section
/-! PROOFS of the statements of 40_biquad: the coefficients (O36), the filter step (O41), the two filters over a frame (O42,
O43), the order of the cascade (O44), and the spread of a NaN (O45). -/

namespace Sys2Proof.Machine

/-! The coefficients and the filter step (R130, R131). -/

/-- Settles O36: the words named are those of `coefficients`, the constants those of R19. -/
theorem coefChain : Obligations.CoefChain := by
  unfold Obligations.CoefChain
  intro s
  have hexec : exec .coef s = .next { s with
      coefs := coefficients s, phase := 0x03#5, idx := 0#_, env := { s.env with draws := s.env.draws + 1 } } := rfl
  exact ⟨_, _, _, _, _, _, _, rfl, rfl, rfl, rfl, rfl, rfl, rfl, hexec⟩

/-- Settles O41: `bqOut` and `bqShift` at the cells `(x1, x2, y1, y2)`. -/
theorem filterStep : Obligations.FilterStep := by
  unfold Obligations.FilterStep
  exact fun _ _ _ _ _ _ _ _ _ => ⟨rfl, rfl⟩

/-! One filter over a frame. -/

/-- `y` is what a filter makes of the samples `x` below `n`, where `cells i` are its cells before sample `i` (R131). -/
def Filters (serial : Nat) (c : Coefs) (n : Nat) (cells : Nat → Cells) (x y : Nat → Word) : Prop :=
  ∀ i : Nat, i < n → y i = bqOut serial i c (cells i) (x i) ∧ cells (i + 1) = bqShift (cells i) (x i) (y i)

/-- The outputs and last cells of the filter with cells `first`, run over the words of buffer `k` below `n`. -/
def State.filterRun (s : State) (k : BufId) (first : Cells) (n : Nat) : List Word × Cells :=
  bqFrame s.env.draws s.coefs 0 first (s.frame k n)

theorem State.frame_succ (s : State) (k : BufId) (n : Nat) : s.frame k (n + 1) = s.frame k n ++ [s.word k n] := by
  simp [State.frame, List.range_succ]

/-- Running over one more sample is one more filter step. -/
theorem State.filterRun_succ (s : State) (k : BufId) (first : Cells) (n : Nat) :
    s.filterRun k first (n + 1) =
      let cells := (s.filterRun k first n).2
      let y := bqOut s.env.draws n s.coefs cells (s.word k n)
      ((s.filterRun k first n).1 ++ [y], bqShift cells (s.word k n) y) := by
  simp [State.filterRun, State.frame_succ, bqFrame_append, bqFrame]

@[simp] theorem State.filterRun_length (s : State) (k : BufId) (first : Cells) (n : Nat) :
    (s.filterRun k first n).1.length = n := by
  simp [State.filterRun]

/-- Output `i` of a run is the filter step on the cells of the run over the samples before it. -/
theorem State.filterRun_getElem (s : State) (k : BufId) (first : Cells) {n i : Nat}
    (h : i < (s.filterRun k first n).1.length) :
    (s.filterRun k first n).1[i] = bqOut s.env.draws i s.coefs (s.filterRun k first i).2 (s.word k i) := by
  induction n with
  | zero => simp at h
  | succ n ih =>
    simp only [State.filterRun_succ, List.getElem_append]
    split
    · rename_i hlt
      exact ih hlt
    · rename_i hge
      simp only [State.filterRun_length] at h hge
      obtain rfl : i = n := by omega
      simp

/-- If `t` holds in RE what `s` filters out of buffer `k`, the recurrence of R131 holds between the two, and no other word
differs. -/
theorem State.filterRun_recurrence {s t : State} {k : BufId} {first : Cells}
    (hw : ∀ l j, t.word l j = (s.storeFrame .re (s.filterRun k first s.frameSize).1).word l j) :
    Filters s.env.draws s.coefs s.frameSize (fun i => (s.filterRun k first i).2) (s.word k) (t.word .re) ∧
      s.keepsWords t (fun l i => l = .re ∧ i < s.frameSize) := by
  refine ⟨fun i hi => ?_, fun l i hkept => ?_⟩
  · have hy : t.word .re i = bqOut s.env.draws i s.coefs (s.filterRun k first i).2 (s.word k i) := by
      rw [hw, State.word_storeFrame, dif_pos ⟨rfl, by simpa using hi⟩, State.filterRun_getElem]
    exact ⟨hy, by simp only [hy, State.filterRun_succ]⟩
  · rw [hw, State.word_storeFrame, dif_neg (by simpa using hkept)]

/-! The operations BQ1 and BQ2. -/

/-- The state BQ1 goes to (R132). -/
def State.bq1Next (s : State) : State :=
  let run := s.filterRun .xbuf s.s1 s.frameSize
  ({ s with s1 := run.2 }.storeFrame .re run.1).spend.enter Phase.bq2

/-- The state BQ2 goes to (R133). -/
def State.bq2Next (s : State) : State :=
  let run := s.filterRun .re s.s2 s.frameSize
  ({ s with s2 := run.2 }.storeFrame .re run.1).spend.enter Phase.window

theorem exec_bq1_of_fits {s : State} (h : s.fits = true) : exec .bq1 s = .next s.bq1Next :=
  State.withBuffers_of_fits _ h

theorem exec_bq2_of_fits {s : State} (h : s.fits = true) : exec .bq2 s = .next s.bq2Next :=
  State.withBuffers_of_fits _ h

theorem exec_bq1_next {s t : State} (h : exec .bq1 s = .next t) : s.fits = true ∧ t = s.bq1Next :=
  State.withBuffers_next h

theorem exec_bq2_next {s t : State} (h : exec .bq2 s = .next t) : s.fits = true ∧ t = s.bq2Next :=
  State.withBuffers_next h

/-- Settles O42: the cells before sample `i` are those of the run over the samples before it. -/
theorem bq1Recurrence : Obligations.Bq1Recurrence := by
  unfold Obligations.Bq1Recurrence
  intro s hfits
  obtain ⟨hstep, hkept⟩ := s.filterRun_recurrence (t := s.bq1Next) (k := .xbuf) (first := s.s1) fun _ _ => rfl
  exact ⟨s.bq1Next, _, exec_bq1_of_fits hfits, rfl, rfl, hstep, hkept, rfl⟩

/-- Settles O43: as O42, with the words of RE before BQ2 for samples. -/
theorem bq2Recurrence : Obligations.Bq2Recurrence := by
  unfold Obligations.Bq2Recurrence
  intro s hfits
  obtain ⟨hstep, hkept⟩ := s.filterRun_recurrence (t := s.bq2Next) (k := .re) (first := s.s2) fun _ _ => rfl
  exact ⟨s.bq2Next, _, exec_bq2_of_fits hfits, rfl, rfl, hstep, hkept, rfl⟩

/-! The order of the cascade (R134). -/

/-- Filtering a list by one filter and the result by the other is filtering it sample by sample by both: the second reads
an output of the first only at its own index. -/
theorem interleavedCascade_eq_bqFrame (serial1 serial2 : Nat) (c : Coefs) (elem : Nat) (c1 c2 : Cells) (xs : List Word) :
    interleavedCascade serial1 serial2 c elem c1 c2 xs =
      let first := bqFrame serial1 c elem c1 xs
      let second := bqFrame serial2 c elem c2 first.1
      (second.1, first.2, second.2) := by
  induction xs generalizing elem c1 c2 with
  | nil => rfl
  | cons x xs ih => simp only [interleavedCascade, bqFrame, ih]

/-- The frame read back after it has been written whole. -/
theorem State.frame_storeFrame (s : State) (k : BufId) {ws : List Word} {n : Nat} (h : ws.length = n) :
    (s.storeFrame k ws).frame k n = ws := by
  refine List.ext_getElem (by simp [h]) fun i _ hi => ?_
  rw [State.frame_getElem, State.word_storeFrame, dif_pos ⟨rfl, hi⟩]

theorem State.bq1Next_frame (s : State) : s.bq1Next.frame .re s.frameSize = (s.filterRun .xbuf s.s1 s.frameSize).1 :=
  s.frame_storeFrame .re (by simp)

theorem State.bq2Next_frame (s : State) : s.bq2Next.frame .re s.frameSize = (s.filterRun .re s.s2 s.frameSize).1 :=
  s.frame_storeFrame .re (by simp)

/-- Settles O44: BQ2 runs over the frame that BQ1 left in RE, with the same coefficients and its own cells and draws. -/
theorem cascadeOrderIsUnobservable : Obligations.CascadeOrderIsUnobservable := by
  unfold Obligations.CascadeOrderIsUnobservable
  intro s t u ht hu
  obtain ⟨-, rfl⟩ := exec_bq1_next ht
  obtain ⟨-, rfl⟩ := exec_bq2_next hu
  have hwords : s.bq1Next.bq2Next.frame .re s.frameSize = (s.bq1Next.filterRun .re s.s2 s.frameSize).1 :=
    s.bq1Next.bq2Next_frame
  have hrun : s.bq1Next.filterRun .re s.s2 s.frameSize =
      bqFrame s.bq1Next.env.draws s.coefs 0 s.s2 (s.filterRun .xbuf s.s1 s.frameSize).1 :=
    congrArg (bqFrame _ _ 0 _) s.bq1Next_frame
  have hs1 : s.bq1Next.bq2Next.s1 = (s.filterRun .xbuf s.s1 s.frameSize).2 := rfl
  have hs2 : s.bq1Next.bq2Next.s2 = (s.bq1Next.filterRun .re s.s2 s.frameSize).2 := rfl
  rw [hwords, hs1, hs2, hrun, interleavedCascade_eq_bqFrame]
  rfl

/-! The spread of a NaN (R243). -/

theorem isNaN_fadd (d : Draw) {a b : Word} (h : isNaN a = true ∨ isNaN b = true) : isNaN (fadd d a b) = true := by
  rw [fadd_of_isNaN d h, isNaN_nanWord]

theorem isNaN_fsub (d : Draw) {a b : Word} (h : isNaN a = true ∨ isNaN b = true) : isNaN (fsub d a b) = true :=
  isNaN_fadd d (by simpa using h)

theorem isNaN_fmul (d : Draw) {a b : Word} (h : isNaN a = true ∨ isNaN b = true) : isNaN (fmul d a b) = true := by
  rw [fmul_of_isNaN d h, isNaN_nanWord]

/-- A NaN factor of any of the five products passes through the sums to their right. -/
theorem isNaN_bqOut (serial elem : Nat) {c : Coefs} {cells : Cells} {x : Word}
    (h : (isNaN c.b0 = true ∨ isNaN x = true) ∨ (isNaN c.b1 = true ∨ isNaN cells.x1 = true) ∨
      (isNaN c.b2 = true ∨ isNaN cells.x2 = true) ∨ (isNaN c.a0 = true ∨ isNaN cells.y1 = true) ∨
      (isNaN c.a1 = true ∨ isNaN cells.y2 = true)) :
    isNaN (bqOut serial elem c cells x) = true := by
  rcases h with h | h | h | h | h
  · exact isNaN_fsub _ (.inl (isNaN_fsub _ (.inl (isNaN_fadd _ (.inl (isNaN_fadd _ (.inl (isNaN_fmul _ h))))))))
  · exact isNaN_fsub _ (.inl (isNaN_fsub _ (.inl (isNaN_fadd _ (.inl (isNaN_fadd _ (.inr (isNaN_fmul _ h))))))))
  · exact isNaN_fsub _ (.inl (isNaN_fsub _ (.inl (isNaN_fadd _ (.inr (isNaN_fmul _ h))))))
  · exact isNaN_fsub _ (.inl (isNaN_fsub _ (.inr (isNaN_fmul _ h))))
  · exact isNaN_fsub _ (.inr (isNaN_fmul _ h))

/-- A NaN in the last-output cell makes the next output a NaN, which is the last-output cell of the next sample. -/
theorem Filters.isNaN_y1 {serial n : Nat} {c : Coefs} {cells : Nat → Cells} {x y : Nat → Word}
    (h : Filters serial c n cells x y) (h0 : isNaN (cells 0).y1 = true) {i : Nat} (hi : i ≤ n) :
    isNaN (cells i).y1 = true := by
  induction i with
  | zero => exact h0
  | succ i ih =>
    obtain ⟨hy, hcells⟩ := h i hi
    have hout : isNaN (y i) = true := by
      rw [hy]
      exact isNaN_bqOut serial i (.inr (.inr (.inr (.inl (.inr (ih (Nat.le_of_succ_le hi)))))))
    rw [hcells]
    exact hout

/-- The cell holds a NaN after the last sample, and every output is one. -/
theorem Filters.keepsNaN {serial n : Nat} {c : Coefs} {cells : Nat → Cells} {x y : Nat → Word}
    (h : Filters serial c n cells x y) (h0 : isNaN (cells 0).y1 = true) :
    isNaN (cells n).y1 = true ∧ ∀ i : Nat, i < n → isNaN (y i) = true := by
  refine ⟨h.isNaN_y1 h0 le_rfl, fun i hi => ?_⟩
  have hnext := h.isNaN_y1 h0 (Nat.succ_le_of_lt hi)
  rwa [(h i hi).2] at hnext

/-- Settles O45: a NaN reaches the output by one of the five products, and then stays by the recurrences of O42 and O43. -/
theorem filterKeepsNaN : Obligations.FilterKeepsNaN := by
  unfold Obligations.FilterKeepsNaN
  refine ⟨fun serial elem c cells x h => isNaN_bqOut serial elem (by tauto), fun s t he hnan => ?_, fun s t he hnan => ?_⟩
  · obtain ⟨t', cells, he', hfirst, hlast, hstep, -⟩ := bq1Recurrence s (exec_bq1_next he).1
    obtain rfl := Host.Outcome.next.inj (he.symm.trans he')
    rw [← hfirst] at hnan
    rw [← hlast]
    exact Filters.keepsNaN hstep hnan
  · obtain ⟨t', cells, he', hfirst, hlast, hstep, -⟩ := bq2Recurrence s (exec_bq2_next he).1
    obtain rfl := Host.Outcome.next.inj (he.symm.trans he')
    rw [← hfirst] at hnan
    rw [← hlast]
    exact Filters.keepsNaN hstep hnan

end Sys2Proof.Machine
end

section
/-! PROOFS of the statements of 41_window: the two operations over a frame (O37, O46), the arguments of the cosine at the ends
of the window (O38), and that nothing writes WIN after WINGEN (O16). -/

namespace Sys2Proof.Machine

/-! A frame written by a formula. -/

/-- If `t` holds in buffer `k` the words `f i` that `s` writes below `N`, a read below `N` gives `f i`, and no other word
differs (R87). -/
theorem State.words_of_storeFrame {s t : State} {k : BufId} {f : Nat → Word}
    (hw : ∀ l j, t.word l j = (s.storeFrame k ((List.range s.frameSize).map f)).word l j) :
    (∀ i, i < s.frameSize → t.word k i = f i) ∧ s.keepsWords t (fun l i => l = k ∧ i < s.frameSize) := by
  refine ⟨fun i hi => ?_, fun l i hkept => ?_⟩
  · rw [hw, State.word_storeFrame, dif_pos ⟨rfl, by simpa using hi⟩, List.getElem_map, List.getElem_range]
  · rw [hw, State.word_storeFrame, dif_neg (by simpa using hkept)]

/-! The operations WINGEN and WINDOW. -/

/-- The state WINGEN goes to (R140). -/
def State.wingenNext (s : State) : State :=
  (s.storeFrame .win ((List.range s.frameSize).map (windowWord s.env.draws s.frameSize))).spend.enter Phase.ftgen

/-- The state WINDOW goes to (R141). -/
def State.windowNext (s : State) : State :=
  (s.storeFrame .re ((List.range s.frameSize).map
    (fun i => fmul (s.draw i 0) (s.word .re i) (s.word .win i)))).spend.enter Phase.fft

theorem exec_wingen_of_fits {s : State} (h : s.fits = true) : exec .wingen s = .next s.wingenNext :=
  State.withBuffers_of_fits _ h

theorem exec_window_of_fits {s : State} (h : s.fits = true) : exec .window s = .next s.windowNext :=
  State.withBuffers_of_fits _ h

/-- Settles O37: word `i` is `windowWord` at `i`, which is the rule's formula around the cosine's argument. -/
theorem wingenBuildsWindow : Obligations.WingenBuildsWindow := by
  unfold Obligations.WingenBuildsWindow
  intro s hfits
  obtain ⟨hwords, hkept⟩ := s.words_of_storeFrame (t := s.wingenNext) fun _ _ => rfl
  exact ⟨s.wingenNext, exec_wingen_of_fits hfits, fun i hi => ⟨_, rfl, hwords i hi⟩, hkept, rfl⟩

/-- Settles O46: the operands of every product are the words before WINDOW, since word `i` is read before it is written. -/
theorem windowMultiplies : Obligations.WindowMultiplies := by
  unfold Obligations.WindowMultiplies
  intro s hfits
  obtain ⟨hwords, hkept⟩ := s.words_of_storeFrame (t := s.windowNext) fun _ _ => rfl
  exact ⟨s.windowNext, exec_window_of_fits hfits, hwords, hkept, rfl⟩

/-! The arguments of the cosine at the ends of the window (R140). -/

/-- The divisor `den` for `N = 2^k`. -/
def windowDen (k : Nat) : Word := i2f ((2 ^ k - 1 : Nat) : Int)

/-- The rounded product of `TWO_PI` and `den`, computed from their magnitudes. -/
def windowEndProduct (k : Nat) : Word :=
  packWord false (roundUnits (magUnits fTwoPi * magUnits (windowDen k)) (2 ^ 149))

/-- `den >= 1.0`: `N = 1` is shut out. -/
theorem windowDen_positive :
    ∀ k < 25, 1 ≤ k → isFinite (windowDen k) = true ∧ isZero (windowDen k) = false ∧ signBit (windowDen k) = false := by
  decide

/-- The rule's "all 24 cases computed": the product is rounded, but its quotient by `den` rounds back to `TWO_PI`. -/
theorem windowEndProduct_div :
    ∀ k < 25, 1 ≤ k → isFinite (windowEndProduct k) = true ∧ signBit (windowEndProduct k) = false ∧
      packWord false (roundUnits (magUnits (windowEndProduct k) * 2 ^ 149) (magUnits (windowDen k))) = fTwoPi := by
  decide

theorem roundUnits_zero (den : Nat) : roundUnits 0 den = 0 := by
  simp [roundUnits, step23, roundHalfEven]

/-- `+0` divided by a positive value is `+0`. -/
theorem fdiv_fZero (d : Draw) {b : Word} (hf : isFinite b = true) (hz : isZero b = false) (hs : signBit b = false) :
    fdiv d fZero b = fZero := by
  have hsign : signBit fZero = false := by decide
  have hmag : magUnits fZero = 0 := by decide
  rw [fdiv_of_isFinite d (by decide) hf hz, hsign, hs, hmag, Nat.zero_mul, roundUnits_zero]
  decide

/-- The argument at `i = 0` is `+0`. -/
theorem windowArg_first (d d' : Draw) {k : Nat} (h1 : 1 ≤ k) (h24 : k < 25) :
    fdiv d (fmul d' fTwoPi (i2f 0)) (windowDen k) = fZero := by
  obtain ⟨hf, hz, hs⟩ := windowDen_positive k h24 h1
  have hprod : fmul d' fTwoPi (i2f 0) = fZero := by
    rw [fmul_of_isFinite d' (by decide) (by decide)]
    decide
  rw [hprod, fdiv_fZero d hf hz hs]

/-- The argument at `i = N - 1` is `TWO_PI`. -/
theorem windowArg_last (d d' : Draw) {k : Nat} (h1 : 1 ≤ k) (h24 : k < 25) :
    fdiv d (fmul d' fTwoPi (windowDen k)) (windowDen k) = fTwoPi := by
  obtain ⟨hf, hz, hs⟩ := windowDen_positive k h24 h1
  obtain ⟨hpf, hps, hquot⟩ := windowEndProduct_div k h24 h1
  have hsign : signBit fTwoPi = false := by decide
  have hprod : fmul d' fTwoPi (windowDen k) = windowEndProduct k := by
    rw [fmul_of_isFinite d' (by decide) hf, hsign, hs]
    rfl
  rw [hprod, fdiv_of_isFinite d hpf hf hz, hps, hs]
  exact hquot

/-- Settles O38: a valid configuration has `1 <= LOG2N <= MAXLOG2 <= 24`, and the draws are never used. -/
theorem windowEndArguments : Obligations.WindowEndArguments := by
  unfold Obligations.WindowEndArguments
  intro s d d' hvalid
  obtain ⟨-, h1, hmax⟩ := hvalid
  have h24 : s.log2n.toNat < 25 := Nat.lt_succ_of_le (hmax.trans Config.maxLog2_le)
  exact ⟨windowArg_first d d' h1 h24, windowArg_last d d' h1 h24⟩

/-! After WINGEN (R143). -/

/-- The phases after WINGEN: the codes above its own, up to the last of R102. -/
def AfterWingen (p : BitVec 5) : Prop := 0x03 < p.toNat ∧ p.toNat ≤ 0x11

theorem AfterWingen.ne_idle {p : BitVec 5} (h : AfterWingen p) : p ≠ Phase.idle := by
  rintro rfl
  simp [AfterWingen] at h

theorem AfterWingen.ne_wingen {p : BitVec 5} (h : AfterWingen p) : p ≠ Phase.wingen := by
  rintro rfl
  simp [AfterWingen] at h

/-- The table of R170 leads from these phases to none but these. -/
theorem AfterWingen.of_successors : ∀ e ∈ successors, AfterWingen e.1 → AfterWingen e.2 := by
  simp [successors, AfterWingen]

section

variable {s t : State}

/-- By O14 the phase moves along the table of R170 only, `IDLE` aside. -/
theorem AfterWingen.of_step (h : AfterWingen s.phase) (hstep : step s = .next t) (hreset : ¬ s.resetNext) :
    AfterWingen t.phase := by
  obtain ⟨-, -, -, -, -, -, -, -, -, -, hphase, -⟩ := registerWriters s t hstep hreset
  by_cases hp : t.phase = s.phase
  · rwa [hp]
  · rcases hphase hp with ⟨-, hsucc⟩ | ⟨hidle, -⟩
    · exact AfterWingen.of_successors _ hsucc h
    · exact absurd hidle h.ne_idle

/-- By O14 the configuration is written in `IDLE` only (R75). -/
theorem step_sameConfig (hidle : s.phase ≠ Phase.idle) (hstep : step s = .next t) (hreset : ¬ s.resetNext) :
    s.sameConfig t := by
  obtain ⟨-, -, -, -, -, -, -, -, -, -, -, -, hconfig⟩ := registerWriters s t hstep hreset
  by_contra hc
  exact hidle (hconfig hc).1

/-- WINGEN alone writes WIN (R70). Unlike O15 this needs no invariant: the backend writes RE and IM only. -/
theorem step_word_win (hwingen : s.phase ≠ Phase.wingen) (hstep : step s = .next t) (hreset : ¬ s.resetNext) (j : Nat) :
    t.word .win j = s.word .win j := by
  rcases step_next_cases hstep with rfl | ⟨i, hruns, he⟩
  · rfl
  · have hne : i ≠ .reset := by
      rintro rfl
      exact hreset hruns.resetNext
    by_contra hword
    cases (exec_accesses hruns.wellFormed hne he).words _ _ hword with
    | wingen _ => exact hwingen (hruns.phase_eq rfl rfl)

end

/-- Settles O16: a phase after WINGEN is neither `IDLE` nor WINGEN, where the configuration and WIN are written. -/
theorem windowIsImmutable : Obligations.WindowIsImmutable := by
  unfold Obligations.WindowIsImmutable
  intro s t hstep hreset hlow hhigh
  have hafter : AfterWingen s.phase := ⟨hlow, hhigh⟩
  obtain ⟨hlow', hhigh'⟩ := hafter.of_step hstep hreset
  obtain ⟨-, hlog2n, -⟩ := step_sameConfig hafter.ne_idle hstep hreset
  exact ⟨hlow', hhigh', hlog2n, step_word_win hafter.ne_wingen hstep hreset⟩

end Sys2Proof.Machine
end

section
/-! PROOFS of the statements of 42_fft_peak on the frequency table: what FTGEN writes (O39), and that its words are exact where
24 bits hold the product (O40). -/

namespace Sys2Proof.Machine

/-! The value zero (R13). -/

theorem valUnits_eq_zero_iff (w : Word) : valUnits w = 0 ↔ isZero w = true := by
  rw [← magUnits_eq_zero_iff, valUnits]
  split <;> omega

/-! Rounding a representable value changes nothing (R14). -/

/-- A 24-bit multiple of a power of two is in the form of R13: its top bit set, or the least exponent. -/
theorem exists_normal_form {k c : Nat} (hk : k < 2 ^ 24) :
    ∃ m b, m * 2 ^ b = k * 2 ^ c ∧ m < 2 ^ 24 ∧ (b = 0 ∨ 2 ^ 23 ≤ m) ∧ b ≤ c := by
  induction c generalizing k with
  | zero => exact ⟨k, 0, rfl, hk, .inl rfl, le_rfl⟩
  | succ c ih =>
    rcases Nat.lt_or_ge k (2 ^ 23) with hlow | hhigh
    · obtain ⟨m, b, heq, hm, hnormal, hb⟩ := ih (k := 2 * k) (by omega)
      exact ⟨m, b, by rw [heq]; ring, hm, hnormal, by omega⟩
    · exact ⟨k, c + 1, rfl, hk, .inr hhigh, le_rfl⟩

/-- An integer number of units with a significand of 24 bits and no exponent out of range is the value of some word. -/
theorem exists_word_of_significand {z : Int} {k c : Nat} (hz : z.natAbs = k * 2 ^ c) (hk : k < 2 ^ 24) (hc : c ≤ 253) :
    ∃ v : Word, isFinite v = true ∧ valUnits v = z := by
  obtain ⟨m, b, heq, hm, hnormal, hb⟩ := exists_normal_form (c := c) hk
  have hinf : b * 2 ^ 23 + m < infBits := by unfold infBits; omega
  obtain ⟨hsign, hexp, -⟩ := packWord_fields (decide (z < 0)) (b * 2 ^ 23 + m) (by unfold infBits at hinf; omega)
  refine ⟨packWord (decide (z < 0)) (b * 2 ^ 23 + m), ?_, ?_⟩
  · have hne : (b * 2 ^ 23 + m) / 2 ^ 23 ≠ 255 := by unfold infBits at hinf; omega
    simpa only [isFinite, hexp, bne_iff_ne] using hne
  · simp only [valUnits, hsign, magUnits_packWord _ b m hm.le hnormal hinf, heq, ← hz, decide_eq_true_eq]
    split <;> omega

/-- Rounding a representable value gives it back. -/
theorem RoundsTo.exact {x : ℝ} {z : Int} {w : Word} {k c : Nat} (h : RoundsTo x w) (hx : x = z)
    (hz : z.natAbs = k * 2 ^ c) (hk : k < 2 ^ 24) (hc : c ≤ 253) : isFinite w = true ∧ valUnits w = z := by
  subst hx
  obtain ⟨v, hv, hval⟩ := exists_word_of_significand hz hk hc
  have hsmall : k * 2 ^ c < overflowUnits :=
    calc k * 2 ^ c ≤ (2 ^ 24 - 1) * 2 ^ 253 := Nat.mul_le_mul (by omega) (Nat.pow_le_pow_right (by decide) hc)
      _ < overflowUnits := by unfold overflowUnits; norm_num
  obtain ⟨hfin, hnearest⟩ := h.2.2 (by
    rw [← Int.cast_abs, ← Nat.cast_natAbs, hz]
    exact_mod_cast hsmall)
  refine ⟨hfin, ?_⟩
  have hzero : |(z : ℝ) - valUnits w| = 0 := by
    rcases hnearest v hv with hlt | ⟨heq, -⟩
    · rw [hval, sub_self, abs_zero] at hlt
      exact absurd hlt (abs_nonneg _).not_gt
    · rw [heq, hval, sub_self, abs_zero]
  exact_mod_cast (sub_eq_zero.mp (abs_eq_zero.mp hzero)).symm

/-- Rounding no more than doubles a magnitude: zero is no nearer than the rounded value. -/
theorem RoundsTo.abs_le_two_mul {x : ℝ} {w : Word} (h : RoundsTo x w) (hx : |x| < (overflowUnits : ℝ)) :
    isFinite w = true ∧ |(valUnits w : ℝ)| ≤ 2 * |x| := by
  obtain ⟨hfin, hnearest⟩ := h.2.2 hx
  have hzero : valUnits fZero = 0 := by decide
  have hle : |x - valUnits w| ≤ |x| := by
    have := hnearest fZero (by decide)
    rw [hzero, Int.cast_zero, sub_zero] at this
    exact this.elim le_of_lt fun h => h.1.le
  have htri := abs_sub_abs_le_abs_sub (valUnits w : ℝ) x
  rw [abs_sub_comm] at htri
  exact ⟨hfin, by linarith⟩

/-! Converting an integer (R16). -/

/-- An integer with a 24-bit significand is converted exactly. -/
theorem i2f_exact {n : Int} {k c : Nat} (hn : n.natAbs = k * 2 ^ c) (hk : k < 2 ^ 24) (hc : c ≤ 104) :
    isFinite (i2f n) = true ∧ valUnits (i2f n) = n * 2 ^ 149 :=
  (roundsTo_i2f n).exact (z := n * 2 ^ 149) (c := c + 149) (by norm_num)
    (by rw [Int.natAbs_mul, hn, pow_add, mul_assoc]; rfl) hk (by omega)

theorem i2f_exact_of_lt {n : Int} (hn : |n| < 2 ^ 24) : isFinite (i2f n) = true ∧ valUnits (i2f n) = n * 2 ^ 149 :=
  i2f_exact (k := n.natAbs) (c := 0) (by simp) (by zify; exact hn) (by omega)

/-- An index of a frame is converted exactly. -/
theorem i2f_index {i : Nat} (hi : i < 2 ^ 24) : isFinite (i2f i) = true ∧ valUnits (i2f i) = i * 2 ^ 149 :=
  i2f_exact_of_lt (by rw [Nat.abs_cast]; exact_mod_cast hi)

/-- So is the size of a frame, and it is no zero. -/
theorem i2f_two_pow {l : Nat} (hl : l ≤ 24) :
    isFinite (i2f (2 ^ l : Nat)) = true ∧ valUnits (i2f (2 ^ l : Nat)) = 2 ^ l * 2 ^ 149 ∧
      isZero (i2f (2 ^ l : Nat)) = false := by
  obtain ⟨hfin, hval⟩ := i2f_exact (n := (2 ^ l : Nat)) (k := 1) (c := l) (by simp) (by decide) (by omega)
  refine ⟨hfin, hval.trans (by rw [Nat.cast_pow, Nat.cast_ofNat]), Bool.eq_false_iff.mpr fun hz => ?_⟩
  rw [(valUnits_eq_zero_iff _).mpr hz] at hval
  exact absurd hval.symm (by positivity)

/-- Any 32-bit integer is converted to a finite word, of at most twice its magnitude. -/
theorem i2f_bounds {n : Int} (hn : |n| ≤ 2 ^ 31) :
    isFinite (i2f n) = true ∧ |(valUnits (i2f n) : ℝ)| ≤ 2 ^ 32 * 2 ^ 149 := by
  have habs : |(n : ℝ) * 2 ^ 149| ≤ 2 ^ 31 * 2 ^ 149 := by
    rw [abs_mul, abs_of_pos (a := (2 : ℝ) ^ 149) (by positivity)]
    exact mul_le_mul_of_nonneg_right (by exact_mod_cast hn) (by positivity)
  obtain ⟨hfin, hle⟩ := (roundsTo_i2f n).abs_le_two_mul (habs.trans_lt (by unfold overflowUnits; norm_num))
  exact ⟨hfin, by linarith⟩

/-! One word of the table (R150, R156). -/

section

variable {rate : Int} {i l : Nat}

/-- The exact product of the converted rate and the converted index, before it is rounded. -/
theorem roundsTo_tableProduct (d : Draw) (hrate : |rate| ≤ 2 ^ 31) (hi : i < 2 ^ 24) :
    RoundsTo ((valUnits (i2f rate) : ℝ) * i) (fmul d (i2f rate) (i2f i)) := by
  obtain ⟨hfin, hval⟩ := i2f_index hi
  have hround := productsAreRounded d _ _ (i2f_bounds hrate).1 hfin
  simp only [hval, Int.cast_mul, Int.cast_pow, Int.cast_ofNat, Int.cast_natCast] at hround
  rwa [← mul_assoc, mul_div_cancel_right₀ _ (by positivity)] at hround

theorem tableProduct_bounds (d : Draw) (hrate : |rate| ≤ 2 ^ 31) (hi : i < 2 ^ 24) :
    isFinite (fmul d (i2f rate) (i2f i)) = true ∧
      |(valUnits (fmul d (i2f rate) (i2f i)) : ℝ)| ≤ 2 ^ 57 * 2 ^ 149 := by
  have hsize : |(valUnits (i2f rate) : ℝ) * i| ≤ 2 ^ 32 * 2 ^ 149 * 2 ^ 24 := by
    rw [abs_mul, Nat.abs_cast]
    exact mul_le_mul (i2f_bounds hrate).2 (by exact_mod_cast hi.le) i.cast_nonneg (by positivity)
  obtain ⟨hfin, hle⟩ :=
    (roundsTo_tableProduct d hrate hi).abs_le_two_mul (hsize.trans_lt (by unfold overflowUnits; norm_num))
  exact ⟨hfin, by linarith⟩

/-- The product is exact where 24 bits hold it: then the rate is exact, or the index is 0. -/
theorem tableProduct_exact (d : Draw) (hrate : |rate| ≤ 2 ^ 31) (hi : i < 2 ^ 24) (hprod : |rate * i| < 2 ^ 24) :
    valUnits (fmul d (i2f rate) (i2f i)) = rate * i * 2 ^ 149 := by
  have hfactors : valUnits (i2f rate) * i = rate * i * 2 ^ 149 := by
    rcases Nat.eq_zero_or_pos i with rfl | hpos
    · simp
    · have hle : |rate| ≤ |rate * i| := by
        rw [abs_mul, Nat.abs_cast]
        exact le_mul_of_one_le_right (abs_nonneg _) (by exact_mod_cast hpos)
      rw [(i2f_exact_of_lt (hle.trans_lt hprod)).2, mul_right_comm]
  exact ((roundsTo_tableProduct d hrate hi).exact (k := (rate * i).natAbs) (c := 149)
    (by rw [← hfactors]; push_cast; rfl) (by rw [Int.natAbs_mul]; rfl) (by zify; exact hprod) (by omega)).2

/-- The quotient by `N`, before it is rounded. -/
theorem roundsTo_tableWord (serial : Nat) (hrate : |rate| ≤ 2 ^ 31) (hi : i < 2 ^ 24) (hl : l ≤ 24) :
    RoundsTo ((valUnits (fmul ⟨serial, i, 0⟩ (i2f rate) (i2f i)) : ℝ) / 2 ^ l) (tableWord serial rate (2 ^ l) i) := by
  obtain ⟨hfin, hval, hz⟩ := i2f_two_pow hl
  have hround := roundsTo_fdiv ⟨serial, i, 1⟩ (tableProduct_bounds ⟨serial, i, 0⟩ hrate hi).1 hfin hz
  simp only [hval, Int.cast_mul, Int.cast_pow, Int.cast_ofNat] at hround
  rwa [← div_div, div_mul_cancel₀ _ (by positivity)] at hround

theorem isFinite_tableWord (serial : Nat) (hrate : |rate| ≤ 2 ^ 31) (hi : i < 2 ^ 24) (hl : l ≤ 24) :
    isFinite (tableWord serial rate (2 ^ l) i) = true := by
  have hsize : |(valUnits (fmul ⟨serial, i, 0⟩ (i2f rate) (i2f i)) : ℝ) / 2 ^ l| ≤ 2 ^ 57 * 2 ^ 149 := by
    rw [abs_div, abs_of_pos (a := (2 : ℝ) ^ l) (by positivity)]
    exact (div_le_self (abs_nonneg _) (one_le_pow₀ (by norm_num))).trans (tableProduct_bounds _ hrate hi).2
  exact ((roundsTo_tableWord serial hrate hi hl).abs_le_two_mul (hsize.trans_lt (by unfold overflowUnits; norm_num))).1

/-- The word is `rate * i / N` where 24 bits hold the product: dividing by `N` lowers its exponent only. -/
theorem tableWord_exact (serial : Nat) (hrate : |rate| ≤ 2 ^ 31) (hi : i < 2 ^ 24) (hl : l ≤ 24)
    (hprod : |rate * i| < 2 ^ 24) :
    valUnits (tableWord serial rate (2 ^ l) i) * 2 ^ l = rate * i * 2 ^ 149 := by
  have hpow : (2 : Int) ^ 149 = 2 ^ (149 - l) * 2 ^ l := by rw [← pow_add, Nat.sub_add_cancel (by omega)]
  have hquot : (valUnits (fmul ⟨serial, i, 0⟩ (i2f rate) (i2f i)) : ℝ) / 2 ^ l =
      ((rate * i * 2 ^ (149 - l) : Int) : ℝ) := by
    rw [tableProduct_exact _ hrate hi hprod, hpow, div_eq_iff (by positivity)]
    push_cast
    ring
  obtain ⟨-, hval⟩ := (roundsTo_tableWord serial hrate hi hl).exact hquot (k := (rate * i).natAbs) (c := 149 - l)
    (by rw [Int.natAbs_mul, Int.natAbs_pow]; rfl) (by zify; exact hprod) (by omega)
  rw [hval, hpow, mul_assoc]

end

/-! The operation FTGEN. -/

/-- The state FTGEN goes to (R150). -/
def State.ftgenNext (s : State) : State :=
  (s.storeFrame .ftab ((List.range s.frameSize).map
    (tableWord s.env.draws s.sampleRate.toInt s.frameSize))).spend.enter Phase.fftinit

theorem exec_ftgen_of_fits {s : State} (h : s.fits = true) : exec .ftgen s = .next s.ftgenNext :=
  State.withBuffers_of_fits _ h

theorem exec_ftgen_next {s t : State} (h : exec .ftgen s = .next t) : s.fits = true ∧ t = s.ftgenNext :=
  State.withBuffers_next h

theorem State.ftgenNext_words (s : State) :
    (∀ i, i < s.frameSize → s.ftgenNext.word .ftab i = tableWord s.env.draws s.sampleRate.toInt s.frameSize i) ∧
      s.keepsWords s.ftgenNext (fun k i => k = .ftab ∧ i < s.frameSize) :=
  s.words_of_storeFrame fun _ _ => rfl

/-- Settles O39: word `i` is `tableWord` at `i`, which is the rule's formula. -/
theorem ftgenBuildsTable : Obligations.FtgenBuildsTable := by
  unfold Obligations.FtgenBuildsTable
  intro s hfits
  obtain ⟨hwords, hkept⟩ := s.ftgenNext_words
  exact ⟨s.ftgenNext, exec_ftgen_of_fits hfits, hwords, hkept, rfl⟩

/-! The table after FTGEN (R156). -/

section

variable {s : State}

theorem State.log2n_le (hfits : s.fits = true) : s.log2n.toNat ≤ 24 :=
  ((State.fits_iff s).mp hfits).trans Config.maxLog2_le

/-- An index of a frame fits 24 bits. -/
theorem State.index_lt (hfits : s.fits = true) {i : Nat} (hi : i < s.frameSize) : i < 2 ^ 24 :=
  hi.trans_le (Nat.pow_le_pow_right (by decide) (State.log2n_le hfits))

theorem State.abs_sampleRate_le (s : State) : |s.sampleRate.toInt| ≤ 2 ^ 31 :=
  abs_le.mpr ⟨s.sampleRate.le_toInt, s.sampleRate.toInt_lt.le⟩

theorem State.isFinite_ftgenNext (hfits : s.fits = true) {i : Nat} (hi : i < s.frameSize) :
    isFinite (s.ftgenNext.word .ftab i) = true := by
  rw [s.ftgenNext_words.1 i hi]
  exact isFinite_tableWord _ s.abs_sampleRate_le (State.index_lt hfits hi) (State.log2n_le hfits)

theorem State.ftgenNext_exact (hfits : s.fits = true) {i : Nat} (hi : i < s.frameSize)
    (hprod : |s.sampleRate.toInt * i| < 2 ^ 24) :
    valUnits (s.ftgenNext.word .ftab i) * s.frameSize = s.sampleRate.toInt * i * 2 ^ 149 := by
  rw [s.ftgenNext_words.1 i hi, State.frameSize, Nat.cast_pow]
  exact tableWord_exact _ s.abs_sampleRate_le (State.index_lt hfits hi) (State.log2n_le hfits) hprod

/-- `SAMPLE_RATE * 0` fits 24 bits whatever the rate. -/
theorem State.ftgenNext_first (hfits : s.fits = true) : isZero (s.ftgenNext.word .ftab 0) = true := by
  have hzero := State.ftgenNext_exact hfits s.frameSize_pos (by simp)
  rw [Nat.cast_zero, mul_zero, zero_mul] at hzero
  have hN : (s.frameSize : Int) ≠ 0 := by exact_mod_cast s.frameSize_pos.ne'
  exact (valUnits_eq_zero_iff _).mp ((mul_eq_zero.mp hzero).resolve_right hN)

/-- Exact words rise as the products `SAMPLE_RATE * i` do. -/
theorem State.ftgenNext_increasing (hfits : s.fits = true) (hpos : 0 < s.sampleRate.toInt)
    (hsmall : s.sampleRate.toInt * (s.frameSize - 1) < 2 ^ 24) {i j : Nat} (hij : i < j) (hj : j < s.frameSize) :
    fgt (s.ftgenNext.word .ftab j) (s.ftgenNext.word .ftab i) = true := by
  have hi := hij.trans hj
  have hexact : ∀ k : Nat, k < s.frameSize →
      valUnits (s.ftgenNext.word .ftab k) * s.frameSize = s.sampleRate.toInt * k * 2 ^ 149 := fun k hk => by
    refine State.ftgenNext_exact hfits hk ?_
    rw [abs_of_nonneg (by positivity)]
    exact (mul_le_mul_of_nonneg_left (by omega) hpos.le).trans_lt hsmall
  refine (fgt_iff _ _).mpr ⟨isNaN_of_isFinite (State.isFinite_ftgenNext hfits hj),
    isNaN_of_isFinite (State.isFinite_ftgenNext hfits hi), ?_⟩
  refine lt_of_mul_lt_mul_right (a := (s.frameSize : Int)) ?_ (Int.natCast_nonneg _)
  rw [hexact i hi, hexact j hj]
  have hij' : (i : Int) < j := by exact_mod_cast hij
  exact mul_lt_mul_of_pos_right (mul_lt_mul_of_pos_left hij' hpos) (by positivity)

end

/-- Settles O40: a finite word is no NaN; the exact words give the rest. -/
theorem frequencyTableIsExact : Obligations.FrequencyTableIsExact := by
  unfold Obligations.FrequencyTableIsExact
  intro s t he
  obtain ⟨hfits, rfl⟩ := exec_ftgen_next he
  exact ⟨fun i hi => isNaN_of_isFinite (State.isFinite_ftgenNext hfits hi), State.ftgenNext_first hfits,
    fun i hi hprod => ⟨State.isFinite_ftgenNext hfits hi, State.ftgenNext_exact hfits hi hprod⟩,
    fun hpos hsmall i j => State.ftgenNext_increasing hfits hpos hsmall⟩

end Sys2Proof.Machine
end

section
/-! PROOFS of the statements of 42_fft_peak on the backend's requests (O27, O47) and on the search for the strongest bin (O50
to O52). -/

namespace Sys2Proof.Machine

/-! FFTINIT, FFT and STOPPING, by the state of the backend port (R151, R152, R177). -/

section

variable {s : State}

theorem execFftinit_of_idle (h : s.fftPort = .idle) : execFftinit s = .next (s.request 0b01#2) := by
  simp [execFftinit, h]

theorem execFftinit_of_requested {w : BitVec 8} {c : Ctx} (h : s.fftPort = .requested w c) : execFftinit s = .next s := by
  simp [execFftinit, h]

theorem execFftinit_of_done {c : Ctx} (h : s.fftPort = .done c) :
    execFftinit s = .next (({ s with ctx := c, ctxv := true }.release).enter Phase.check) := by
  simp [execFftinit, h]

theorem execStopping_of_idle (h : s.fftPort = .idle) : execStopping s = .next (s.request 0b11#2) := by
  simp [execStopping, h]

theorem execStopping_of_requested {w : BitVec 8} {c : Ctx} (h : s.fftPort = .requested w c) : execStopping s = .next s := by
  simp [execStopping, h]

theorem execStopping_of_done {c : Ctx} (h : s.fftPort = .done c) :
    execStopping s = .next (({ s with ctxv := false }.release).enter Phase.stopped) := by
  simp [execStopping, h]

/-- The state FFT goes to when it sends its request. -/
def State.fftSent (s : State) : State := (s.storeFrame .im (List.replicate s.frameSize fZero)).request 0b10#2

theorem execFft_of_idle (h : s.fftPort = .idle) (hfits : s.fits = true) : execFft s = .next s.fftSent := by
  simp [execFft, h, State.withBuffers_of_fits _ hfits, State.fftSent]

theorem execFft_of_requested {w : BitVec 8} {c : Ctx} (h : s.fftPort = .requested w c) : execFft s = .next s := by
  simp [execFft, h]

theorem execFft_of_done {c : Ctx} (h : s.fftPort = .done c) : execFft s = .next (s.release.enter Phase.peak) := by
  simp [execFft, h]

end

/-- `fft_op` of a request's upper 8 bits (R109). -/
@[simp] theorem backendHdr_op (op : BitVec 2) (l : BitVec 5) : (backendHdr op l).extractLsb' 6 2 = op := by
  rw [backendHdr, BitVec.append_assoc, BitVec.cast_eq]
  exact BitVec.extractLsb'_append_eq_left

/-- Settles O27, by the state of the port. -/
theorem contextHandshakes : Obligations.ContextHandshakes := by
  unfold Obligations.ContextHandshakes
  exact fun s => ⟨
    fun hidle => ⟨execFftinit_of_idle hidle, backendHdr 0b11#2 s.log2n, backendHdr_op _ _, execStopping_of_idle hidle⟩,
    fun _ _ hsent => ⟨execFftinit_of_requested hsent, execStopping_of_requested hsent⟩,
    fun _ hdone => ⟨execFftinit_of_done hdone, execStopping_of_done hdone⟩⟩

/-- Settles O47, by the state of the port: the frame FFT writes is `+0` at every index. -/
theorem fftHandshake : Obligations.FftHandshake := by
  unfold Obligations.FftHandshake
  intro s
  refine ⟨fun hidle hfits => ?_, fun _ _ => execFft_of_requested, fun _ => execFft_of_done⟩
  obtain ⟨hzero, hkept⟩ := s.words_of_storeFrame (t := s.fftSent) (k := .im) (f := fun _ => fZero) fun l j => by
    simp [State.fftSent]
  exact ⟨s.fftSent, execFft_of_idle hidle hfits, hzero, hkept, rfl⟩

/-! The comparison on powers (R15). -/

theorem fgt_irrefl (a : Word) : fgt a a = false := by simp [fgt]

/-- What is no more than `b` is less than all that exceeds `b`, unless it is a NaN. -/
theorem isNaN_or_fgt_of_not_fgt {a b c : Word} (hab : fgt a b = false) (hcb : fgt c b = true) :
    isNaN a = true ∨ fgt c a = true := by
  obtain ⟨hc, hb, hlt⟩ := (fgt_iff c b).mp hcb
  cases ha : isNaN a with
  | true => exact .inl rfl
  | false =>
    have hle : valUnits a ≤ valUnits b := by simpa [fgt, ha, hb] using hab
    exact .inr ((fgt_iff c a).mpr ⟨hc, ha, hle.trans_lt hlt⟩)

theorem fgt_asymm {a b : Word} (h : isNaN a = true ∨ fgt b a = true) : fgt a b = false := by
  rcases h with h | h
  · simp [fgt, h]
  · have hlt := ((fgt_iff b a).mp h).2.2
    simp [fgt, hlt.le]

theorem fgt_trans {a b c : Word} (hab : fgt a b = true) (hbc : fgt b c = true) : fgt a c = true := by
  obtain ⟨ha, -, hlt⟩ := (fgt_iff a b).mp hab
  obtain ⟨-, hc, hlt'⟩ := (fgt_iff b c).mp hbc
  exact (fgt_iff a c).mpr ⟨ha, hc, hlt'.trans hlt⟩

/-! The search (R153). -/

/-- `r` is the greatest of the first `n` powers with the first index that has it, or `+0` at index 0 when no power is
above zero; a NaN is no maximum and hides none. -/
structure IsFirstMax (power : Nat → Word) (n : Nat) (r : Word × Nat) : Prop where
  /-- no power is greater -/
  bound : ∀ k, k < n → fgt (power k) r.1 = false
  /-- the start of the search, or a bin whose power exceeds every earlier one -/
  first : (r.2 = 0 ∧ r.1 = fZero) ∨
    (r.2 < n ∧ r.1 = power r.2 ∧ fgt r.1 fZero = true ∧ ∀ k, k < r.2 → isNaN (power k) = true ∨ fgt r.1 (power k) = true)

theorem IsFirstMax.zero (power : Nat → Word) : IsFirstMax power 0 (fZero, 0) := ⟨by simp, .inl ⟨rfl, rfl⟩⟩

/-- A bin with a greater power takes the maximum over. -/
theorem IsFirstMax.replace {power : Nat → Word} {n : Nat} {r : Word × Nat} (h : IsFirstMax power n r)
    (hgt : fgt (power n) r.1 = true) : IsFirstMax power (n + 1) (power n, n) := by
  have hbelow : ∀ k, k < n → isNaN (power k) = true ∨ fgt (power n) (power k) = true := fun k hk =>
    isNaN_or_fgt_of_not_fgt (h.bound k hk) hgt
  have hpos : fgt (power n) fZero = true := by
    rcases h.first with ⟨-, hzero⟩ | ⟨-, -, hr, -⟩
    · exact hzero ▸ hgt
    · exact fgt_trans hgt hr
  refine ⟨fun k hk => ?_, .inr ⟨n.lt_succ_self, rfl, hpos, hbelow⟩⟩
  rcases Nat.lt_succ_iff_lt_or_eq.mp hk with hk | rfl
  · exact fgt_asymm (hbelow k hk)
  · exact fgt_irrefl _

/-- Any other bin leaves the maximum where it is. -/
theorem IsFirstMax.keep {power : Nat → Word} {n : Nat} {r : Word × Nat} (h : IsFirstMax power n r)
    (hgt : fgt (power n) r.1 = false) : IsFirstMax power (n + 1) r := by
  refine ⟨fun k hk => ?_, h.first.imp_right fun ⟨hlt, hrest⟩ => ⟨hlt.trans n.lt_succ_self, hrest⟩⟩
  rcases Nat.lt_succ_iff_lt_or_eq.mp hk with hk | rfl
  · exact h.bound k hk
  · exact hgt

/-- The search finds the first maximum, by induction on the bins scanned. -/
theorem peakScan_isFirstMax {serial : Nat} {power : Nat → Word} (bins : List (Word × Word))
    (hpower : ∀ (k : Nat) (h : k < bins.length), power k = binPower serial k bins[k].1 bins[k].2) :
    IsFirstMax power bins.length (peakScan serial 0 fZero 0 bins) := by
  induction bins using List.reverseRecOn with
  | nil => exact .zero power
  | append_singleton bins b ih =>
    have hscanned := ih fun k hk => by
      rw [hpower k (by simp; omega), List.getElem_append_left hk]
    have hlast : power bins.length = binPower serial bins.length b.1 b.2 := by
      simpa using hpower bins.length (by simp)
    simp only [peakScan_append, peakScan, Nat.zero_add, List.length_append, List.length_singleton, ← hlast]
    split
    · rename_i hgt
      exact hscanned.replace hgt
    · rename_i hgt
      exact hscanned.keep (Bool.eq_false_iff.mpr hgt)

/-- The reported power is no NaN and has a positive sign: `+0`, or a power above it. -/
theorem IsFirstMax.positive {power : Nat → Word} {n : Nat} {r : Word × Nat} (h : IsFirstMax power n r) :
    isNaN r.1 = false ∧ signBit r.1 = false := by
  rcases h.first with ⟨-, hzero⟩ | ⟨-, -, hgt, -⟩
  · rw [hzero]
    decide
  · obtain ⟨hnan, -, hlt⟩ := (fgt_iff _ _).mp hgt
    have hpos : 0 < valUnits r.1 := by
      rwa [show valUnits fZero = 0 by decide] at hlt
    refine ⟨hnan, Bool.eq_false_iff.mpr fun hneg => hpos.not_ge ?_⟩
    simp [valUnits, hneg]

/-- Of two bins with the greatest power the first maximum is the lower (R154). -/
theorem IsFirstMax.eq_of_tie {power : Nat → Word} {n k1 k2 : Nat} {r : Word × Nat} (h : IsFirstMax power n r)
    (h12 : k1 < k2) (h2 : k2 < n) (htie : power k1 = power k2) (hpos : fgt (power k1) fZero = true)
    (hothers : ∀ k, k < n → k ≠ k1 → k ≠ k2 → isNaN (power k) = true ∨ fgt (power k1) (power k) = true) :
    r = (power k1, k1) := by
  have hmax := h.bound k1 (h12.trans h2)
  rcases h.first with ⟨-, hzero⟩ | ⟨hr, hpow, -, hearlier⟩
  · rw [hzero, hpos] at hmax
    cases hmax
  · by_cases h1 : r.2 = k1
    · exact Prod.ext (hpow.trans (by rw [h1])) h1
    · exfalso
      have hnan : isNaN (power k1) = false := ((fgt_iff _ _).mp hpos).1
      have hrnan : isNaN (power r.2) = false := hpow ▸ h.positive.1
      by_cases hr2 : r.2 = k2
      · have hself := hearlier k1 (hr2 ▸ h12)
        simp [hpow, hr2, ← htie, hnan, fgt_irrefl] at hself
      · have hless := hothers r.2 hr h1 hr2
        rw [← hpow] at hless hrnan
        simp [hrnan, hmax] at hless

/-! The operation PEAK. -/

/-- The bins PEAK scans: the lower half of the spectrum. -/
def State.bins (s : State) : List (Word × Word) :=
  (List.range (s.frameSize / 2)).map (fun k => (s.word .re k, s.word .im k))

@[simp] theorem State.bins_length (s : State) : s.bins.length = s.frameSize / 2 := by simp [State.bins]

/-- The greatest power and its bin, as PEAK finds them. -/
def State.peak (s : State) : Word × Nat := peakScan s.env.draws 0 fZero 0 s.bins

theorem State.peak_isFirstMax (s : State) : IsFirstMax s.power (s.frameSize / 2) s.peak := by
  rw [← s.bins_length]
  exact peakScan_isFirstMax s.bins fun k hk => by simp [State.bins, State.power]

/-- The state PEAK goes to (R153). -/
def State.peakNext (s : State) : State :=
  { s with
    pkPow := s.peak.1, pkIdx := BitVec.ofNat _ s.peak.2
    resFreq := s.word .ftab (BitVec.ofNat _ s.peak.2 : Index).toNat, resAmp := s.peak.1 }.spend.enter Phase.emit

theorem exec_peak_eq (s : State) : exec .peak s = s.withBuffers s.peakNext := by
  have hbins : (s.frame .re (s.frameSize / 2)).zip (s.frame .im (s.frameSize / 2)) = s.bins := by
    simp only [State.frame, State.bins, List.zip_map']
  have hexec : exec .peak s = execPeak s := rfl
  simp only [hexec, execPeak, hbins]
  rfl

theorem exec_peak_of_fits {s : State} (h : s.fits = true) : exec .peak s = .next s.peakNext := by
  rw [exec_peak_eq, State.withBuffers_of_fits _ h]

theorem exec_peak_next {s t : State} (h : exec .peak s = .next t) : s.fits = true ∧ t = s.peakNext :=
  State.withBuffers_next (exec_peak_eq s ▸ h)

/-- The bin's index fits `PKIDX` (R12). -/
theorem State.peakNext_pkIdx {s : State} (h : s.fits = true) : s.peakNext.pkIdx.toNat = s.peak.2 := by
  have hN := State.frameSize_le h
  refine Index.toNat_ofNat ?_
  rcases s.peak_isFirstMax.first with ⟨hzero, -⟩ | ⟨hlt, -⟩ <;> omega

/-- Settles O50: PEAK's scan answers the first maximum of the powers below `N/2`. -/
theorem peakIsFirstMaximum : Obligations.PeakIsFirstMaximum := by
  unfold Obligations.PeakIsFirstMaximum
  intro s hfits
  have hidx := State.peakNext_pkIdx hfits
  obtain ⟨hbound, hfirst⟩ := s.peak_isFirstMax
  refine ⟨s.peakNext, exec_peak_of_fits hfits, rfl, rfl, hbound, ?_, rfl⟩
  rw [hidx]
  exact hfirst.imp_left fun ⟨hzero, hpow⟩ => ⟨congrArg (BitVec.ofNat _) hzero, hpow⟩

/-- Settles O51: the first maximum of a tie is the lower bin. -/
theorem peakTieGoesLow : Obligations.PeakTieGoesLow := by
  unfold Obligations.PeakTieGoesLow
  refine ⟨fun s hfits => ⟨s.peakNext, exec_peak_of_fits hfits, ?_⟩, ?_⟩
  · rw [State.peakNext_pkIdx hfits]
    rfl
  · intro serial bins power k1 k2 hpower h12 h2 htie hpos hothers
    exact (peakScan_isFirstMax bins hpower).eq_of_tie h12 h2 htie hpos hothers

/-- Settles O52: the amplitude is a first maximum. -/
theorem amplitudeIsNeverNaN : Obligations.AmplitudeIsNeverNaN := by
  unfold Obligations.AmplitudeIsNeverNaN
  intro s t he
  obtain ⟨-, rfl⟩ := exec_peak_next he
  exact s.peak_isFirstMax.positive

end Sys2Proof.Machine
end

section
/-! PROOFS of the statements of 43_rms: the root of the mean square of the raw frame (O53), and its value on zeros and NaNs, its
sign and its independence of the frequency pipeline (O54). -/

namespace Sys2Proof.Machine

/-! The sum of squares over a frame (R165). -/

/-- The sum of the squares of the words of XBUF below `n`. -/
def State.squareSum (s : State) (n : Nat) : Word := sumSquares s.env.draws 0 fZero (s.frame .xbuf n)

theorem State.squareSum_zero (s : State) : s.squareSum 0 = fZero := rfl

/-- One more sample is one more rounded square in a rounded sum. -/
theorem State.squareSum_succ (s : State) (n : Nat) :
    s.squareSum (n + 1) = fadd (s.draw n 1) (s.squareSum n) (fmul (s.draw n 0) (s.word .xbuf n) (s.word .xbuf n)) := by
  simp [State.squareSum, State.frame_succ, sumSquares_append, sumSquares, State.draw]

/-- The sum depends on the words below `n` and the draw index only. -/
theorem State.squareSum_congr {s s' : State} {n : Nat} (hdraws : s'.env.draws = s.env.draws)
    (hwords : ∀ i : Nat, i < n → s'.word .xbuf i = s.word .xbuf i) : s'.squareSum n = s.squareSum n := by
  have hframe : s'.frame .xbuf n = s.frame .xbuf n := List.map_congr_left fun i hi => hwords i (List.mem_range.mp hi)
  rw [State.squareSum, State.squareSum, hdraws, hframe]

/-! The operation RMS. -/

/-- The state RMS goes to (R165). -/
def State.rmsNext (s : State) : State :=
  { s with
    acc := s.squareSum s.frameSize
    resRms := rootMean s.env.draws s.frameSize (s.squareSum s.frameSize) }.spend.enter s.afterRms

theorem exec_rms_of_fits {s : State} (h : s.fits = true) : exec .rms s = .next s.rmsNext :=
  State.withBuffers_of_fits _ h

theorem exec_rms_next {s t : State} (h : exec .rms s = .next t) : s.fits = true ∧ t = s.rmsNext :=
  State.withBuffers_next h

/-- The start of BQ1 sets `IDX` to 0, that of EMIT the count of sent beats (R41; logs 8, 10). -/
theorem State.enter_afterRms_eq (s : State) : s.enter s.afterRms = { s with
    phase := if s.flagFreq then 0x09#5 else 0x0E#5
    idx := if s.flagFreq then 0#_ else s.idx
    sent := if s.flagFreq then s.sent else 0 } := by
  rcases s.afterRms_cases with ⟨hfreq, hp⟩ | ⟨hfreq, hp⟩ <;> rw [hp]
  · simp [State.enter, walks, hfreq]
  · simp [State.enter, walks, hfreq]

/-- Settles O53: the recurrence is that of the sums over the first samples. -/
theorem rmsRecurrence : Obligations.RmsRecurrence := by
  unfold Obligations.RmsRecurrence
  intro s hfits
  exact ⟨s.rmsNext, s.squareSum, exec_rms_of_fits hfits, s.squareSum_zero, fun i _ => s.squareSum_succ i, rfl, rfl,
    State.enter_afterRms_eq _⟩

/-! A frame of zeros (R165 (a)). -/

/-- The square of a zero of either sign is `+0`. -/
theorem fmul_self_of_isZero (d : Draw) {x : Word} (h : isZero x = true) : fmul d x x = fZero := by
  have hfin := isFinite_of_isZero h
  rw [fmul_of_isFinite d hfin hfin, bne_self_eq_false, (magUnits_eq_zero_iff x).mpr h, Nat.zero_mul, roundUnits_zero]
  decide

theorem fadd_fZero_fZero (d : Draw) : fadd d fZero fZero = fZero :=
  fadd_of_sum_zero d (by decide) (by decide) (by decide)

theorem State.squareSum_of_zeros {s : State} {n : Nat} (h : ∀ i : Nat, i < n → isZero (s.word .xbuf i) = true) :
    s.squareSum n = fZero := by
  induction n with
  | zero => exact s.squareSum_zero
  | succ n ih =>
    rw [s.squareSum_succ, ih fun i hi => h i (hi.trans n.lt_succ_self), fmul_self_of_isZero _ (h n n.lt_succ_self),
      fadd_fZero_fZero]

/-! A NaN sample (R165 (e)). -/

theorem isNaN_fdiv (d : Draw) {a b : Word} (h : isNaN a = true ∨ isNaN b = true) : isNaN (fdiv d a b) = true := by
  rw [fdiv_of_isNaN d h, isNaN_nanWord]

/-- The square of a NaN spoils the sum, and a spoiled sum stays so. -/
theorem State.isNaN_squareSum {s : State} {n i : Nat} (hi : i < n) (h : isNaN (s.word .xbuf i) = true) :
    isNaN (s.squareSum n) = true := by
  induction n with
  | zero => exact absurd hi i.not_lt_zero
  | succ n ih =>
    rw [s.squareSum_succ]
    rcases Nat.lt_succ_iff_lt_or_eq.mp hi with hlt | rfl
    · exact isNaN_fadd _ (.inl (ih hlt))
    · exact isNaN_fadd _ (.inr (isNaN_fmul _ (.inl h)))

/-! The sign (R165 (f)). -/

/-- `w` is a NaN or has a positive sign. -/
def NaNOrPositive (w : Word) : Prop := isNaN w = true ∨ signBit w = false

theorem signBit_packWord (neg : Bool) (m : Nat) : signBit (packWord neg m) = neg := by
  have hbit : (packWord neg m).extractLsb' 31 1 = BitVec.ofBool neg := BitVec.extractLsb'_append_eq_left
  rw [signBit, hbit]
  cases neg <;> rfl

theorem NaNOrSigned.nanOrPositive {d : Draw} {w : Word} (h : NaNOrSigned d false w) : NaNOrPositive w := by
  rcases h with rfl | ⟨m, -, rfl⟩
  · exact .inl (isNaN_nanWord d)
  · exact .inr (signBit_packWord false m)

theorem valUnits_nonneg_of_signBit {w : Word} (h : signBit w = false) : 0 ≤ valUnits w := by simp [valUnits, h]

theorem nanOrPositive_square (d : Draw) (x : Word) : NaNOrPositive (fmul d x x) := by
  have hsigned := nanOrSigned_fmul d x x
  rw [Bool.xor_self] at hsigned
  exact hsigned.nanOrPositive

theorem nanOrPositive_fadd (d : Draw) {a b : Word} (ha : NaNOrPositive a) (hb : NaNOrPositive b) :
    NaNOrPositive (fadd d a b) := by
  rcases ha with hnan | hsa
  · exact .inl (isNaN_fadd d (.inl hnan))
  rcases hb with hnan | hsb
  · exact .inl (isNaN_fadd d (.inr hnan))
  have hsum := add_nonneg (valUnits_nonneg_of_signBit hsa) (valUnits_nonneg_of_signBit hsb)
  unfold fadd
  split
  · exact .inl (isNaN_nanWord d)
  · split
    · split
      · exact .inl (isNaN_nanWord d)
      · exact .inr hsa
    · split
      · exact .inr hsb
      · dsimp only
        split
        · exact .inr (by rw [zeroWord, signBit_packWord, hsa, Bool.false_and])
        · exact .inr (by rw [signBit_packWord, decide_eq_false hsum.not_gt])

theorem nanOrPositive_fdiv (d : Draw) {a b : Word} (ha : NaNOrPositive a) (hb : signBit b = false) :
    NaNOrPositive (fdiv d a b) := by
  rcases ha with hnan | hsa
  · exact .inl (isNaN_fdiv d (.inl hnan))
  · have hsigned := nanOrSigned_fdiv d a b
    rw [hsa, hb, Bool.xor_self] at hsigned
    exact hsigned.nanOrPositive

theorem nanOrPositive_fsqrt (d : Draw) {a : Word} (ha : NaNOrPositive a) : NaNOrPositive (fsqrt d a) := by
  unfold fsqrt
  split
  · exact .inl (isNaN_nanWord d)
  · split
    · exact ha
    · split
      · exact .inl (isNaN_nanWord d)
      · split
        · exact ha
        · exact .inr (signBit_packWord false _)

/-- The sum starts at `+0`, and adds squares. -/
theorem State.nanOrPositive_squareSum (s : State) (n : Nat) : NaNOrPositive (s.squareSum n) := by
  induction n with
  | zero =>
    rw [s.squareSum_zero]
    exact .inr (by decide)
  | succ n ih =>
    rw [s.squareSum_succ]
    exact nanOrPositive_fadd _ ih (nanOrPositive_square _ _)

/-! The root of the mean. -/

theorem rootMean_fZero (serial : Nat) {l : Nat} (hl : l ≤ 24) : rootMean serial (2 ^ l) fZero = fZero := by
  obtain ⟨hfin, -, hnonzero⟩ := i2f_two_pow hl
  have hpos : signBit (i2f (2 ^ l : Nat)) = false := signBit_packWord _ _
  rw [rootMean, fdiv_fZero _ hfin hnonzero hpos, fsqrt_self _ (.inl (by decide))]

theorem isNaN_rootMean (serial n : Nat) {acc : Word} (h : isNaN acc = true) : isNaN (rootMean serial n acc) = true :=
  isNaN_fsqrt _ (.inl (isNaN_fdiv _ (.inl h)))

theorem nanOrPositive_rootMean (serial n : Nat) {acc : Word} (h : NaNOrPositive acc) :
    NaNOrPositive (rootMean serial n acc) :=
  nanOrPositive_fsqrt _ (nanOrPositive_fdiv _ h (signBit_packWord _ _))

/-- What RMS computes is a function of `LOG2N`, the raw frame and the draw index (R166). -/
theorem State.rmsNext_congr {s s' : State} (hlog2n : s'.log2n = s.log2n) (hdraws : s'.env.draws = s.env.draws)
    (hwords : ∀ i : Nat, i < s.frameSize → s'.word .xbuf i = s.word .xbuf i) :
    s'.rmsNext.acc = s.rmsNext.acc ∧ s'.rmsNext.resRms = s.rmsNext.resRms := by
  have hsize : s'.frameSize = s.frameSize := by rw [State.frameSize, hlog2n, State.frameSize]
  have hsum : s'.squareSum s'.frameSize = s.squareSum s.frameSize := by
    rw [hsize, State.squareSum_congr hdraws hwords]
  have hroot : rootMean s'.env.draws s'.frameSize (s'.squareSum s'.frameSize) =
      rootMean s.env.draws s.frameSize (s.squareSum s.frameSize) := by rw [hsum, hdraws, hsize]
  exact ⟨hsum, hroot⟩

/-- Settles O54: zeros, NaNs and the sign go through the sum and then through the root of the mean. -/
theorem rmsProperties : Obligations.RmsProperties := by
  unfold Obligations.RmsProperties
  intro s t he
  obtain ⟨hfits, rfl⟩ := exec_rms_next he
  refine ⟨fun hzeros => ?_, fun ⟨i, hi, hnan⟩ => ?_, ?_, fun s' hlog2n hdraws hwords => ?_⟩
  · have hroot : s.rmsNext.resRms = rootMean s.env.draws (2 ^ s.log2n.toNat) (s.squareSum s.frameSize) := rfl
    rw [hroot, State.squareSum_of_zeros hzeros, rootMean_fZero _ (State.log2n_le hfits)]
    rfl
  · have hacc := State.isNaN_squareSum hi hnan
    exact ⟨hacc, isNaN_rootMean _ _ hacc⟩
  · exact nanOrPositive_rootMean _ _ (s.nanOrPositive_squareSum _)
  · have hfits' : s'.fits = true := by rwa [State.fits, hlog2n]
    exact ⟨s'.rmsNext, exec_rms_of_fits hfits', State.rmsNext_congr hlog2n hdraws hwords⟩

end Sys2Proof.Machine
end

section
/-! PROOFS of the statements of 44_pipeline_fsm. The sequencer's own operations, outcome by outcome (O19 to O22, O25), and the two
safety statements on the way in to STOPPING (O12) and out of EMIT (O17). -/

namespace Sys2Proof.Machine

section

variable {s : State}

/-! IDLE, STOPPED and FATAL. -/

/-- Settles O19: the three operations answer the state they are given. -/
theorem waitingPhasesChangeNothing : Obligations.WaitingPhasesChangeNothing := by
  unfold Obligations.WaitingPhasesChangeNothing
  exact fun _ => ⟨rfl, rfl, rfl⟩

/-! VALIDATE (R172). -/

theorem execValidate_of_amp_without_freq (h : s.flagAmp = true ∧ s.flagFreq = false) :
    execValidate s = .next (s.raiseFatal 0x01#8) := by
  simp [execValidate, h]

/-- LOG2N is tested only after the flags (R172, R208). -/
theorem execValidate_of_log2n_range (hflags : ¬ (s.flagAmp = true ∧ s.flagFreq = false))
    (h : s.log2n.toNat = 0 ∨ Config.maxLog2 < s.log2n.toNat) : execValidate s = .next (s.raiseFatal 0x02#8) := by
  have hpass : ¬ (s.flagAmp && !s.flagFreq) = true := by simpa using hflags
  rw [execValidate, if_neg hpass, if_pos h]

theorem execValidate_of_validConfig (h : s.validConfig) : execValidate s = .next (s.enter Phase.coef) := by
  obtain ⟨hflags, hlow, hhigh⟩ := h
  have hpass : ¬ (s.flagAmp && !s.flagFreq) = true := by simpa using hflags
  have hrange : ¬ (s.log2n.toNat = 0 ∨ Config.maxLog2 < s.log2n.toNat) := by omega
  rw [execValidate, if_neg hpass, if_neg hrange]

/-- Settles O20, outcome by outcome; entering COEF writes `PHASE` alone, since COEF walks no buffer. -/
theorem validateOutcomes : Obligations.ValidateOutcomes := by
  unfold Obligations.ValidateOutcomes
  exact fun _ => ⟨execValidate_of_amp_without_freq, execValidate_of_log2n_range, execValidate_of_validConfig⟩

/-! CHECK (R173). -/

theorem execCheck_of_stop (h : s.stopf = true) : execCheck s = .next (s.enter Phase.stopping) := by
  simp [execCheck, h]

theorem execCheck_of_no_stop (h : s.stopf = false) : execCheck s = .next (s.enter Phase.load) := by
  simp [execCheck, h]

/-- Settles O21: entering LOAD clears `WPTR`, entering STOPPING nothing. -/
theorem checkOutcomes : Obligations.CheckOutcomes := by
  unfold Obligations.CheckOutcomes
  exact fun _ => ⟨execCheck_of_stop, execCheck_of_no_stop⟩

/-! EMIT (R176). -/

theorem execEmit_of_unsent (h : s.sent < s.line.length) : execEmit s = .next s :=
  congrArg Host.Outcome.next (if_pos h)

theorem execEmit_of_all_sent (h : s.line.length ≤ s.sent) : execEmit s = .next (s.enter Phase.check) :=
  congrArg Host.Outcome.next (if_neg (Nat.not_lt_of_le h))

/-- A field stands in the line once or not at all, by its flag (R186). -/
theorem replicate_toNat_eq_ite {α : Type} (b : Bool) (x : α) : List.replicate b.toNat x = if b then [x] else [] := by
  cases b <;> rfl

/-- Settles O25: the line is written field by field, and the wait ends with its last beat. -/
theorem emitLine : Obligations.EmitLine := by
  unfold Obligations.EmitLine
  refine fun s => ⟨?_, execEmit_of_unsent, execEmit_of_all_sent⟩
  simp only [replicate_toNat_eq_ite]
  rfl

end

/-! LOAD. -/

/-- Settles O22: the sample is stored and counted, and with room left that is all; with the frame full the successor of LOAD
is entered. -/
theorem loadStoresSample : Obligations.LoadStoresSample := by
  unfold Obligations.LoadStoresSample
  intro s beat rest hfits hroom hsource hshort
  have hcount : (s.takeSample (beatData beat)).wptr.toNat = s.wptr.toNat + 1 := State.wptr_succ hfits hroom
  have htaken : s.takeSample (beatData beat) = { s with
      mem := (s.takeSample (beatData beat)).mem, wptr := s.wptr + 1#_, env := { s.env with source := rest } } := by
    simp [State.takeSample, State.dropBeat, State.storeWord, hsource]
  refine ⟨(s.takeSample (beatData beat)).loadNext, execLoad_eq_takeSample hfits hroom hsource hshort, ?_, ?_, ?_⟩
  · rw [State.word_loadNext, State.word_takeSample, if_pos ⟨rfl, rfl⟩]
  · intro k i hother
    rw [State.word_loadNext, State.word_takeSample, if_neg hother]
  · rcases (s.takeSample (beatData beat)).loadNext_cases with ⟨hmore, ht⟩ | ⟨hfull, ht⟩ <;> rw [ht]
    · have hmore' : s.wptr.toNat + 1 < s.frameSize := hcount ▸ hmore
      simp only [hmore', if_true]
      exact ⟨hcount, htaken⟩
    · have hfull' : ¬ s.wptr.toNat + 1 < s.frameSize := Nat.not_lt_of_le (hcount ▸ hfull)
      simp only [hfull', if_false, State.enter_afterLoad_eq]
      exact ⟨hcount, by rw [htaken]; rfl⟩

/-! STOPPING and EMIT: how the phase changes. -/

/-- A change of `PHASE` that is no reset goes along the table of R170 at the sequencer's turn, or out of `IDLE` (O14). -/
theorem step_phase_cases {s t : State} (hstep : step s = .next t) (hreset : ¬ s.resetNext) (hne : t.phase ≠ s.phase) :
    (s.sequencerNext ∧ (s.phase, t.phase) ∈ successors) ∨ (s.phase = Phase.idle ∧ t.phase = Phase.validate) := by
  obtain ⟨-, -, -, -, -, -, -, -, -, -, hphase, -, -⟩ := registerWriters s t hstep hreset
  exact (hphase hne).imp_right fun ⟨hidle, hvalidate, _⟩ => ⟨hidle, hvalidate⟩

/-- A reset step gives a state in `IDLE` (R230). -/
theorem step_reset_phase {s t : State} (hstep : step s = .next t) (hreset : s.resetNext) : t.phase = Phase.idle := by
  have hrun : step s = .next s.nextTurn.restart := step_of_decode (State.fetch_of_head hreset) rfl
  obtain rfl := Host.Outcome.next.inj (hrun.symm.trans hstep)
  rfl

/-- In the table of R170 only CHECK leads to STOPPING, and EMIT leads only to CHECK. -/
theorem successors_check : ∀ e ∈ successors,
    (e.2 = Phase.stopping → e.1 = Phase.check) ∧ (e.1 = Phase.emit → e.2 = Phase.check) := by
  simp [successors]

/-- Settles O12: by the table of R170 the step was CHECK's, and without a stop pending CHECK goes to LOAD. -/
theorem stoppingOnlyFromCheck : Obligations.StoppingOnlyFromCheck := by
  unfold Obligations.StoppingOnlyFromCheck
  intro s t hstep hstopping hbefore
  have hreset : ¬ s.resetNext := fun h => by
    cases hstopping.symm.trans (step_reset_phase hstep h)
  rcases step_phase_cases hstep hreset (by rwa [hstopping, ne_comm]) with ⟨hseq, hsucc⟩ | ⟨-, hvalidate⟩
  · have hcheck : s.phase = Phase.check := (successors_check _ hsucc).1 hstopping
    refine ⟨hcheck, ?_, hseq⟩
    by_contra hstop
    have hload : step s = .next (s.nextTurn.enter Phase.load) :=
      (step_of_phase hseq (i := .check) (by rw [hcheck]; rfl)).trans
        (execCheck_of_no_stop (s := s.nextTurn) (Bool.eq_false_iff.mpr hstop))
    obtain rfl := Host.Outcome.next.inj (hload.symm.trans hstep)
    cases hstopping
  · cases hstopping.symm.trans hvalidate

/-- Settles O17: by the table of R170 the step was EMIT's, which waits while a beat is unsent. -/
theorem noTornLine : Obligations.NoTornLine := by
  unfold Obligations.NoTornLine
  intro s t hinv hstep hemit hleft hreset
  rcases step_phase_cases hstep hreset (by rwa [hemit]) with ⟨hseq, hsucc⟩ | ⟨hidle, -⟩
  · refine ⟨?_, (successors_check _ hsucc).2 hemit⟩
    by_contra htorn
    have hunsent : s.sent < s.line.length := Nat.lt_of_le_of_ne (hinv.line_bound hemit) htorn
    have hwait : step s = .next s.nextTurn :=
      (step_of_phase hseq (i := .emit) (by rw [hemit]; rfl)).trans (execEmit_of_unsent (s := s.nextTurn) hunsent)
    obtain rfl := Host.Outcome.next.inj (hwait.symm.trans hstep)
    exact hleft hemit
  · cases hemit.symm.trans hidle

end Sys2Proof.Machine
end

section
/-! PROOFS of the statements of 44_pipeline_fsm on the host port: START and STOP (O30), the writes (O31) and the reads (O32),
register by register. -/

namespace Sys2Proof.Machine

section

variable {s : State}

/-! Commands (R182, R183). -/

theorem State.startRun_of_idle (h : s.phase = Phase.idle) : s.startRun = s.enter Phase.validate := if_pos h

theorem State.startRun_of_not_idle (h : s.phase ≠ Phase.idle) : s.startRun = s := if_neg h

/-- Settles O30: entering VALIDATE writes `PHASE` alone. -/
theorem startAndStopCommands : Obligations.StartAndStopCommands := by
  unfold Obligations.StartAndStopCommands
  exact fun _ => ⟨fun hidle => congrArg Host.Outcome.next (State.startRun_of_idle hidle),
    fun hbusy => congrArg Host.Outcome.next (State.startRun_of_not_idle hbusy), rfl, rfl⟩

/-! Writes (R181). -/

variable {addr : BitVec 4} {data : Word}

/-- A write to `CMD` is the command its low four bits name (R45). -/
theorem State.hostWrite_command (ha : addr = 0x0#4) : s.hostWrite addr data =
    if commandCode data = 0x1#4 then s.startRun else if commandCode data = 0x2#4 then s.setStop else s :=
  if_pos ha

/-- Outside `IDLE` no register but `CMD` takes a write (R175). -/
theorem State.hostWrite_of_not_idle (ha : addr ≠ 0x0#4) (h : s.phase ≠ Phase.idle) : s.hostWrite addr data = s := by
  rw [State.hostWrite, if_neg ha, if_neg h]

/-- In `IDLE` the three configuration registers take a write. -/
theorem State.hostWrite_of_idle (ha : addr ≠ 0x0#4) (h : s.phase = Phase.idle) : s.hostWrite addr data =
    if addr = 0x3#4 then { s with sampleRate := data }
    else if addr = 0x4#4 then { s with log2n := log2nField data }
    else if addr = 0x5#4 then { s with flags := flagsField data }
    else s := by
  rw [State.hostWrite, if_neg ha, if_pos h]

/-- `STATUS`, `ERR` and the reserved numbers take no write in any phase (R46, R47, R51). -/
theorem State.hostWrite_of_readOnly (h : addr = 0x1#4 ∨ addr = 0x2#4 ∨ 0x6 ≤ addr.toNat) : s.hostWrite addr data = s := by
  have hother : addr ≠ 0x0#4 ∧ addr ≠ 0x3#4 ∧ addr ≠ 0x4#4 ∧ addr ≠ 0x5#4 := by bv_omega
  obtain ⟨h0, h3, h4, h5⟩ := hother
  by_cases hidle : s.phase = Phase.idle
  · rw [State.hostWrite_of_idle h0 hidle, if_neg h3, if_neg h4, if_neg h5]
  · exact State.hostWrite_of_not_idle h0 hidle

/-- Settles O31, from what `State.hostWrite` does with each register. -/
theorem hostWrites : Obligations.HostWrites := by
  unfold Obligations.HostWrites
  intro addr data s
  have wr : ∀ {t : State}, s.hostWrite addr data = t → exec (.wr addr data) s = .next t := congrArg Host.Outcome.next
  refine ⟨fun ha hstart => wr ?_, fun ha hstop => wr ?_, fun ha hstart hstop => wr ?_, fun ha hidle => wr ?_,
    fun ha hidle => wr ?_, fun ha hidle => wr ?_, fun ha hbusy => wr (State.hostWrite_of_not_idle ha hbusy),
    fun ha => wr (State.hostWrite_of_readOnly ha)⟩
  · rw [State.hostWrite_command ha]
    exact if_pos hstart
  · rw [State.hostWrite_command ha]
    exact (if_neg (by rw [commandCode, hstop]; decide)).trans (if_pos hstop)
  · rw [State.hostWrite_command ha]
    exact (if_neg hstart).trans (if_neg hstop)
  all_goals
    subst ha
    exact State.hostWrite_of_idle (by decide) hidle

end

/-! Reads (R180). -/

/-- Bit `i` of `STATUS` (R46). -/
theorem State.statusWord_getLsbD (s : State) (i : Nat) : s.statusWord.getLsbD i =
    if i < 5 then s.phase.getLsbD i
    else if i < 8 then false
    else if i = 8 then s.stopf
    else if i = 9 then s.done
    else if i = 10 then s.fatalf
    else if i = 11 then s.ctxv
    else false := by
  change BitVec.getLsbD (w := 20 + 1 + 1 + 1 + 1 + 3 + 5) (0#20 ++ BitVec.ofBool s.ctxv ++ BitVec.ofBool s.fatalf ++
    BitVec.ofBool s.done ++ BitVec.ofBool s.stopf ++ 0#3 ++ s.phase) i = _
  simp only [BitVec.getLsbD_append, BitVec.getLsbD_ofBool, BitVec.getLsbD_zero]
  rcases Nat.lt_or_ge i 9 with h | h <;> grind

/-- The fields of `STATUS` at their places (R46). -/
theorem State.statusWord_fields (s : State) :
    s.statusWord.extractLsb' 0 5 = s.phase ∧ s.statusWord.extractLsb' 5 3 = 0#3 ∧ s.statusWord.getLsbD 8 = s.stopf ∧
    s.statusWord.getLsbD 9 = s.done ∧ s.statusWord.getLsbD 10 = s.fatalf ∧ s.statusWord.getLsbD 11 = s.ctxv ∧
    s.statusWord.extractLsb' 12 20 = 0#20 := by
  have bit := s.statusWord_getLsbD
  refine ⟨BitVec.extractLsb'_append_eq_right, ?between, bit 8, bit 9, bit 10, bit 11, ?above⟩
  all_goals
    refine BitVec.eq_of_getLsbD_eq fun i hi => ?_
    rw [BitVec.getLsbD_extractLsb', bit, BitVec.getLsbD_zero]
    grind
/-- `CMD` and the reserved numbers read as zero (R45, R51). -/
theorem State.hostRead_of_reserved (s : State) {addr : BitVec 4} (h : addr = 0x0#4 ∨ 0x6 ≤ addr.toNat) :
    s.hostRead addr = 0#32 := by
  have hother : addr ≠ 0x1#4 ∧ addr ≠ 0x2#4 ∧ addr ≠ 0x3#4 ∧ addr ≠ 0x4#4 ∧ addr ≠ 0x5#4 := by bv_omega
  obtain ⟨h1, h2, h3, h4, h5⟩ := hother
  rw [State.hostRead, if_neg h1, if_neg h2, if_neg h3, if_neg h4, if_neg h5]

/-- Settles O32: the word answered is `State.hostRead`. -/
theorem hostReads : Obligations.HostReads := by
  unfold Obligations.HostReads
  intro addr s
  refine ⟨s.hostRead addr, rfl, fun ha => s.hostRead_of_reserved (.inl ha), ?_, ?_, ?_, ?_, ?_,
    fun ha => s.hostRead_of_reserved (.inr ha)⟩
  · rintro rfl
    exact s.statusWord_fields
  all_goals
    rintro rfl
    rfl

end Sys2Proof.Machine
end

section
/-! PROOFS of the statements of 44_pipeline_fsm on whole runs: from START to CHECK (O28) and from CHECK to STOPPED (O29). Each run
is cut at the backend's handshake, which FFTINIT and STOPPING share. -/

namespace Sys2Proof.Machine

section

variable {s u : State} {later : List Turn}

/-! One move of a run. -/

/-- At the sequencer's turn a run goes on from what the operation in `PHASE` answers. -/
theorem steps_sequencer (i : Instr) {p : BitVec 5} (k : Nat) (hturns : s.env.turns = .sequencer :: later)
    (hq : s.phase = p) (he : exec i s.nextTurn = .next u) (hi : decodePhase p = .ok i := by rfl) :
    steps (k + 1) s = steps k u :=
  steps_succ k ((step_of_phase (.inr (by rw [hturns]; rfl)) (hq ▸ hi)).trans he)

/-- At the host's turn START begins the run (R182). -/
theorem steps_start (k : Nat) (hturns : s.env.turns = .host 0x1000000001#37 :: later) (hq : s.phase = Phase.idle) :
    steps (k + 1) s = steps k (s.nextTurn.enter Phase.validate) := by
  have hfetch : s.fetch = some (.host 0x1000000001#37) := State.fetch_of_head (by rw [hturns]; rfl)
  have hstart : exec .start s.nextTurn = .next (s.nextTurn.enter Phase.validate) :=
    congrArg Host.Outcome.next (State.startRun_of_idle (s := s.nextTurn) hq)
  exact steps_succ k ((step_of_decode hfetch rfl).trans hstart)

/-- At the backend's turn a request that holds no frame is answered (R215, R217). -/
theorem steps_backend {hdr : BitVec 8} {ctx : Ctx} {i : Instr} (k : Nat) (hturns : s.env.turns = .backend :: later)
    (hport : s.fftPort = .requested hdr ctx) (hi : decodeBackend hdr ctx = .ok i)
    (hkind : (∃ l, i = .reqInit l) ∨ (∃ c, i = .reqDestroy c)) : steps (k + 1) s = steps k s.nextTurn.answer := by
  have hfetch : s.fetch = some (.backend hdr ctx) := by
    rw [State.fetch, hturns]
    simp [hport]
  have hserved : s.nextTurn.outstanding = some i := State.outstanding_of_requested hport hi
  have hanswer : exec i s.nextTurn = .next s.nextTurn.answer := by
    rcases hkind with ⟨l, rfl⟩ | ⟨c, rfl⟩ <;> exact congrArg Host.Outcome.next (if_pos hserved)
  exact steps_succ k ((step_of_decode hfetch hi).trans hanswer)

/-! The handshake with the backend. -/

/-- The request `op` has been sent and answered, each a move of its own, and the turn is taken at which the answer is seen
(log 11). -/
def State.served (s : State) (op : BitVec 2) : State := (s.nextTurn.request op).nextTurn.answer.nextTurn

/-- The state FFTINIT leaves once its request is served (R151). -/
def State.contextOpened (s : State) : State :=
  ({ s.served 0b01#2 with ctx := Config.ctxAnswer s.env.draws, ctxv := true }.release).enter Phase.check

/-- The state STOPPING leaves once its request is served (R177). -/
def State.contextClosed (s : State) : State :=
  ({ s.served 0b11#2 with ctxv := false }.release).enter Phase.stopped

@[simp] theorem State.served_fftPort (op : BitVec 2) : (s.served op).fftPort = .done (Config.ctxAnswer s.env.draws) := by
  simp [State.served]

/-- An operation that sends a request at its own turn has it answered at the backend's, and leaves at the next of its own. -/
theorem steps_served {i req : Instr} {op : BitVec 2} {p : BitVec 5} (k : Nat)
    (hturns : s.env.turns = .sequencer :: .backend :: .sequencer :: later) (hq : s.phase = p)
    (hi : decodePhase p = .ok i) (hsend : exec i s.nextTurn = .next (s.nextTurn.request op))
    (hreq : decodeBackend (backendHdr op s.log2n) s.ctx = .ok req)
    (hkind : (∃ l, req = .reqInit l) ∨ (∃ c, req = .reqDestroy c)) (hleave : exec i (s.served op) = .next u) :
    steps (k + 3) s = steps k u := by
  calc steps (k + 3) s = steps (k + 2) (s.nextTurn.request op) := steps_sequencer i _ hturns hq hsend hi
    _ = steps (k + 1) (s.nextTurn.request op).nextTurn.answer :=
        steps_backend (later := .sequencer :: later) _ (by simp [hturns]) (by simp) hreq hkind
    _ = steps k u := steps_sequencer (later := later) i _ (by simp [hturns]) (by simp [hq]) hleave hi

/-- FFTINIT sends its request, the backend answers with a handle, and FFTINIT takes it and leaves for CHECK (R151, R215). -/
theorem steps_fftinit (k : Nat) (hturns : s.env.turns = .sequencer :: .backend :: .sequencer :: later)
    (hq : s.phase = Phase.fftinit) (hport : s.fftPort = .idle) : steps (k + 3) s = steps k s.contextOpened :=
  steps_served k hturns hq rfl (execFftinit_of_idle hport) (decodeBackend_backendHdr_init _ _) (.inl ⟨_, rfl⟩)
    (execFftinit_of_done (State.served_fftPort _))

/-- STOPPING sends its request, the backend answers, and STOPPING gives the context up and leaves for STOPPED (R177, R217). -/
theorem steps_stopping (k : Nat) (hturns : s.env.turns = .sequencer :: .backend :: .sequencer :: later)
    (hq : s.phase = Phase.stopping) (hport : s.fftPort = .idle) : steps (k + 3) s = steps k s.contextClosed :=
  steps_served k hturns hq rfl (execStopping_of_idle hport) (decodeBackend_backendHdr_destroy _ _) (.inr ⟨_, rfl⟩)
    (execStopping_of_done (State.served_fftPort _))

end

/-- Outside FATAL there is no error (R47). -/
theorem State.Inv.err_zero {s : State} (h : s.Inv) (hq : s.phase ≠ Phase.fatal) : s.err = 0x00#8 := by
  by_contra hne
  exact hq (h.err_fatal.mp hne)

/-- Settles O29: CHECK enters STOPPING, whose request the backend answers. -/
theorem stopEndsTheRun : Obligations.StopEndsTheRun := by
  unfold Obligations.StopEndsTheRun
  intro s later hinv hcheck hstop hturns
  have hrun : steps 4 s = some (s.nextTurn.enter Phase.stopping).contextClosed :=
    calc steps 4 s = steps 3 (s.nextTurn.enter Phase.stopping) :=
          steps_sequencer .check 3 hturns hcheck (execCheck_of_stop (s := s.nextTurn) hstop)
      _ = steps 0 (s.nextTurn.enter Phase.stopping).contextClosed :=
          steps_stopping 0 (congrArg List.tail hturns) rfl (hinv.quiet_at hcheck)
      _ = _ := steps_zero _
  have herr : s.err = 0x00#8 := hinv.err_zero (by simp [hcheck])
  refine ⟨_, hrun, ?_⟩
  simp [State.contextClosed, State.served, State.done, herr]

/-! The startup chain (R170). -/

/-- The run that began in `s` has come to `u`, with operation `p` in `PHASE` and the moves `later` to come; of the registers
and ports that outlive the building of the tables, each is as it was in `s`. -/
structure State.StartedUp (s u : State) (p : BitVec 5) (later : List Turn) : Prop where
  phase : u.phase = p
  turns : u.env.turns = later
  config : s.sameConfig u
  stopf : u.stopf = s.stopf
  err : u.err = s.err
  ctx : u.ctx = s.ctx
  port : u.fftPort = s.fftPort
  requests : u.env.requests = s.env.requests
  filters : u.s1 = s.s1 ∧ u.s2 = s.s2

section

variable {s u : State} {later : List Turn}

/-- The configuration that VALIDATE lets pass is still there. -/
theorem State.StartedUp.validConfig {p : BitVec 5} (h : s.StartedUp u p later) (hvalid : s.validConfig) :
    u.validConfig := by
  obtain ⟨-, hlog2n, hflags⟩ := h.config
  simpa only [State.validConfig, State.flagAmp, State.flagFreq, hlog2n, hflags] using hvalid

/-- So the tables fit the buffers (R52). -/
theorem State.StartedUp.fits {p : BitVec 5} (h : s.StartedUp u p later) (hvalid : s.validConfig) : u.fits = true := by
  obtain ⟨-, -, hhigh⟩ := h.validConfig hvalid
  exact u.fits_iff.mpr hhigh

/-- The run begins where it stands. -/
theorem State.startedUp_self (hturns : s.env.turns = later) : s.StartedUp s s.phase later :=
  ⟨rfl, hturns, ⟨rfl, rfl, rfl⟩, rfl, rfl, rfl, rfl, rfl, ⟨rfl, rfl⟩⟩

section

variable {p : BitVec 5} (h : s.StartedUp u p later)

include h

theorem State.StartedUp.enter (q : BitVec 5) : s.StartedUp (u.enter q) q later := { h with phase := rfl }

theorem State.StartedUp.spend : s.StartedUp u.spend p later := { h with }

theorem State.StartedUp.storeFrame (k : BufId) (ws : List Word) : s.StartedUp (u.storeFrame k ws) p later := { h with }

theorem State.StartedUp.setCoefs (c : Coefs) : s.StartedUp { u with coefs := c } p later := { h with }

/-- VALIDATE lets the configuration pass (R172). -/
theorem State.StartedUp.validate (hvalid : s.validConfig) :
    ∃ v, exec .validate u = .next v ∧ s.StartedUp v Phase.coef later :=
  ⟨_, execValidate_of_validConfig (h.validConfig hvalid), h.enter _⟩

/-- COEF, WINGEN and FTGEN build their tables (R130, R140, R150). -/
theorem State.StartedUp.coef : ∃ v, exec .coef u = .next v ∧ s.StartedUp v Phase.wingen later :=
  ⟨_, rfl, (h.setCoefs _).spend.enter _⟩

theorem State.StartedUp.wingen (hvalid : s.validConfig) :
    ∃ v, exec .wingen u = .next v ∧ s.StartedUp v Phase.ftgen later :=
  ⟨_, exec_wingen_of_fits (h.fits hvalid), (h.storeFrame _ _).spend.enter _⟩

theorem State.StartedUp.ftgen (hvalid : s.validConfig) :
    ∃ v, exec .ftgen u = .next v ∧ s.StartedUp v Phase.fftinit later :=
  ⟨_, exec_ftgen_of_fits (h.fits hvalid), (h.storeFrame _ _).spend.enter _⟩

end

/-- A turn is taken. -/
theorem State.StartedUp.nextTurn {p : BitVec 5} {m : Turn} (h : s.StartedUp u p (m :: later)) :
    s.StartedUp u.nextTurn p later :=
  { h with turns := congrArg List.tail h.turns }

/-- The sequencer's turn takes the run on as the operation in `PHASE` does. -/
theorem State.StartedUp.step {p q : BitVec 5} (i : Instr) (k : Nat) (h : s.StartedUp u p (.sequencer :: later))
    (hop : s.StartedUp u.nextTurn p later → ∃ v, exec i u.nextTurn = .next v ∧ s.StartedUp v q later)
    (hi : decodePhase p = .ok i := by rfl) : ∃ v, steps (k + 1) u = steps k v ∧ s.StartedUp v q later := by
  obtain ⟨v, he, hv⟩ := hop h.nextTurn
  exact ⟨v, steps_sequencer i k h.turns h.phase he hi, hv⟩

end

/-- START, VALIDATE and the three operations that build the tables, each at a turn of its own, lead from `IDLE` to FFTINIT
(R170, R182). -/
theorem steps_startup {s : State} {later : List Turn} (k : Nat) (hidle : s.phase = Phase.idle) (hvalid : s.validConfig)
    (hturns : s.env.turns = [.host 0x1000000001#37, .sequencer, .sequencer, .sequencer, .sequencer] ++ later) :
    ∃ u, steps (k + 5) s = steps k u ∧ s.StartedUp u Phase.fftinit later := by
  have started := (State.startedUp_self hturns).nextTurn.enter Phase.validate
  obtain ⟨_, hvalidate, validated⟩ := started.step .validate (k + 3) (·.validate hvalid)
  obtain ⟨_, hcoef, filtered⟩ := validated.step .coef (k + 2) (·.coef)
  obtain ⟨_, hwingen, windowed⟩ := filtered.step .wingen (k + 1) (·.wingen hvalid)
  obtain ⟨u, hftgen, h⟩ := windowed.step .ftgen k (·.ftgen hvalid)
  exact ⟨u, by rw [steps_start (k + 4) hturns hidle, hvalidate, hcoef, hwingen, hftgen], h⟩

/-- Settles O28: the startup chain comes to FFTINIT, whose request the backend answers. -/
theorem startupReachesCheck : Obligations.StartupReachesCheck := by
  unfold Obligations.StartupReachesCheck
  intro s later hinv hidle hvalid hturns
  obtain ⟨u, hstartup, h⟩ := steps_startup 3 hidle hvalid hturns
  have hrun : steps 8 s = some u.contextOpened := by
    rw [hstartup, steps_fftinit 0 h.turns h.phase (h.port.trans (hinv.quiet_at hidle)), steps_zero]
  have herr : u.err = 0x00#8 := h.err.trans (hinv.err_zero (by simp [hidle]))
  obtain ⟨hrate, hlog2n, hflags⟩ := h.config
  obtain ⟨hs1, hs2⟩ := h.filters
  refine ⟨u.contextOpened, hrun, ?_⟩
  simp [State.contextOpened, State.served, State.sameConfig, herr, hrate, hlog2n, hflags, h.stopf, hs1, hs2, h.requests,
    h.ctx, h.turns]

end Sys2Proof.Machine
end

section
/-! PROOFS of the statements of 60_exceptions. No step that meets the invariant faults (O8): the word it fetches spells a row,
and the words that row's operation accesses exist. -/

namespace Sys2Proof.Machine

section

variable {s : State}

/-! The word that the next move carries spells a row. -/

/-- ASCORE drives the operation code of FFT.INIT, FFT.APPLY or FFT.DESTROY (R109). -/
theorem State.requestOp_cases (s : State) : s.requestOp = 0b01#2 ∨ s.requestOp = 0b10#2 ∨ s.requestOp = 0b11#2 := by
  unfold State.requestOp
  split
  · exact .inl rfl
  · split
    · exact .inr (.inl rfl)
    · exact .inr (.inr rfl)

/-- Under the invariant the request on the port spells a row, since it is the one that the operation in `PHASE` sent. -/
theorem State.Inv.decodeBackend_ok {hdr : BitVec 8} {ctx : Ctx} (h : s.Inv) (hport : s.fftPort = .requested hdr ctx) :
    ∃ i, decodeBackend hdr ctx = .ok i := by
  obtain ⟨rfl, rfl⟩ := h.port_word hdr ctx hport
  rcases s.requestOp_cases with hop | hop | hop <;> rw [hop]
  · exact ⟨_, decodeBackend_backendHdr_init _ _⟩
  · exact ⟨_, decodeBackend_backendHdr_apply _ _⟩
  · exact ⟨_, decodeBackend_backendHdr_destroy _ _⟩

/-- Under the invariant every fetched word spells a row, so no state is stuck (R112 (a)). -/
theorem State.Inv.decode_ok {raw : Raw} (h : s.Inv) (hfetch : s.fetch = some raw) : ∃ i, decode raw = .ok i := by
  rcases fetch_cases hfetch with ⟨-, rfl⟩ | ⟨w, -, rfl⟩ | ⟨w, -, rfl⟩ | ⟨w, -, hoffered, rfl⟩ |
    ⟨hdr, ctx, -, hport, rfl⟩ | ⟨-, rfl⟩ | ⟨-, rfl⟩
  · exact decodePhase_legal h.phase_legal
  · exact ⟨decodeHost w, rfl⟩
  · exact ⟨decodeInput w, rfl⟩
  · obtain ⟨i, hdecode, -⟩ := exec_of_mem_line (List.mem_of_getElem? (State.offered_eq_some hoffered).2)
    exact ⟨i, hdecode⟩
  · exact h.decodeBackend_ok hport
  · exact ⟨.stopreq, rfl⟩
  · exact ⟨.reset, rfl⟩

/-! The operation that runs completes. -/

/-- From COEF to STOPPED the frame lies inside the buffers, because `VALIDATE` let the configuration pass (R70, R172). -/
theorem State.Inv.fits_at {p : BitVec 5} (h : s.Inv) (hp : s.phase = p)
    (range : 0x02 ≤ p.toNat ∧ p.toNat ≤ 0x10 := by decide) : s.fits = true := by
  obtain ⟨-, -, hlog2n⟩ := h.config_valid (hp ▸ range.1) (hp ▸ range.2)
  exact (State.fits_iff s).mpr hlog2n

theorem execLoad_completes (hfits : s.fits = true) : ∃ t, execLoad s = .next t := by
  unfold execLoad
  split
  · split
    · exact ⟨_, rfl⟩
    · split
      · exact ⟨_, rfl⟩
      · exact ⟨_, State.withBuffers_of_fits _ hfits⟩
  · exact ⟨_, rfl⟩

theorem execFftinit_completes (s : State) : ∃ t, execFftinit s = .next t := by
  cases hport : s.fftPort with
  | idle => exact ⟨_, execFftinit_of_idle hport⟩
  | requested hdr ctx => exact ⟨_, execFftinit_of_requested hport⟩
  | done c => exact ⟨_, execFftinit_of_done hport⟩

theorem execFft_completes (hfits : s.fits = true) : ∃ t, execFft s = .next t := by
  cases hport : s.fftPort with
  | idle => exact ⟨_, execFft_of_idle hport hfits⟩
  | requested hdr ctx => exact ⟨_, execFft_of_requested hport⟩
  | done c => exact ⟨_, execFft_of_done hport⟩

theorem execStopping_completes (s : State) : ∃ t, execStopping s = .next t := by
  cases hport : s.fftPort with
  | idle => exact ⟨_, execStopping_of_idle hport⟩
  | requested hdr ctx => exact ⟨_, execStopping_of_requested hport⟩
  | done c => exact ⟨_, execStopping_of_done hport⟩

/-- The operation in `PHASE` completes: those that access a buffer run in phases where the frame fits (R70, R172). -/
theorem exec_phaseOp_completes {i : Instr} (h : s.Inv) (hi : i.format = .p) (hw : encode i = .phase s.phase) :
    ∃ t, exec i s = .next t := by
  cases i with
  | idle | validate | coef | check | emit | stopped | fatal => exact ⟨_, rfl⟩
  | wingen | ftgen | rms | bq1 | bq2 | window | peak =>
    exact ⟨_, State.withBuffers_of_fits _ (h.fits_at (State.phase_of_word hw))⟩
  | load => exact execLoad_completes (h.fits_at (State.phase_of_word hw))
  | fft => exact execFft_completes (h.fits_at (State.phase_of_word hw))
  | fftinit => exact execFftinit_completes s
  | stopping => exact execStopping_completes s
  | _ => cases hi

/-! FFT.APPLY, by whether it is the request on the port (R94, R216). -/

theorem execReqApply_of_served {l : BitVec 5} {ctx : Ctx} (served : s.outstanding = some (.reqApply l ctx))
    (hl : l.toNat ≤ Config.maxLog2) : execReqApply l ctx s = .next (s.transform l.toNat) := by
  rw [execReqApply, if_pos served, if_pos hl]

theorem execReqApply_of_not_served {l : BitVec 5} {ctx : Ctx} (h : s.outstanding ≠ some (.reqApply l ctx)) :
    execReqApply l ctx s = .next s :=
  if_neg h

/-- Under the invariant the transform the backend serves has the frame's size, and that fits in FFT (R111, R152). -/
theorem execReqApply_completes (h : s.Inv) (l : BitVec 5) (ctx : Ctx) : ∃ t, execReqApply l ctx s = .next t := by
  by_cases served : s.outstanding = some (.reqApply l ctx)
  · obtain ⟨hp, rfl⟩ := h.fft_of_apply served
    exact ⟨_, execReqApply_of_served served ((State.fits_iff s).mp (h.fits_at hp))⟩
  · exact ⟨s, execReqApply_of_not_served served⟩

/-- Every instruction that is no phase operation completes, in every phase. -/
theorem exec_event_completes {i : Instr} (h : s.Inv) (hi : i.format ≠ .p) : ∃ t, exec i s = .next t := by
  cases i with
  | start | stop | wr _ _ | rd _ => exact exec_hostOp_completes rfl s
  | reqApply l ctx => exact execReqApply_completes h l ctx
  | sample _ | short | freq _ | amp _ | rmsv _ | eol | reqInit _ | reqDestroy _ | stopreq | reset => exact ⟨_, rfl⟩
  | _ => exact absurd rfl hi

end

/-- Settles O8: a turn passes, or the word fetched spells an instruction and that instruction completes. -/
theorem invariantNeverFaults : Obligations.InvariantNeverFaults := by
  unfold Obligations.InvariantNeverFaults
  intro s h
  have hturn : s.nextTurn.Inv := h.withEnv _
  rcases step_cases s with ⟨-, hpass⟩ | ⟨raw, i, hfetch, hdecode, hrun⟩ | ⟨raw, why, hfetch, hstuck, -⟩
  · exact ⟨_, hpass⟩
  · rw [hrun]
    by_cases hi : i.format = .p
    · exact exec_phaseOp_completes hturn hi ((State.runs_of_decode hfetch hdecode).sequencer hi).2
    · exact exec_event_completes hturn hi
  · obtain ⟨i, hdecode⟩ := h.decode_ok hfetch
    cases hstuck.symm.trans hdecode

end Sys2Proof.Machine
end

section
/-! PROOFS of the statements of 60_exceptions on the terminal phases: nothing but reset leads out of them (O9), and the pins
`done` and `fatal` show them (O33). -/

namespace Sys2Proof.Machine

/-- The table of R170 leads neither out of STOPPED or FATAL nor into `IDLE` (R211). -/
theorem successors_terminal : ∀ e ∈ successors, e.1 ≠ Phase.stopped ∧ e.1 ≠ Phase.fatal ∧ e.2 ≠ Phase.idle := by
  simp [successors]

section

variable {s t : State} (hstep : step s = .next t) (hreset : ¬ s.resetNext)

include hstep hreset

/-- A terminal phase stays until reset (R211, R214). -/
theorem step_keeps_terminal (hterminal : s.terminal) : t.phase = s.phase := by
  by_contra hne
  rcases step_phase_cases hstep hreset hne with ⟨-, hsucc⟩ | ⟨hidle, -⟩
  · obtain ⟨hstopped, hfatal, -⟩ := successors_terminal _ hsucc
    exact hterminal.elim hstopped hfatal
  · rcases hterminal with hp | hp <;> cases hidle.symm.trans hp

/-- Nothing but reset enters `IDLE` (R211). -/
theorem step_not_into_idle (hbefore : s.phase ≠ Phase.idle) : t.phase ≠ Phase.idle := by
  intro hafter
  rcases step_phase_cases hstep hreset (by rwa [hafter, ne_comm]) with ⟨-, hsucc⟩ | ⟨hidle, -⟩
  · exact (successors_terminal _ hsucc).2.2 hafter
  · exact hbefore hidle

end

/-- The reset move gives the state of R55, with the turn taken (R230). -/
theorem step_of_resetNext {s : State} (h : s.resetNext) : step s = .next s.nextTurn.restart :=
  step_of_decode (State.fetch_of_head h) rfl

/-- Settles O9: without a reset terminal phases stay and `IDLE` is not entered. -/
theorem onlyResetReturns : Obligations.OnlyResetReturns := by
  unfold Obligations.OnlyResetReturns
  refine fun s t hstep => ⟨fun hterminal hleft => ?_, fun hafter hbefore => ?_, fun hreset => ?_⟩
  · by_contra hreset
    exact hleft (step_keeps_terminal hstep hreset hterminal)
  · by_contra hreset
    exact step_not_into_idle hstep hreset hbefore hafter
  · exact Host.Outcome.next.inj (hstep.symm.trans (step_of_resetNext hreset))

/-! The pins (R43, R214). -/

theorem State.done_iff (s : State) : s.done = true ↔ s.phase = Phase.stopped := by simp [State.done]

theorem State.fatalf_iff (s : State) : s.fatalf = true ↔ s.phase = Phase.fatal := by simp [State.fatalf]

/-- Settles O33: each pin is 1 in its terminal phase alone, and that phase stays. -/
theorem doneAndFatalPins : Obligations.DoneAndFatalPins := by
  unfold Obligations.DoneAndFatalPins
  refine fun s => ⟨s.done_iff, s.fatalf_iff, s.statusWord_getLsbD 9, s.statusWord_getLsbD 10, fun t hstep hreset => ?_⟩
  rw [s.done_iff, t.done_iff, s.fatalf_iff, t.fatalf_iff]
  exact ⟨fun hp => (step_keeps_terminal hstep hreset (.inl hp)).trans hp,
    fun hp => (step_keeps_terminal hstep hreset (.inr hp)).trans hp⟩

end Sys2Proof.Machine
end

section
/-! PROOFS of the statements of 60_exceptions on the backend: it transforms RE and IM (O49) and answers the requests that
hold no frame (O48). -/

namespace Sys2Proof.Machine

/-! The words of the transform (R216). -/

section

variable (s : State) (l : Nat) {k : Nat}

theorem State.word_transform_re (hk : k < 2 ^ l) : (s.transform l).word .re k = (fftOutput s l k).1 := by
  rw [State.transform, State.word_answer, State.word_storeFrame, dif_neg (by simp), State.word_storeFrame,
    dif_pos ⟨rfl, by simpa using hk⟩, List.getElem_map, List.getElem_range]

theorem State.word_transform_im (hk : k < 2 ^ l) : (s.transform l).word .im k = (fftOutput s l k).2 := by
  rw [State.transform, State.word_answer, State.word_storeFrame, dif_pos ⟨rfl, by simpa using hk⟩, List.getElem_map,
    List.getElem_range]

end

/-- FFT.APPLY changes words of RE and IM below its size alone. -/
theorem execReqApply_keepsWords {s t : State} {l : BitVec 5} {ctx : Ctx} (he : execReqApply l ctx s = .next t) :
    s.keepsWords t (fun b i => (b = .re ∨ b = .im) ∧ i < 2 ^ l.toNat) := by
  intro b i hother
  by_contra hchanged
  cases (execReqApply_accesses he).words b i hchanged with
  | applyRe _ below => exact hother ⟨.inl rfl, below⟩
  | applyIm _ below => exact hother ⟨.inr rfl, below⟩

/-- Settles O49: each word of the transform is a part of the bin that `fftOutput` names. -/
theorem backendTransforms : Obligations.BackendTransforms := by
  unfold Obligations.BackendTransforms
  refine fun s l ctx hl => ⟨fun served => ?_, execReqApply_of_not_served⟩
  have hexec := execReqApply_of_served served hl
  exact ⟨s.transform l.toNat, hexec,
    fun k hk => ⟨_, rfl, s.word_transform_re l.toNat hk, s.word_transform_im l.toNat hk⟩,
    execReqApply_keepsWords hexec, rfl⟩

/-- Settles O48: both requests ask whether they are the one on the port, and answer it if so. -/
theorem backendAnswers : Obligations.BackendAnswers := by
  unfold Obligations.BackendAnswers
  intro s i hkind
  have hexec : exec i s = .next (if s.outstanding = some i then s.answer else s) := by
    rcases hkind with ⟨l, rfl⟩ | ⟨ctx, rfl⟩ <;> rfl
  rw [hexec]
  exact ⟨fun served => congrArg Host.Outcome.next (if_pos served), fun h => congrArg Host.Outcome.next (if_neg h)⟩

end Sys2Proof.Machine
end
